-- ==== Sys2Proof/Word.lean ====
section
/-! DEFINITION. The widths of HUFFCORE and the plain types of its memories (spec 00_scope.md R12 to R14, 30_encoding.md R70 and
R77). -/

namespace Sys2Proof

/-- One byte: a symbol, or one byte of a stream (R6). -/
abbrev Byte := BitVec 8

/-- One command word of the command port (R70). -/
abbrev Word := BitVec 32

/-- The data part of a response (R77). -/
abbrev Data := BitVec 64

/-- A weight or probability, held as its binary64 pattern (R122); its meaning as a number is `Machine.wval`. -/
abbrev Weight := BitVec 64

/-- A bit string (R14): position 0 is the first bit. -/
abbrev BitString := List Bool

/-- One of the core's memories: element index and element, in the canonical form `Machine.Memory.wf`. With `α := Byte` this is a
list of `Host.Cell`. -/
abbrev Memory (α : Type) := List (Nat × α)

end Sys2Proof
end

