-- ==== Sys2Proof/Config.lean ====
section
/-! DEFINITION. What the spec fixes for every HUFFCORE, and the default of the two capacity parameters (00_scope.md R6 to R8). The
capacities themselves are registers 15 and 16 of State, so that a statement about every state is about every capacity. The core has
no free value (10_state.md R39), so there is no opaque constant here. -/

namespace Sys2Proof.Config

/-- ALPHA, the alphabet size (R6). -/
def alpha : Nat := 256

/-- NODEMAX = 2 * ALPHA - 1, the number of elements of NODE (R7). -/
def nodeMax : Nat := 511

/-- NIL, the node index that means "no child" (R19, R36). -/
def nil : BitVec 9 := 0x1FF#9

/-- The constant of the ID register (R26). -/
def idValue : BitVec 32 := 0x48554601#32

/-- The default of the parameter IBCAP (R8). -/
def defaultIbcap : BitVec 25 := 65536#25

/-- The default of the parameter OBCAP (R8). -/
def defaultObcap : BitVec 25 := 524288#25

/-- The largest value the spec allows for IBCAP and OBCAP (R8). -/
def capMax : Nat := 2 ^ 24

/-- The most frames the recursion of CG.RUN has, which is also one more than the longest code (R16, R183). -/
def visitFrames : Nat := 256

end Sys2Proof.Config
end

