-- ==== Sys2Proof/Machine/State.lean ====
section
/-! DEFINITION. The state of HUFFCORE (spec 10_state.md R20 to R37, R40; 30_encoding.md R77), the reasons a step can stop, and the
state after reset. Every register of R22 has one home: STATUS is kept as its three fields (R24), ID is the constant
`Config.idValue`, and the constant registers IBCAP and OBCAP carry the two capacity parameters. The type of weights is the type part of
the parameter WARITH (00_scope.md R8): `State.Of W`, `Entry.Of W` and `Node.Of W` hold weights of any type `W`, and `State`, `Entry`
and `Node` are this hardware's, with W = Weight. -/

namespace Sys2Proof.Machine

/-- The phase, STATUS[2:0] (R24). The values 4, 5 and 6 never occur, so they have no constructor. -/
inductive Phase where
  | idle
  | listed
  | treed
  | coded
  | fault
  deriving DecidableEq, Repr

/-- The pipeline's faults (60_exceptions.md R251). A command that raises one answers a next state, in phase FAULT. -/
inductive FaultKind where
  | emptyInput
  | invalidTreeState
  | unencodableSymbol
  | corruptStream
  | malformedBitstring
  | capacity
  deriving DecidableEq, Repr

/-- The rejections (R259). A rejected command answers a next state that differs in the response only. -/
inductive Rejection where
  | illegalCommand
  | sequenceError
  | rangeError
  | bufferFull
  deriving DecidableEq, Repr

/-- One response (R77): an 8-bit code and 64 bits of data. -/
structure Response where
  code : BitVec 8
  data : Data
  deriving DecidableEq, Repr

/-- What the host can do to the core (R288): put a command word on the port, or assert the reset input (R280). -/
inductive HostInput where
  | command (w : Word)
  | reset
  deriving DecidableEq, Repr

/-- One element of SFL (R35), with weights of type `W`. -/
structure Entry.Of (W : Type) where
  sym : Byte
  prob : W
  deriving DecidableEq, Repr

/-- One element of this hardware's SFL. -/
abbrev Entry := Entry.Of Weight

/-- One element of NODE (R36), with weights of type `W`. -/
structure Node.Of (W : Type) where
  leaf : Bool
  sym : Byte
  w : W
  left : BitVec 9
  right : BitVec 9
  deriving DecidableEq, Repr

/-- One element of this hardware's NODE. -/
abbrev Node := Node.Of Weight

/-- One element of CODE (R37): the bits of a code. Its `len` is the length of the string, so it is stored once; the empty string is
"no code". -/
abbrev Code := BitString

/-- The six memories (R50), for naming an element that does not exist. -/
inductive Space where
  | ib
  | ob
  | cnt
  | sfl
  | node
  | code
  deriving DecidableEq, Repr

/-- What an unlisted element of each memory reads as. CNT and CODE: the reset contents of R40. IB, OB, SFL and NODE: DESIGN CHOICE,
R40 leaves them unspecified (log entry 2). -/
def unlistedByte : Byte := 0#8
/-- A count that is not listed is 0, its reset value (R40). -/
def unlistedCount : BitVec 25 := 0#25
/-- DESIGN CHOICE (log entry 2). The weight is the type's default element, for `Weight` the pattern 0. -/
def unlistedEntry {W : Type} [Inhabited W] : Entry.Of W := ⟨0#8, default⟩
/-- DESIGN CHOICE (log entry 2): an element that is no leaf and has no children. -/
def unlistedNode {W : Type} [Inhabited W] : Node.Of W := ⟨false, 0#8, default, Config.nil, Config.nil⟩
/-- A code that is not listed has length 0, its reset value (R40). -/
def unlistedCode : Code := []

/-- The whole state, with weights of type `W`: the registers of R22, the six memories of R50, and the two ends of the command port. -/
structure State.Of (W : Type) where
  /-- STATUS[2:0] (R24). -/
  phase : Phase
  /-- STATUS[3], MID (R24, R226). -/
  mid : Bool
  /-- STATUS[4], SYNTH (R24, R126). -/
  synth : Bool
  /-- ERR (R25). -/
  err : BitVec 8
  /-- ERRINFO (R25). -/
  errinfo : BitVec 32
  /-- ILEN (R27). -/
  ilen : BitVec 25
  /-- OLEN (R27). -/
  olen : BitVec 25
  /-- TOTAL (R27). -/
  total : BitVec 25
  /-- NSFL (R28). -/
  nsfl : BitVec 9
  /-- NNODE (R28). -/
  nnode : BitVec 10
  /-- ROOT (R28). -/
  root : BitVec 9
  /-- NBITS (R29). -/
  nbits : BitVec 32
  /-- PAD (R29). -/
  pad : BitVec 4
  /-- SRCH (R30). -/
  srch : BitVec 9
  /-- TGTH (R30). -/
  tgth : BitVec 10
  /-- TGTT (R30). -/
  tgtt : BitVec 10
  /-- IBCAP, the constant register that reads back the parameter (R31). -/
  ibcap : BitVec 25
  /-- OBCAP, the constant register that reads back the parameter (R31). -/
  obcap : BitVec 25
  /-- IB (R32). -/
  ib : Memory Byte
  /-- OB (R33). -/
  ob : Memory Byte
  /-- CNT (R34). -/
  cnt : Memory (BitVec 25)
  /-- SFL (R35). -/
  sfl : Memory (Entry.Of W)
  /-- NODE (R36). -/
  node : Memory (Node.Of W)
  /-- CODE (R37). -/
  code : Memory Code
  /-- The response side of the command port (R77): the response to the last command, none since a reset. -/
  rsp : Option Response
  /-- The command side of the command port: what the host will do, in order (R60, R64, R288). -/
  port : List HostInput
  deriving DecidableEq, Repr

/-- The state of this hardware. -/
abbrev State := State.Of Weight

/-- Why a step stops. The core of the spec never stops (R291); these name what a state that no sequence of commands reaches from
reset would have to do, and for which the spec gives no effect. -/
inductive Fault where
  /-- Raised by FA.RUN, BP.RUN, DEC.RUN (IB, NODE), TB.RUN (SFL), CG.RUN (NODE), BP.RUN (OB) and the read commands when a register
  holds a value outside its range of R22, so that an element past the end of a memory would be accessed (R56: no access wraps).
  SAFE: the machine stops where the spec has no such state. -/
  | noSuchElement (sp : Space) (i : Nat)
  /-- Raised by CG.RUN when `visit` would need more than 256 frames, which R16 and R183 exclude for every tree of R41. SAFE: the
  machine stops where the spec has no such state. -/
  | visitTooDeep
  deriving DecidableEq, Repr

/-- Why an instruction has no meaning. Every instruction of this model has one, so no step answers this. -/
inductive Refusal where
  /-- Raised by an arm of exec that has no meaning yet. SAFE: nothing can be proved of a next state. -/
  | notModelled (mnemonic : String)
  deriving DecidableEq, Repr

/-- What a step or a meaning answers. -/
abbrev Result (W : Type := Weight) := Host.Outcome (State.Of W) Fault Refusal

/-- The reset state of a core with the given capacities (R22, R40), whatever the type of its weights, with nothing on the command
port. -/
def State.Of.fresh {W : Type} (ibcap obcap : BitVec 25) : State.Of W where
  phase := .idle
  mid := false
  synth := false
  err := 0#8
  errinfo := 0#32
  ilen := 0#25
  olen := 0#25
  total := 0#25
  nsfl := 0#9
  nnode := 0#10
  root := Config.nil
  nbits := 0#32
  pad := 0#4
  srch := 0#9
  tgth := 0#10
  tgtt := 0#10
  ibcap := ibcap
  obcap := obcap
  ib := []
  ob := []
  cnt := []
  sfl := []
  node := []
  code := []
  rsp := none
  port := []

/-- The machine right after reset, with the default capacities and nothing on the command port (R22, R40). -/
def State.reset : State := .fresh Config.defaultIbcap Config.defaultObcap

end Sys2Proof.Machine
end

