-- ==== Sys2Proof/Machine/Memory.lean ====
section
/-! DEFINITION. The one form of the core's memories and the operations over it (spec 20_memory.md R50, R55, R63): a list of index and
element, indices strictly rising, no element equal to what an unlisted index reads as. `d` is always what an unlisted index reads
as. -/

namespace Sys2Proof.Machine

/-- The canonical form of a memory of `size` elements: indices strictly rising and below `size`, no listed element equal to `d`. -/
abbrev Memory.wf {α : Type} (d : α) (size : Nat) (m : Memory α) : Prop :=
  m.Pairwise (fun x y => x.1 < y.1) ∧ ∀ x ∈ m, x.1 < size ∧ x.2 ≠ d

/-- `MemRead`: element `i` (R15). -/
def Memory.read {α : Type} (d : α) : Memory α → Nat → α
  | [], _ => d
  | (k, v) :: m, i => if k < i then Memory.read d m i else if k = i then v else d

/-- `MemWrite`: the memory with element `i` replaced by `v` (R15). -/
def Memory.write {α : Type} [DecidableEq α] (d : α) : Memory α → Nat → α → Memory α
  | [], i, v => if v = d then [] else [(i, v)]
  | (k, u) :: m, i, v =>
    if k < i then (k, u) :: Memory.write d m i v
    else if k = i then if v = d then m else (i, v) :: m
    else if v = d then (k, u) :: m else (i, v) :: (k, u) :: m

/-- Writes the elements of a list to consecutive indices, the first at `a`. -/
def Memory.writeFrom {α : Type} [DecidableEq α] (d : α) (m : Memory α) (a : Nat) : List α → Memory α
  | [] => m
  | v :: vs => Memory.writeFrom d (Memory.write d m a v) (a + 1) vs

/-- Elements 0 to `n - 1`, in order. -/
def Memory.first {α : Type} (d : α) (m : Memory α) (n : Nat) : List α :=
  (List.range n).map (Memory.read d m)

end Sys2Proof.Machine
end

