-- ==== Sys2Proof/Machine/Weight.lean ====
section
/-! DEFINITION. The weight arithmetic: IEEE 754 binary64, round to nearest, ties to even (spec 41_frequency_analyzer.md R122). A
weight is its 64-bit pattern; as a number it is a whole number of units of 2^-1074, the smallest positive binary64 value, so every
operation is exact on natural numbers and rounds once at the end. Patterns with the sign bit set, infinities and NaNs never occur
(R122, R124); log entry 4. -/

namespace Sys2Proof.Machine

/-- 1.0 in units of 2^-1074. -/
def unitsPerOne : Nat := 2 ^ 1074

/-- The value of a pattern in units of 2^-1074: with exponent field E and fraction F it is `2^(E-1023) * (1 + F / 2^52)`, and zero
for E = F = 0 (R122). -/
def wval (a : Weight) : Nat :=
  if a.toNat / 2 ^ 52 = 0 then a.toNat % 2 ^ 52
  else (2 ^ 52 + a.toNat % 2 ^ 52) * 2 ^ (a.toNat / 2 ^ 52 - 1)

/-- The integer nearest to `n / d`, the even one when `n / d` is halfway between two (R122). -/
def nearestEven (n d : Nat) : Nat :=
  if 2 * (n % d) < d then n / d
  else if d < 2 * (n % d) then n / d + 1
  else if n / d % 2 = 0 then n / d else n / d + 1

/-- The power of two (in units) of the last fraction bit of a value of `n / d` units: `q = 2^(e - 52)` of R122. -/
def ulpExponent (n d : Nat) : Nat := max 52 (n / d).log2 - 52

/-- `RNE` (R122) of the value `n / d` units, as a pattern. The carry out of the fraction goes into the exponent field. -/
def rne (n d : Nat) : Weight :=
  BitVec.ofNat 64 (ulpExponent n d * 2 ^ 52 + nearestEven n (d * 2 ^ ulpExponent n d))

/-- `wzero`: all 64 bits 0 (R122). -/
def wzero : Weight := 0#64

/-- `wdiv(c, t)`: the exact quotient rounded once (R122). -/
def wdiv (c t : Nat) : Weight := rne (c * unitsPerOne) t

/-- `wadd(a, b)`: zero when the sum is zero, else the exact sum rounded once (R122). -/
def wadd (a b : Weight) : Weight :=
  if wval a + wval b = 0 then wzero else rne (wval a + wval b) 1

/-- `wlt(a, b)`: a < b as numbers (R122). -/
def wlt (a b : Weight) : Bool := wval a < wval b

/-- `weq(a, b)`: a = b as numbers (R122). -/
def weq (a b : Weight) : Bool := wval a == wval b

/-- `wbits(a)`: the 64-bit pattern (R122). -/
def wbits (a : Weight) : Data := a

/-- The parameter WARITH (00_scope.md R8): a type of weights and the six functions over it (R15). The laws every instance must obey
(R123) are `WArith.Lawful`. The machine is written for any; this hardware's is `binary64`. -/
structure WArith (W : Type) where
  wdiv : Nat → Nat → W
  wadd : W → W → W
  wlt : W → W → Bool
  weq : W → W → Bool
  wzero : W
  wbits : W → Data

/-- The default of WARITH, which is this hardware's (R8, R122). -/
def binary64 : WArith Weight where
  wdiv := Machine.wdiv
  wadd := Machine.wadd
  wlt := Machine.wlt
  weq := Machine.weq
  wzero := Machine.wzero
  wbits := Machine.wbits

end Sys2Proof.Machine
end

