-- ==== Sys2Proof/Syntax.lean ====
section
/-! DEFINITION. The 21 commands of HUFFCORE (spec 30_encoding.md R71), one constructor for each row of spec/opcode_table.json. An
index, a register index and a chunk number are numbers (R76); a symbol and a pushed byte are bytes. -/

namespace Sys2Proof

/-- One command (R71). -/
inductive Instr where
  | nop
  | clr
  | ibClr
  | ibPush (b : Byte)
  | ibRd (idx : Nat)
  | obRd (idx : Nat)
  | faRun
  | tbRun
  | cgRun
  | bpRun
  | decRun
  | rdReg (r : Nat)
  | rdCnt (sym : Byte)
  | rdSfls (idx : Nat)
  | rdSflp (idx : Nat)
  | rdNk (idx : Nat)
  | rdNw (idx : Nat)
  | rdNl (idx : Nat)
  | rdNr (idx : Nat)
  | rdClen (sym : Byte)
  | rdCbits (sym : Byte) (k : Nat)
  deriving DecidableEq, Repr

end Sys2Proof
end

