-- ==== Sys2Proof/Machine/Ops.lean ====
section
/-! DEFINITION. The named operations that the meanings share: reading the six memories, answering a command, taking a fault and
returning from the fault state, the phase check, and taking the next input from the command port. -/

namespace Sys2Proof.Machine

variable {W : Type}

/-! ### The six memories (20_memory.md R50) -/

/-- How many elements a memory has (R50). -/
def Space.size (s : State.Of W) : Space → Nat
  | .ib => s.ibcap.toNat
  | .ob => s.obcap.toNat
  | .cnt => Config.alpha
  | .sfl => Config.alpha
  | .node => Config.nodeMax
  | .code => Config.alpha

/-- `IB[i]`. -/
def State.Of.ibAt (s : State.Of W) (i : Nat) : Byte := Memory.read unlistedByte s.ib i
/-- `OB[i]`. -/
def State.Of.obAt (s : State.Of W) (i : Nat) : Byte := Memory.read unlistedByte s.ob i
/-- `CNT[sym]`. -/
def State.Of.cntAt (s : State.Of W) (sym : Byte) : BitVec 25 := Memory.read unlistedCount s.cnt sym.toNat
/-- `SFL[i]`. -/
def State.Of.sflAt [Inhabited W] (s : State.Of W) (i : Nat) : Entry.Of W := Memory.read unlistedEntry s.sfl i
/-- `NODE[i]`. -/
def State.Of.nodeAt [Inhabited W] (s : State.Of W) (i : Nat) : Node.Of W := Memory.read unlistedNode s.node i
/-- `CODE[sym]`. -/
def State.Of.codeAt (s : State.Of W) (sym : Byte) : Code := Memory.read unlistedCode s.code sym.toNat

/-- IB[0..ILEN-1], the stream the host loaded (R27). -/
def State.Of.ibBytes (s : State.Of W) : List Byte := Memory.first unlistedByte s.ib s.ilen.toNat
/-- OB[0..OLEN-1], the output (R27). -/
def State.Of.obBytes (s : State.Of W) : List Byte := Memory.first unlistedByte s.ob s.olen.toNat
/-- SFL[0..NSFL-1], the sorted frequency list (R28). -/
def State.Of.sflList [Inhabited W] (s : State.Of W) : List (Entry.Of W) := Memory.first unlistedEntry s.sfl s.nsfl.toNat

/-- Goes on if element `i` of the memory exists; the model's own stop if it does not (log entry 5). -/
def withElement (sp : Space) (i : Nat) (s : State.Of W) (k : Result W) : Result W :=
  if i < sp.size s then k else .fault (.noSuchElement sp i)

/-- Goes on if elements 0 to `n - 1` of the memory exist; else stops at the first that does not (log entry 5). -/
def withElements (sp : Space) (n : Nat) (s : State.Of W) (k : Result W) : Result W :=
  if n ≤ sp.size s then k else .fault (.noSuchElement sp (sp.size s))

/-! ### Answering a command (30_encoding.md R77 to R79) -/

/-- The number of a fault (R251). -/
def FaultKind.number : FaultKind → BitVec 8
  | .emptyInput => 0x01#8
  | .invalidTreeState => 0x02#8
  | .unencodableSymbol => 0x03#8
  | .corruptStream => 0x04#8
  | .malformedBitstring => 0x05#8
  | .capacity => 0x06#8

/-- The number of a rejection (R259). -/
def Rejection.number : Rejection → BitVec 8
  | .illegalCommand => 0x80#8
  | .sequenceError => 0x81#8
  | .rangeError => 0x82#8
  | .bufferFull => 0x83#8

/-- The state with a response on the port. -/
def State.Of.answer (s : State.Of W) (code : BitVec 8) (data : Data) : State.Of W := { s with rsp := some ⟨code, data⟩ }

/-- `respond(0x00, data)`: the command ends OK (R15). -/
def respond (data : Nat) (s : State.Of W) : Result W := .next (s.answer 0x00#8 (BitVec.ofNat 64 data))

/-- `reject`: the command ends with no change of state and data 0 (R15, R79, R260). -/
def reject (r : Rejection) (s : State.Of W) : Result W := .next (s.answer r.number 0#64)

/-! ### Taking a fault, and the return from it (60_exceptions.md R262, R263) -/

/-- The state after the fault entry (R262): ERR and ERRINFO are written, OLEN, NBITS, PAD and MID cleared, the phase is FAULT, and
the response is the code and the new ERRINFO (R79). Everything else stays as the command left it. -/
def State.Of.enterFault (s : State.Of W) (f : FaultKind) (info : Nat) : State.Of W :=
  { s with
    err := f.number
    errinfo := BitVec.ofNat 32 info
    olen := 0#25
    nbits := 0#32
    pad := 0#4
    mid := false
    phase := .fault
    rsp := some ⟨f.number, (BitVec.ofNat 32 info).setWidth 64⟩ }

/-- `raise F(info)` (R15, R262). -/
def raise (f : FaultKind) (info : Nat) (s : State.Of W) : Result W := .next (s.enterFault f info)

/-- The reset state of R40 with this machine's capacities and this command port. It is the only return from FAULT (R263). -/
def State.Of.cleared (s : State.Of W) : State.Of W :=
  { State.Of.fresh s.ibcap s.obcap with rsp := s.rsp, port := s.port }

/-! ### The phase check (30_encoding.md R81 check 3, R82) -/

/-- The rows "IB.CLR, IB.PUSH" and "FA.RUN" of R82. -/
def Phase.notFault : Phase → Bool
  | .idle => true
  | .listed => true
  | .treed => true
  | .coded => true
  | .fault => false

/-- The row "TB.RUN" of R82: a list exists. -/
def Phase.hasList : Phase → Bool
  | .idle => false
  | .listed => true
  | .treed => true
  | .coded => true
  | .fault => false

/-- The rows "CG.RUN" and "DEC.RUN" of R82: a tree exists. -/
def Phase.hasTree : Phase → Bool
  | .idle => false
  | .listed => false
  | .treed => true
  | .coded => true
  | .fault => false

/-- The row "BP.RUN" of R82: a code table exists. -/
def Phase.hasCodes : Phase → Bool
  | .idle => false
  | .listed => false
  | .treed => false
  | .coded => true
  | .fault => false

/-- The legality table (R82). -/
def legal (i : Instr) (p : Phase) : Bool :=
  match i with
  | .nop => true
  | .clr => true
  | .ibClr => p.notFault
  | .ibPush _ => p.notFault
  | .ibRd _ => true
  | .obRd _ => true
  | .faRun => p.notFault
  | .tbRun => p.hasList
  | .cgRun => p.hasTree
  | .bpRun => p.hasCodes
  | .decRun => p.hasTree
  | .rdReg _ => true
  | .rdCnt _ => true
  | .rdSfls _ => true
  | .rdSflp _ => true
  | .rdNk _ => true
  | .rdNw _ => true
  | .rdNl _ => true
  | .rdNr _ => true
  | .rdClen _ => true
  | .rdCbits _ _ => true

/-- Check 3 of R81: goes on if the command is legal in the current phase, else SequenceError. -/
def whenLegal (i : Instr) (s : State.Of W) (k : Result W) : Result W :=
  if legal i s.phase then k else reject .sequenceError s

/-! ### The command port (20_memory.md R60, 70_reset_and_hazards.md R280, R288; log entry 1) -/

/-- Takes the next thing the host does off the port. -/
def fetch (s : State.Of W) : Option (HostInput × State.Of W) :=
  match s.port with
  | [] => none
  | x :: rest => some (x, { s with port := rest })

/-- With nothing on the port the core waits, and nothing changes (R10). -/
def wait (s : State.Of W) : Result W := .next s

/-- The reset input (R280): the reset state, and no response. -/
def resetInput (s : State.Of W) : Result W := .next { s.cleared with rsp := none }

/-- A word that is no command (R80). -/
def illegalCommand (s : State.Of W) : Result W := reject .illegalCommand s

end Sys2Proof.Machine
end

