-- ==== Sys2Proof/Machine/Flags.lean ====
section
/-! DEFINITION. The status word and its flags (spec 10_state.md R24). -/

namespace Sys2Proof.Machine

variable {W : Type}

/-- The number of a phase (R24). -/
def Phase.number : Phase → Nat
  | .idle => 0
  | .listed => 1
  | .treed => 2
  | .coded => 3
  | .fault => 7

/-- The number of a flag bit. -/
def flagBit (b : Bool) : Nat := if b then 1 else 0

/-- STATUS as it reads: PHASE in bits 2:0, MID in bit 3, SYNTH in bit 4, zeros above (R24). -/
def statusWord (s : State.Of W) : BitVec 32 :=
  BitVec.ofNat 32 (flagBit s.synth * 16 + flagBit s.mid * 8 + s.phase.number)

/-- MID after a successful DEC.RUN: 1 when the walk ended away from the root (R226). -/
def midFlag (cur root : BitVec 9) : Bool := cur != root

/-- SYNTH after a successful FA.RUN: 1 when the list before the edge case has one entry (R126). -/
def synthFlag (tallied : List (Entry.Of W)) : Bool := tallied.length == 1

end Sys2Proof.Machine
end

