-- ==== Sys2Proof/Machine/Operands.lean ====
section
/-! DEFINITION. The operands of a command: the register file behind RD.REG, the index check of format X and the chunk of format C
(spec 10_state.md R22, 20_memory.md R56, 30_encoding.md R76, R85). -/

namespace Sys2Proof.Machine

variable {W : Type}

/-- Register `r` of R22, as a number; no register has an index above 16. -/
def readReg (s : State.Of W) (r : Nat) : Option Nat :=
  match r with
  | 0 => some Config.idValue.toNat
  | 1 => some (statusWord s).toNat
  | 2 => some s.err.toNat
  | 3 => some s.errinfo.toNat
  | 4 => some s.ilen.toNat
  | 5 => some s.olen.toNat
  | 6 => some s.total.toNat
  | 7 => some s.nsfl.toNat
  | 8 => some s.nnode.toNat
  | 9 => some s.root.toNat
  | 10 => some s.nbits.toNat
  | 11 => some s.pad.toNat
  | 12 => some s.srch.toNat
  | 13 => some s.tgth.toNat
  | 14 => some s.tgtt.toNat
  | 15 => some s.ibcap.toNat
  | 16 => some s.obcap.toNat
  | _ => none

/-- A host read of element `idx` of a memory with `valid` valid elements: RangeError past them, else the value (R56). -/
def readElement (sp : Space) (valid idx : Nat) (value : Nat) (s : State.Of W) : Result W :=
  if valid ≤ idx then reject .rangeError s else withElement sp idx s (respond value s)

/-- Chunk `k` of a code: position `64k + m` in bit `63 - m`, zeros at and past the code's length (R186). -/
def codeChunk (c : Code) (k : Nat) : Nat :=
  (List.range 64).foldl (fun d m => if c.getD (64 * k + m) false then d + 2 ^ (63 - m) else d) 0

end Sys2Proof.Machine
end

