-- ==== Sys2Proof/Machine/BitPacker.lean ====
section
/-! DEFINITION. BitPacker: BP.RUN (spec 44_bit_packer.md R200 to R207), and the order of bits in a byte (00_scope.md R14). -/

namespace Sys2Proof.Machine

variable {W : Type}

/-- `byte_of`: bit 7 is the first of the 8 bits (R14, R52). -/
def byteOf (bits : BitString) : Byte := BitVec.ofNat 8 (bits.foldl (fun acc b => 2 * acc + flagBit b) 0)

/-- `bits_of`: the 8 bits of a byte, bit 7 first (R14, R52). -/
def bitsOf (b : Byte) : BitString :=
  [b.getLsbD 7, b.getLsbD 6, b.getLsbD 5, b.getLsbD 4, b.getLsbD 3, b.getLsbD 2, b.getLsbD 1, b.getLsbD 0]

/-- How the concatenation loop of BP.RUN ends (R201). -/
inductive PackEnd where
  | bits (bits : BitString)
  | unencodable (j : Nat) (sym : Byte)
  | overflow (j : Nat)
  deriving DecidableEq, Repr

/-- The concatenation loop (R201): the symbols from index `j` on, with the bits so far. An unencodable symbol is found before the
capacity test at the same index (R261). -/
def concatCodes (code : Memory Code) (obcap : Nat) : List Byte → Nat → BitString → PackEnd
  | [], _, bits => .bits bits
  | sym :: rest, j, bits =>
    if (Memory.read unlistedCode code sym.toNat).length = 0 then .unencodable j sym
    else if 8 * obcap ≤ (bits ++ Memory.read unlistedCode code sym.toNat).length then .overflow j
    else concatCodes code obcap rest (j + 1) (bits ++ Memory.read unlistedCode code sym.toNat)

/-- `pad = 8 - (len mod 8)`, 1 to 8 (R202). -/
def padding (len : Nat) : Nat := 8 - len % 8

/-- `full`: the padding block in front of the codes (R202). -/
def padded (bits : BitString) : BitString := List.replicate (padding bits.length - 1) false ++ true :: bits

/-- The bytes of a bit string whose length is a multiple of 8 (R203). -/
def groupBytes : BitString → List Byte
  | b7 :: b6 :: b5 :: b4 :: b3 :: b2 :: b1 :: b0 :: rest =>
    byteOf [b7, b6, b5, b4, b3, b2, b1, b0] :: groupBytes rest
  | _ => []

/-- The state after BP.RUN has packed `bits` (R201). -/
def State.Of.packed (s : State.Of W) (bits : BitString) : State.Of W :=
  { s with
    ob := Memory.writeFrom unlistedByte s.ob 0 (groupBytes (padded bits))
    olen := BitVec.ofNat 25 ((padded bits).length / 8)
    nbits := BitVec.ofNat 32 bits.length
    pad := BitVec.ofNat 4 (padding bits.length) }

/-- The first line of BP.RUN's pseudocode (R201). -/
def State.Of.noOutput (s : State.Of W) : State.Of W := { s with olen := 0#25, nbits := 0#32, pad := 0#4 }

/-- BP.RUN (R201). -/
def execBpRun (s : State.Of W) : Result W :=
  whenLegal .bpRun s <|
    withElements .ib s.ilen.toNat s <|
      match concatCodes s.code s.obcap.toNat s.ibBytes 0 [] with
      | .unencodable j sym => raise .unencodableSymbol (j * 256 + sym.toNat) s.noOutput
      | .overflow j => raise .capacity j s.noOutput
      | .bits bits =>
        withElements .ob ((padded bits).length / 8) s <|
          respond (s.noOutput.packed bits).olen.toNat (s.noOutput.packed bits)

end Sys2Proof.Machine
end

