-- ==== Sys2Proof/Machine/CodeGenerator.lean ====
section
/-! DEFINITION. CodeTableGenerator: CG.RUN, RD.CLEN, RD.CBITS (spec 43_code_generator.md R180 to R186). -/

namespace Sys2Proof.Machine

variable {W : Type}

/-- `visit(i, path)` (R181): left subtree before right (R184), `'0'` for left and `'1'` for right. The first argument is how many
frames are left of the 256 of R16 and R183. A child index that names no element, and a recursion with no frame left, are the model's
own stops (log entry 5): no tree of 10_state.md R41 has them. -/
def visit [Inhabited W] (node : Memory (Node.Of W)) : Nat → Nat → BitString → Memory Code → Except Fault (Memory Code)
  | 0, _, _, _ => .error .visitTooDeep
  | frames + 1, i, path, code =>
    if i < Config.nodeMax then
      if (Memory.read unlistedNode node i).leaf then
        .ok (Memory.write unlistedCode code (Memory.read unlistedNode node i).sym.toNat path)
      else
        match visit node frames (Memory.read unlistedNode node i).left.toNat (path ++ [false]) code with
        | .error f => .error f
        | .ok code' => visit node frames (Memory.read unlistedNode node i).right.toNat (path ++ [true]) code'
    else .error (.noSuchElement .node i)

/-- CG.RUN (R181). -/
def execCgRun [Inhabited W] (s : State.Of W) : Result W :=
  whenLegal .cgRun s <|
    match visit s.node Config.visitFrames s.root.toNat [] [] with
    | .ok code => respond s.nsfl.toNat { s with code := code, phase := .coded }
    | .error f => .fault f

/-- RD.CLEN s (R185). -/
def execRdClen (sym : Byte) (s : State.Of W) : Result W := whenLegal (.rdClen sym) s (respond (s.codeAt sym).length s)

/-- RD.CBITS s, k (R186). -/
def execRdCbits (sym : Byte) (k : Nat) (s : State.Of W) : Result W :=
  whenLegal (.rdCbits sym k) s (respond (codeChunk (s.codeAt sym) k) s)

end Sys2Proof.Machine
end

