-- ==== Sys2Proof/Machine/FrequencyAnalyzer.lean ====
section
/-! DEFINITION. FrequencyAnalyzer: FA.RUN, RD.CNT, RD.SFLS, RD.SFLP (spec 41_frequency_analyzer.md R120 to R131). -/

namespace Sys2Proof.Machine

variable {W : Type}

/-- The first five lines of FA.RUN's pseudocode (R121): the counts, the list, the tree and the code table are discarded. -/
def State.Of.discardList (s : State.Of W) : State.Of W :=
  { s with
    cnt := []
    code := []
    total := 0#25
    nsfl := 0#9
    synth := false
    nnode := 0#10
    root := Config.nil
    srch := 0#9
    tgth := 0#10
    tgtt := 0#10 }

/-- `CNT[s] <- CNT[s] + 1` (R121, R125). -/
def countOne (cnt : Memory (BitVec 25)) (sym : Byte) : Memory (BitVec 25) :=
  Memory.write unlistedCount cnt sym.toNat (BitVec.ofNat 25 ((Memory.read unlistedCount cnt sym.toNat).toNat + 1))

/-- The tally loop (R125). -/
def tally (cnt : Memory (BitVec 25)) (bytes : List Byte) : Memory (BitVec 25) := bytes.foldl countOne cnt

/-- The entry of one symbol, if it occurs (R121). -/
def talliedEntry (wa : WArith W) (cnt : Memory (BitVec 25)) (total sym : Nat) : Option (Entry.Of W) :=
  if 0 < (Memory.read unlistedCount cnt sym).toNat then
    some ⟨BitVec.ofNat 8 sym, wa.wdiv (Memory.read unlistedCount cnt sym).toNat total⟩
  else none

/-- The entries of all symbols that occur, by ascending symbol (R121). -/
def talliedEntries (wa : WArith W) (cnt : Memory (BitVec 25)) (total : Nat) : List (Entry.Of W) :=
  (List.range Config.alpha).filterMap (talliedEntry wa cnt total)

/-- The single-distinct-symbol edge case (R126). -/
def withSynthetic (wa : WArith W) : List (Entry.Of W) → List (Entry.Of W)
  | [e] => [e, ⟨BitVec.ofNat 8 ((e.sym.toNat + 1) % Config.alpha), wa.wzero⟩]
  | es => es

/-- The order of the list (R127): by ascending probability, ties by ascending symbol. -/
def entryBefore (wa : WArith W) (a b : Entry.Of W) : Bool :=
  wa.wlt a.prob b.prob || (wa.weq a.prob b.prob && a.sym.toNat < b.sym.toNat)

/-- Puts an entry in front of the first that it comes before. -/
def insertEntry (wa : WArith W) (e : Entry.Of W) : List (Entry.Of W) → List (Entry.Of W)
  | [] => [e]
  | x :: xs => if entryBefore wa e x then e :: x :: xs else x :: insertEntry wa e xs

/-- The list sorted by R127; the sorting method does not matter (R127, U16). -/
def sortEntries (wa : WArith W) (es : List (Entry.Of W)) : List (Entry.Of W) := es.foldr (insertEntry wa) []

/-- The state after a successful FA.RUN on the bytes of IB, from the state after `State.Of.discardList` (R121). -/
def State.Of.analyzed [Inhabited W] [DecidableEq W] (wa : WArith W) (s : State.Of W) : State.Of W :=
  let cnt := tally s.cnt s.ibBytes
  let es := talliedEntries wa cnt s.ilen.toNat
  let sorted := sortEntries wa (withSynthetic wa es)
  { s with
    cnt := cnt
    total := s.ilen
    synth := synthFlag es
    sfl := Memory.writeFrom unlistedEntry s.sfl 0 sorted
    nsfl := BitVec.ofNat 9 sorted.length
    phase := .listed }

/-- FA.RUN (R121), for every weight arithmetic. -/
def execFaRunWith [Inhabited W] [DecidableEq W] (wa : WArith W) (s : State.Of W) : Result W :=
  whenLegal .faRun s <|
    if s.ilen.toNat = 0 then raise .emptyInput 0 s.discardList
    else
      withElements .ib s.ilen.toNat s
        (respond (s.discardList.analyzed wa).nsfl.toNat (s.discardList.analyzed wa))

/-- FA.RUN (R121, R122). -/
def execFaRun (s : State) : Result := execFaRunWith binary64 s

/-- RD.CNT s (R129). -/
def execRdCnt (sym : Byte) (s : State.Of W) : Result W := whenLegal (.rdCnt sym) s (respond (s.cntAt sym).toNat s)

/-- RD.SFLS idx (R130). -/
def execRdSfls [Inhabited W] (idx : Nat) (s : State.Of W) : Result W :=
  whenLegal (.rdSfls idx) s (readElement .sfl s.nsfl.toNat idx (s.sflAt idx).sym.toNat s)

/-- RD.SFLP idx (R131), for every weight arithmetic. -/
def execRdSflpWith [Inhabited W] (wa : WArith W) (idx : Nat) (s : State.Of W) : Result W :=
  whenLegal (.rdSflp idx) s (readElement .sfl s.nsfl.toNat idx (wa.wbits (s.sflAt idx).prob).toNat s)

/-- RD.SFLP idx (R131, R122). -/
def execRdSflp (idx : Nat) (s : State) : Result := execRdSflpWith binary64 idx s

end Sys2Proof.Machine
end

