-- ==== Sys2Proof/Machine/StreamDecoder.lean ====
section
/-! DEFINITION. BitUnpacker and Decoder: DEC.RUN (spec 45_decoder.md R220 to R228). -/

namespace Sys2Proof.Machine

variable {W : Type}

/-- `S`: the bytes as one bit string, most significant bit first (R222, R223). -/
def streamBits (bytes : List Byte) : BitString := bytes.flatMap bitsOf

/-- `disc` (R222, R223): one more than the position of the first 1 among the first 8 bits, 8 when there is none. -/
def discarded (bits : BitString) : Nat :=
  match (bits.take 8).findIdx? id with
  | some i => i + 1
  | none => 8

/-- How the walk of DEC.RUN ends, with the bytes written to OB so far (R222). -/
inductive WalkEnd where
  | done (out : List Byte) (cur : BitVec 9)
  | corrupt (out : List Byte) (p : Nat)
  | full (out : List Byte) (p : Nat)
  | noRoot
  deriving DecidableEq, Repr

/-- The walk (R222, R224): one move for each payload bit, the leaf test after the move (R224), "descend past a leaf" before it (R225).
`p` is the position of the first bit in the payload, `out` what is written so far. A pointer that is NIL names no node; it can only be
the root of a state without a tree, and is the model's own stop (log entry 5). -/
def walk [Inhabited W] (node : Memory (Node.Of W)) (root : BitVec 9) (obcap : Nat) :
    BitString → Nat → BitVec 9 → List Byte → WalkEnd
  | [], _, cur, out => .done out cur
  | b :: bits, p, cur, out =>
    if cur = Config.nil then .noRoot
    else if (Memory.read unlistedNode node cur.toNat).leaf then .corrupt out p
    else
      let nxt := if b then (Memory.read unlistedNode node cur.toNat).right
        else (Memory.read unlistedNode node cur.toNat).left
      if nxt = Config.nil then .corrupt out p
      else if (Memory.read unlistedNode node nxt.toNat).leaf then
        if out.length = obcap then .full out p
        else walk node root obcap bits (p + 1) root (out ++ [(Memory.read unlistedNode node nxt.toNat).sym])
      else walk node root obcap bits (p + 1) nxt out

/-- The state with the decoded bytes in OB from index 0, and OLEN, NBITS, PAD and MID cleared (R222). -/
def State.Of.withDecoded (s : State.Of W) (out : List Byte) : State.Of W :=
  { s with
    ob := Memory.writeFrom unlistedByte s.ob 0 out
    olen := 0#25
    nbits := 0#32
    pad := 0#4
    mid := false }

/-- The state after a successful walk (R222). -/
def State.Of.decoded (s : State.Of W) (out : List Byte) (payloadLength disc : Nat) (cur : BitVec 9) : State.Of W :=
  { s.withDecoded out with
    olen := BitVec.ofNat 25 out.length
    nbits := BitVec.ofNat 32 payloadLength
    pad := BitVec.ofNat 4 disc
    mid := midFlag cur s.root }

/-- DEC.RUN (R222). -/
def execDecRun [Inhabited W] (s : State.Of W) : Result W :=
  whenLegal .decRun s <|
    if s.ilen.toNat = 0 then raise .malformedBitstring 0 (s.withDecoded [])
    else
      withElements .ib s.ilen.toNat s <|
        let bits := streamBits s.ibBytes
        let disc := discarded bits
        let payload := bits.drop disc
        match walk s.node s.root s.obcap.toNat payload 0 s.root [] with
        | .done out cur => respond (s.decoded out payload.length disc cur).olen.toNat (s.decoded out payload.length disc cur)
        | .corrupt out p => raise .corruptStream p (s.withDecoded out)
        | .full out p => raise .capacity p (s.withDecoded out)
        | .noRoot => .fault (.noSuchElement .node s.root.toNat)

end Sys2Proof.Machine
end

