-- ==== Sys2Proof/Machine/SystemBuffer.lean ====
section
/-! DEFINITION. The system and buffer commands (spec 40_system_buffer.md R101 to R107). -/

namespace Sys2Proof.Machine

variable {W : Type}

/-- NOP (R101). -/
def execNop (s : State.Of W) : Result W := whenLegal .nop s (respond 0 s)

/-- CLR (R102): every register and memory gets its reset value. -/
def execClr (s : State.Of W) : Result W := whenLegal .clr s (respond 0 s.cleared)

/-- IB.CLR (R103): `ILEN <- 0` and nothing else; the bytes stay. -/
def execIbClr (s : State.Of W) : Result W := whenLegal .ibClr s (respond 0 { s with ilen := 0#25 })

/-- The state after a byte is appended to IB (R104). -/
def State.Of.pushed (s : State.Of W) (b : Byte) : State.Of W :=
  { s with
    ib := Memory.write unlistedByte s.ib s.ilen.toNat b
    ilen := BitVec.ofNat 25 (s.ilen.toNat + 1) }

/-- IB.PUSH b (R104). The room check is `IBCAP <= ILEN`: for ILEN in its range (R22) it is R104's `ILEN = IBCAP` (log entry 6). -/
def execIbPush (b : Byte) (s : State.Of W) : Result W :=
  whenLegal (.ibPush b) s <|
    if s.ibcap.toNat ≤ s.ilen.toNat then reject .bufferFull s
    else respond (s.pushed b).ilen.toNat (s.pushed b)

/-- IB.RD idx (R105). -/
def execIbRd (idx : Nat) (s : State.Of W) : Result W :=
  whenLegal (.ibRd idx) s (readElement .ib s.ilen.toNat idx (s.ibAt idx).toNat s)

/-- OB.RD idx (R106). -/
def execObRd (idx : Nat) (s : State.Of W) : Result W :=
  whenLegal (.obRd idx) s (readElement .ob s.olen.toNat idx (s.obAt idx).toNat s)

/-- RD.REG r (R107). -/
def execRdReg (r : Nat) (s : State.Of W) : Result W :=
  whenLegal (.rdReg r) s <|
    match readReg s r with
    | some v => respond v s
    | none => reject .rangeError s

end Sys2Proof.Machine
end

