-- ==== Sys2Proof/Machine/TreeBuilder.lean ====
section
/-! DEFINITION. TreeBuilder: TB.RUN, RD.NK, RD.NW, RD.NL, RD.NR (spec 42_tree_builder.md R150 to R160). -/

namespace Sys2Proof.Machine

variable {W : Type}

/-- What the merge loop works on: the node memory and the two queues as index ranges (R150). -/
structure TreeQueues (W : Type) where
  node : Memory (Node.Of W)
  srch : Nat
  tgth : Nat
  tgtt : Nat
  deriving DecidableEq, Repr

/-- NODE[i] of the loop's node memory. -/
def TreeQueues.at [Inhabited W] (q : TreeQueues W) (i : Nat) : Node.Of W := Memory.read unlistedNode q.node i

/-- The leaf made from a list entry (R151). -/
def leafOf (e : Entry.Of W) : Node.Of W := ⟨true, e.sym, e.prob, Config.nil, Config.nil⟩

/-- The queues before the loop (R151): `source` holds the `n` leaves, `target` is empty. -/
def loadLeaves [Inhabited W] [DecidableEq W] (node : Memory (Node.Of W)) (entries : List (Entry.Of W)) : TreeQueues W where
  node := Memory.writeFrom unlistedNode node 0 (entries.map leafOf)
  srch := 0
  tgth := entries.length
  tgtt := entries.length

/-- `popmin()` (R151, R152): the node taken and the queues after it; `none` when both queues are empty (R155). `n` is NSFL, the end of
`source`. -/
def popMin [Inhabited W] (wa : WArith W) (n : Nat) (q : TreeQueues W) : Option (Nat × TreeQueues W) :=
  if q.srch < n then
    if q.tgth < q.tgtt then
      if wa.wlt (q.at q.tgth).w (q.at q.srch).w then some (q.tgth, { q with tgth := q.tgth + 1 })
      else some (q.srch, { q with srch := q.srch + 1 })
    else some (q.srch, { q with srch := q.srch + 1 })
  else if q.tgth < q.tgtt then some (q.tgth, { q with tgth := q.tgth + 1 })
  else none

/-- The internal node over two nodes, the first taken on the left (R153). -/
def internalOf [Inhabited W] (wa : WArith W) (q : TreeQueues W) (a b : Nat) : Node.Of W :=
  ⟨false, 0#8, wa.wadd (q.at a).w (q.at b).w, BitVec.ofNat 9 a, BitVec.ofNat 9 b⟩

/-- Pushes the internal node over `a` and `b` onto the back of `target` (R153). -/
def pushInternal [Inhabited W] [DecidableEq W] (wa : WArith W) (q : TreeQueues W) (a b : Nat) : TreeQueues W :=
  { q with node := Memory.write unlistedNode q.node q.tgtt (internalOf wa q a b), tgtt := q.tgtt + 1 }

/-- One iteration of the loop (R151). `error` holds the queues as a failing `popmin()` left them (R155). -/
def mergeOnce [Inhabited W] [DecidableEq W] (wa : WArith W) (n : Nat) (q : TreeQueues W) : Except (TreeQueues W) (TreeQueues W) :=
  match popMin wa n q with
  | none => .error q
  | some (a, q1) =>
    match popMin wa n q1 with
    | none => .error q1
    | some (b, q2) => .ok (pushInternal wa q2 a b)

/-- The loop condition: "source is non-empty or target has more than one element" (R151). -/
def moreToMerge (n : Nat) (q : TreeQueues W) : Bool := q.srch < n || 1 < q.tgtt - q.tgth

/-- The loop (R151). Each iteration leaves one node fewer in the queues, so `n` iterations are always enough (R154). -/
def mergeLoop [Inhabited W] [DecidableEq W] (wa : WArith W) (n : Nat) : Nat → TreeQueues W → Except (TreeQueues W) (TreeQueues W)
  | 0, q => .ok q
  | fuel + 1, q =>
    if moreToMerge n q then
      match mergeOnce wa n q with
      | .error e => .error e
      | .ok q' => mergeLoop wa n fuel q'
    else .ok q

/-- The loop and the test after it (R151, R155). -/
def mergeAll [Inhabited W] [DecidableEq W] (wa : WArith W) (n : Nat) (q : TreeQueues W) : Except (TreeQueues W) (TreeQueues W) :=
  match mergeLoop wa n n q with
  | .error e => .error e
  | .ok q' => if q'.tgtt - q'.tgth = 1 then .ok q' else .error q'

/-- The state with the loop's node memory and queue pointers, and the code table cleared (R151). -/
def State.Of.withQueues (s : State.Of W) (q : TreeQueues W) : State.Of W :=
  { s with
    code := []
    node := q.node
    srch := BitVec.ofNat 9 q.srch
    tgth := BitVec.ofNat 10 q.tgth
    tgtt := BitVec.ofNat 10 q.tgtt }

/-- The state after a successful loop (R151, R154). NNODE and TGTT are set together and incremented together, so NNODE ends as TGTT. -/
def State.Of.treeBuilt (s : State.Of W) (q : TreeQueues W) : State.Of W :=
  { s.withQueues q with
    nnode := BitVec.ofNat 10 q.tgtt
    root := BitVec.ofNat 9 q.tgth
    phase := .treed }

/-- `fail()` before its `raise` (R151, R155): no nodes and no root; the queue pointers keep the values they had. -/
def State.Of.treeFailed (s : State.Of W) (q : TreeQueues W) : State.Of W :=
  { s.withQueues q with nnode := 0#10, root := Config.nil }

/-- TB.RUN (R151), for every weight arithmetic. -/
def execTbRunWith [Inhabited W] [DecidableEq W] (wa : WArith W) (s : State.Of W) : Result W :=
  whenLegal .tbRun s <|
    withElements .sfl s.nsfl.toNat s <|
      match mergeAll wa s.nsfl.toNat (loadLeaves s.node s.sflList) with
      | .ok q => respond (s.treeBuilt q).root.toNat (s.treeBuilt q)
      | .error q => raise .invalidTreeState 0 (s.treeFailed q)

/-- TB.RUN (R151, R122). -/
def execTbRun (s : State) : Result := execTbRunWith binary64 s

/-- RD.NK idx (R157). -/
def execRdNk [Inhabited W] (idx : Nat) (s : State.Of W) : Result W :=
  whenLegal (.rdNk idx) s <|
    readElement .node s.nnode.toNat idx (flagBit (s.nodeAt idx).leaf * 256 + (s.nodeAt idx).sym.toNat) s

/-- RD.NW idx (R158), for every weight arithmetic. -/
def execRdNwWith [Inhabited W] (wa : WArith W) (idx : Nat) (s : State.Of W) : Result W :=
  whenLegal (.rdNw idx) s (readElement .node s.nnode.toNat idx (wa.wbits (s.nodeAt idx).w).toNat s)

/-- RD.NW idx (R158, R122). -/
def execRdNw (idx : Nat) (s : State) : Result := execRdNwWith binary64 idx s

/-- RD.NL idx (R159). -/
def execRdNl [Inhabited W] (idx : Nat) (s : State.Of W) : Result W :=
  whenLegal (.rdNl idx) s (readElement .node s.nnode.toNat idx (s.nodeAt idx).left.toNat s)

/-- RD.NR idx (R160). -/
def execRdNr [Inhabited W] (idx : Nat) (s : State.Of W) : Result W :=
  whenLegal (.rdNr idx) s (readElement .node s.nnode.toNat idx (s.nodeAt idx).right.toNat s)

end Sys2Proof.Machine
end

