-- ==== Sys2Proof/Machine/Dispatch.lean ====
section
/-! DEFINITION. One arm for each command (spec 30_encoding.md R71). -/

namespace Sys2Proof.Machine

def exec (i : Instr) (s : State) : Host.Outcome State Fault Refusal :=
  match i with
  | .nop => Sys2Proof.Machine.execNop s
  | .clr => Sys2Proof.Machine.execClr s
  | .ibClr => Sys2Proof.Machine.execIbClr s
  | .ibPush b => Sys2Proof.Machine.execIbPush b s
  | .ibRd idx => Sys2Proof.Machine.execIbRd idx s
  | .obRd idx => Sys2Proof.Machine.execObRd idx s
  | .faRun => Sys2Proof.Machine.execFaRun s
  | .tbRun => Sys2Proof.Machine.execTbRun s
  | .cgRun => Sys2Proof.Machine.execCgRun s
  | .bpRun => Sys2Proof.Machine.execBpRun s
  | .decRun => Sys2Proof.Machine.execDecRun s
  | .rdReg r => Sys2Proof.Machine.execRdReg r s
  | .rdCnt sym => Sys2Proof.Machine.execRdCnt sym s
  | .rdSfls idx => Sys2Proof.Machine.execRdSfls idx s
  | .rdSflp idx => Sys2Proof.Machine.execRdSflp idx s
  | .rdNk idx => Sys2Proof.Machine.execRdNk idx s
  | .rdNw idx => Sys2Proof.Machine.execRdNw idx s
  | .rdNl idx => Sys2Proof.Machine.execRdNl idx s
  | .rdNr idx => Sys2Proof.Machine.execRdNr idx s
  | .rdClen sym => Sys2Proof.Machine.execRdClen sym s
  | .rdCbits sym k => Sys2Proof.Machine.execRdCbits sym k s

end Sys2Proof.Machine
end

