-- ==== Sys2Proof/WellFormed.lean ====
section
/-! DEFINITION. Which commands a command word can hold (spec 30_encoding.md R70, R76): the bounds of the operand fields. -/

namespace Sys2Proof

/-- The operand fits format X: `imm[23:0]` (R70). -/
def fitsIndex (idx : Nat) : Bool := idx < 2 ^ 24

/-- The operand fits format B: `imm[7:0]` (R70). -/
def fitsByte (r : Nat) : Bool := r < 2 ^ 8

/-- The chunk number fits format C: `imm[9:8]` (R70). -/
def fitsChunk (k : Nat) : Bool := k < 2 ^ 2

/-- Every operand fits its field. A symbol or a pushed byte always does, by its type. -/
def Instr.wellFormed : Instr → Bool
  | .nop => true
  | .clr => true
  | .ibClr => true
  | .ibPush _ => true
  | .ibRd idx => fitsIndex idx
  | .obRd idx => fitsIndex idx
  | .faRun => true
  | .tbRun => true
  | .cgRun => true
  | .bpRun => true
  | .decRun => true
  | .rdReg r => fitsByte r
  | .rdCnt _ => true
  | .rdSfls idx => fitsIndex idx
  | .rdSflp idx => fitsIndex idx
  | .rdNk idx => fitsIndex idx
  | .rdNw idx => fitsIndex idx
  | .rdNl idx => fitsIndex idx
  | .rdNr idx => fitsIndex idx
  | .rdClen _ => true
  | .rdCbits _ k => fitsChunk k

end Sys2Proof
end

