-- ==== Sys2Proof/Decode.lean ====
section
/-! DEFINITION. From a command word to a command and back (spec 30_encoding.md R70, R71, R76, R80, R81 checks 1 and 2). The decoder
is total on all 2^32 words; it never looks past the reserved bits. -/

namespace Sys2Proof

/-- Why a word is no command. Both answer IllegalCommand (R80), in the order of R81. -/
inductive IllegalWord where
  /-- R81 check 1: the opcode is not one of the 21 of R71. -/
  | undefinedOpcode (op : Nat)
  /-- R81 check 2: a "must be 0" bit of R70 is 1. -/
  | reservedBits (op imm : Nat)
  deriving DecidableEq, Repr

/-- `op = CMD[31:24]` (R70). -/
def opField (w : Word) : Nat := (w.extractLsb' 24 8).toNat

/-- `imm = CMD[23:0]` (R70). -/
def immField (w : Word) : Nat := (w.extractLsb' 0 24).toNat

/-- Format N: all of imm must be 0 (R70). -/
def formatN (op imm : Nat) (i : Instr) : Except IllegalWord Instr :=
  if imm = 0 then .ok i else .error (.reservedBits op imm)

/-- Format B: `imm[23:8]` must be 0, the operand is `imm[7:0]` (R70, R76). -/
def formatB (op imm : Nat) (f : Nat → Instr) : Except IllegalWord Instr :=
  if imm / 2 ^ 8 = 0 then .ok (f (imm % 2 ^ 8)) else .error (.reservedBits op imm)

/-- Format C: `imm[23:10]` must be 0, the operands are `s = imm[7:0]` and `k = imm[9:8]` (R70, R76). -/
def formatC (op imm : Nat) (f : Nat → Nat → Instr) : Except IllegalWord Instr :=
  if imm / 2 ^ 10 = 0 then .ok (f (imm % 2 ^ 8) (imm / 2 ^ 8 % 2 ^ 2)) else .error (.reservedBits op imm)

/-- The opcode map (R71). -/
def decodeFields (op imm : Nat) : Except IllegalWord Instr :=
  match op with
  | 0x00 => formatN op imm .nop
  | 0x01 => formatN op imm .clr
  | 0x10 => formatN op imm .ibClr
  | 0x11 => formatB op imm (fun b => .ibPush (BitVec.ofNat 8 b))
  | 0x12 => .ok (.ibRd imm)
  | 0x13 => .ok (.obRd imm)
  | 0x20 => formatN op imm .faRun
  | 0x21 => formatN op imm .tbRun
  | 0x22 => formatN op imm .cgRun
  | 0x23 => formatN op imm .bpRun
  | 0x24 => formatN op imm .decRun
  | 0x30 => formatB op imm .rdReg
  | 0x31 => formatB op imm (fun s => .rdCnt (BitVec.ofNat 8 s))
  | 0x32 => .ok (.rdSfls imm)
  | 0x33 => .ok (.rdSflp imm)
  | 0x34 => .ok (.rdNk imm)
  | 0x35 => .ok (.rdNw imm)
  | 0x36 => .ok (.rdNl imm)
  | 0x37 => .ok (.rdNr imm)
  | 0x38 => formatB op imm (fun s => .rdClen (BitVec.ofNat 8 s))
  | 0x39 => formatC op imm (fun s k => .rdCbits (BitVec.ofNat 8 s) k)
  | _ => .error (.undefinedOpcode op)

/-- The decoder, on every command word (R80: total on all 2^32 words). -/
def decode (w : Word) : Except IllegalWord Instr :=
  decodeFields (opField w) (immField w)

/-- The opcode of a command (R71). -/
def opcodeOf : Instr → Nat
  | .nop => 0x00
  | .clr => 0x01
  | .ibClr => 0x10
  | .ibPush _ => 0x11
  | .ibRd _ => 0x12
  | .obRd _ => 0x13
  | .faRun => 0x20
  | .tbRun => 0x21
  | .cgRun => 0x22
  | .bpRun => 0x23
  | .decRun => 0x24
  | .rdReg _ => 0x30
  | .rdCnt _ => 0x31
  | .rdSfls _ => 0x32
  | .rdSflp _ => 0x33
  | .rdNk _ => 0x34
  | .rdNw _ => 0x35
  | .rdNl _ => 0x36
  | .rdNr _ => 0x37
  | .rdClen _ => 0x38
  | .rdCbits _ _ => 0x39

/-- The operand field of a command (R70, R71: for format C it is `k * 256 + s`). -/
def operandOf : Instr → Nat
  | .nop => 0
  | .clr => 0
  | .ibClr => 0
  | .ibPush b => b.toNat
  | .ibRd idx => idx
  | .obRd idx => idx
  | .faRun => 0
  | .tbRun => 0
  | .cgRun => 0
  | .bpRun => 0
  | .decRun => 0
  | .rdReg r => r
  | .rdCnt s => s.toNat
  | .rdSfls idx => idx
  | .rdSflp idx => idx
  | .rdNk idx => idx
  | .rdNw idx => idx
  | .rdNl idx => idx
  | .rdNr idx => idx
  | .rdClen s => s.toNat
  | .rdCbits s k => k * 256 + s.toNat

/-- The encoder: the opcode in `CMD[31:24]`, the operand field in `CMD[23:0]` (R70), so "The word for a command is
`op * 2^24 + imm`" (R71). -/
def encode (i : Instr) : Word := BitVec.ofNat 8 (opcodeOf i) ++ BitVec.ofNat 24 (operandOf i)

/-- The command that the decoder reads from an opcode-table word of `nbits` bits. A command word is one 32-bit word on the port, so
its bits are the table's bits as they stand; a word with a bit above bit 31 is no command word. -/
def decodeTableWord (nbits w : Nat) : Option Instr :=
  if w % 2 ^ nbits < 2 ^ 32 then
    match decode (BitVec.ofNat 32 (w % 2 ^ nbits)) with
    | .ok i => some i
    | .error _ => none
  else none

end Sys2Proof
end

