-- ==== Sys2Proof/Machine/Parametric.lean ====
section
/-! DEFINITION. The machine with the parameter WARITH as an argument (spec 00_scope.md R8, 10_state.md R39): `execWith` is the meaning
of every command for every weight arithmetic, over every type of weights, and `stepWith` is the step. The capacities IBCAP and OBCAP,
the other two arguments of R39, are the constant registers of the state. This hardware, `exec` and `step`, is the instance
`binary64` (R122). -/

namespace Sys2Proof.Machine

variable {W : Type}

/-- A command under a weight arithmetic. Four commands use the arithmetic: FA.RUN, TB.RUN, RD.SFLP and RD.NW. -/
def execWith [Inhabited W] [DecidableEq W] (wa : WArith W) (i : Instr) (s : State.Of W) : Result W :=
  match i with
  | .nop => execNop s
  | .clr => execClr s
  | .ibClr => execIbClr s
  | .ibPush b => execIbPush b s
  | .ibRd idx => execIbRd idx s
  | .obRd idx => execObRd idx s
  | .faRun => execFaRunWith wa s
  | .tbRun => execTbRunWith wa s
  | .cgRun => execCgRun s
  | .bpRun => execBpRun s
  | .decRun => execDecRun s
  | .rdReg r => execRdReg r s
  | .rdCnt sym => execRdCnt sym s
  | .rdSfls idx => execRdSfls idx s
  | .rdSflp idx => execRdSflpWith wa idx s
  | .rdNk idx => execRdNk idx s
  | .rdNw idx => execRdNwWith wa idx s
  | .rdNl idx => execRdNl idx s
  | .rdNr idx => execRdNr idx s
  | .rdClen sym => execRdClen sym s
  | .rdCbits sym k => execRdCbits sym k s

/-- One step of a core that runs its commands with `run`: the core takes one input from the command port (20_memory.md R60). A command
word is decoded and executed, or rejected as illegal (30_encoding.md R80, R81); the reset input resets (R280); with no input the core
waits. -/
def stepBy (run : Instr → State.Of W → Result W) (s : State.Of W) : Result W :=
  match fetch s with
  | none => wait s
  | some (.reset, s') => resetInput s'
  | some (.command w, s') =>
    match decode w with
    | .ok i => run i s'
    | .error _ => illegalCommand s'

/-- One step under a weight arithmetic. -/
def stepWith [Inhabited W] [DecidableEq W] (wa : WArith W) (s : State.Of W) : Result W := stepBy (execWith wa) s

end Sys2Proof.Machine
end

