-- ==== Sys2Proof/Machine/Step.lean ====
section
/-! DEFINITION. One step of this hardware (spec 20_memory.md R60), and a word of the opcode table put where the step takes its command
from. -/

namespace Sys2Proof.Machine

/-- One input taken from the command port, with the meanings of this hardware. -/
def step (s : State) : Host.Outcome State Fault Refusal := stepBy exec s

/-- The state with the command word of an opcode-table row put on the command port, in front of whatever the host would do next. -/
def State.withFetchWord (s : State) (nbits w : Nat) : State :=
  { s with port := .command (BitVec.ofNat 32 (w % 2 ^ nbits)) :: s.port }

end Sys2Proof.Machine
end

