-- ==== Sys2Proof/Safety.lean ====
section
/-! DEFINITION. What the statements speak of: the kinds of response, the table of 30_encoding.md R82 read as the phases that reject,
the reset values (R40), the invariants of a state that commands reach from reset (R22, R36, R41), paths in the tree, runs of
commands, and the laws of a weight arithmetic (R123). -/

namespace Sys2Proof.Machine

variable {W : Type}

/-! ### Responses (30_encoding.md R77, R78) -/

/-- The last response is OK. -/
def State.Of.answeredOk (t : State.Of W) : Bool :=
  match t.rsp with
  | some r => r.code == 0x00#8
  | none => false

/-- The last response is a fault, code 0x01 to 0x06 (R251). -/
def State.Of.answeredFault (t : State.Of W) : Bool :=
  match t.rsp with
  | some r => 0x01 ≤ r.code.toNat && r.code.toNat ≤ 0x06
  | none => false

/-- The last response is a rejection, code 0x80 to 0x83 (R259). -/
def State.Of.answeredRejection (t : State.Of W) : Bool :=
  match t.rsp with
  | some r => 0x80 ≤ r.code.toNat && r.code.toNat ≤ 0x83
  | none => false

/-! ### The tables of 30_encoding.md, written from the rejecting side -/

/-- The phases in whose column the row of the command says "Seq" (R82). -/
def sequenceErrorPhases : Instr → List Phase
  | .nop => []
  | .clr => []
  | .ibClr => [.fault]
  | .ibPush _ => [.fault]
  | .ibRd _ => []
  | .obRd _ => []
  | .faRun => [.fault]
  | .tbRun => [.idle, .fault]
  | .cgRun => [.idle, .listed, .fault]
  | .bpRun => [.idle, .listed, .treed, .fault]
  | .decRun => [.idle, .listed, .fault]
  | .rdReg _ => []
  | .rdCnt _ => []
  | .rdSfls _ => []
  | .rdSflp _ => []
  | .rdNk _ => []
  | .rdNw _ => []
  | .rdNl _ => []
  | .rdNr _ => []
  | .rdClen _ => []
  | .rdCbits _ _ => []

/-- The opcodes of format N (R70, R71). -/
def opcodesN : List Nat := [0x00, 0x01, 0x10, 0x20, 0x21, 0x22, 0x23, 0x24]
/-- The opcodes of format B (R70, R71). -/
def opcodesB : List Nat := [0x11, 0x30, 0x31, 0x38]
/-- The opcodes of format X (R70, R71). -/
def opcodesX : List Nat := [0x12, 0x13, 0x32, 0x33, 0x34, 0x35, 0x36, 0x37]
/-- The opcode of format C (R70, R71). -/
def opcodesC : List Nat := [0x39]

/-- The illegal words (R80): the opcode is none of the 21, or a "must be 0" bit of its format is 1. -/
def illegalWord (w : Word) : Bool :=
  let op := w.toNat / 2 ^ 24
  let imm := w.toNat % 2 ^ 24
  !(opcodesN ++ opcodesB ++ opcodesX ++ opcodesC).contains op
    || (opcodesN.contains op && imm != 0)
    || (opcodesB.contains op && imm / 2 ^ 8 != 0)
    || (opcodesC.contains op && imm / 2 ^ 10 != 0)

/-- The read commands: RD.* and IB.RD, OB.RD (R55). -/
def isReadCommand : Instr → Bool
  | .nop => false
  | .clr => false
  | .ibClr => false
  | .ibPush _ => false
  | .ibRd _ => true
  | .obRd _ => true
  | .faRun => false
  | .tbRun => false
  | .cgRun => false
  | .bpRun => false
  | .decRun => false
  | .rdReg _ => true
  | .rdCnt _ => true
  | .rdSfls _ => true
  | .rdSflp _ => true
  | .rdNk _ => true
  | .rdNw _ => true
  | .rdNl _ => true
  | .rdNr _ => true
  | .rdClen _ => true
  | .rdCbits _ _ => true

/-! ### Reset and invariants -/

/-- Every register has its reset value, every count is 0, every code has length 0 (R22, R40). The two capacity registers hold the
parameters and are not part of this. -/
def State.Of.atReset (s : State.Of W) : Prop :=
  s.phase = .idle ∧ s.mid = false ∧ s.synth = false ∧ s.err = 0x00#8 ∧ s.errinfo = 0#32 ∧
  s.ilen = 0#25 ∧ s.olen = 0#25 ∧ s.total = 0#25 ∧ s.nsfl = 0#9 ∧ s.nnode = 0#10 ∧ s.root = 0x1FF#9 ∧
  s.nbits = 0#32 ∧ s.pad = 0#4 ∧ s.srch = 0#9 ∧ s.tgth = 0#10 ∧ s.tgtt = 0#10 ∧
  (∀ sym : Byte, s.cntAt sym = 0#25) ∧ (∀ sym : Byte, s.codeAt sym = [])

/-- Every memory is in its canonical form. -/
abbrev State.Of.canonical [Inhabited W] (s : State.Of W) : Prop :=
  Memory.wf unlistedByte (Space.size s .ib) s.ib ∧
  Memory.wf unlistedByte (Space.size s .ob) s.ob ∧
  Memory.wf unlistedCount (Space.size s .cnt) s.cnt ∧
  Memory.wf (unlistedEntry : Entry.Of W) (Space.size s .sfl) s.sfl ∧
  Memory.wf (unlistedNode : Node.Of W) (Space.size s .node) s.node ∧
  Memory.wf unlistedCode (Space.size s .code) s.code

/-- Every register is in the range of R22, and the two capacities are in the range of R8. -/
abbrev State.Of.inRange (s : State.Of W) : Prop :=
  (1 ≤ s.ibcap.toNat ∧ s.ibcap.toNat ≤ 2 ^ 24) ∧ (1 ≤ s.obcap.toNat ∧ s.obcap.toNat ≤ 2 ^ 24) ∧
  s.err.toNat ≤ 0x06 ∧
  s.ilen.toNat ≤ s.ibcap.toNat ∧ s.olen.toNat ≤ s.obcap.toNat ∧ s.total.toNat ≤ s.ibcap.toNat ∧
  (s.nsfl.toNat = 0 ∨ (2 ≤ s.nsfl.toNat ∧ s.nsfl.toNat ≤ 256)) ∧
  s.nnode.toNat ≤ 511 ∧
  (s.root = 0x1FF#9 ∨ (2 ≤ s.root.toNat ∧ s.root.toNat ≤ 510)) ∧
  s.nbits.toNat ≤ 2 ^ 27 - 1 ∧ s.pad.toNat ≤ 8 ∧
  s.srch.toNat ≤ 256 ∧ s.tgth.toNat ≤ 510 ∧ s.tgtt.toNat ≤ 511

/-- R127: entry `a` comes before entry `b`. -/
abbrev comesBefore (wa : WArith W) (a b : Entry.Of W) : Prop :=
  wa.wlt a.prob b.prob = true ∨ (wa.weq a.prob b.prob = true ∧ a.sym.toNat < b.sym.toNat)

/-- R41(a) without the order: the list has 2 to 256 entries with pairwise distinct symbols. -/
abbrev State.Of.listShape [Inhabited W] (s : State.Of W) : Prop :=
  2 ≤ s.nsfl.toNat ∧ s.nsfl.toNat ≤ 256 ∧ (s.sflList.map (·.sym)).Nodup

/-- R41(a): the list, its order, and TOTAL. -/
abbrev State.Of.listOk [Inhabited W] (wa : WArith W) (s : State.Of W) : Prop :=
  s.listShape ∧ s.sflList.Pairwise (comesBefore wa) ∧ 1 ≤ s.total.toNat

/-- How often an index occurs as a left or right field of a node of the tree (R36). -/
def State.Of.childCount [Inhabited W] (s : State.Of W) (j : Nat) : Nat :=
  (List.range s.nnode.toNat).countP (fun i => (s.nodeAt i).left.toNat == j) +
    (List.range s.nnode.toNat).countP (fun i => (s.nodeAt i).right.toNat == j)

/-- R36, R41(b), R156(b): NODE[i] is an internal node over two different nodes of smaller index, and weighs their sum. -/
abbrev State.Of.internalAt [Inhabited W] (wa : WArith W) (s : State.Of W) (i : Nat) : Prop :=
  (s.nodeAt i).leaf = false ∧ (s.nodeAt i).sym = 0#8 ∧
  (s.nodeAt i).left.toNat < i ∧ (s.nodeAt i).right.toNat < i ∧ (s.nodeAt i).left ≠ (s.nodeAt i).right ∧
  (s.nodeAt i).w = wa.wadd (s.nodeAt (s.nodeAt i).left.toNat).w (s.nodeAt (s.nodeAt i).right.toNat).w

/-- R41(b) and R36: NODE[0..NSFL-1] are the leaves of SFL, the rest up to ROOT = NNODE - 1 are internal, ROOT is the child of no node
and every other node is the child of exactly one. -/
abbrev State.Of.treeOk [Inhabited W] (wa : WArith W) (s : State.Of W) : Prop :=
  s.nnode.toNat = 2 * s.nsfl.toNat - 1 ∧ s.root.toNat + 1 = s.nnode.toNat ∧
  (∀ i < s.nsfl.toNat, s.nodeAt i = ⟨true, (s.sflAt i).sym, (s.sflAt i).prob, 0x1FF#9, 0x1FF#9⟩) ∧
  (∀ i < s.nnode.toNat, s.nsfl.toNat ≤ i → s.internalAt wa i) ∧
  (∀ j < s.nnode.toNat, s.childCount j = if j = s.root.toNat then 0 else 1)

/-- The node that the bits lead to from node `i`, 0 to the left and 1 to the right; none past a leaf or a missing child. -/
def State.Of.follow [Inhabited W] (s : State.Of W) : Nat → BitString → Option Nat
  | i, [] => some i
  | i, b :: bits =>
    if (s.nodeAt i).leaf then none
    else
      let nxt := if b then (s.nodeAt i).right else (s.nodeAt i).left
      if nxt = 0x1FF#9 then none else s.follow nxt.toNat bits

/-- The bits are the path from ROOT to a leaf with the symbol (R37, R182). -/
def State.Of.isPathOf [Inhabited W] (s : State.Of W) (bits : BitString) (sym : Byte) : Prop :=
  ∃ i, s.follow s.root.toNat bits = some i ∧ (s.nodeAt i).leaf = true ∧ (s.nodeAt i).sym = sym

/-- R41(c): the code of every leaf's symbol is the leaf's path from ROOT; every other symbol has no code. -/
abbrev State.Of.codesOk [Inhabited W] (s : State.Of W) : Prop :=
  (∀ i < s.nsfl.toNat, s.follow s.root.toNat (s.codeAt (s.sflAt i).sym) = some i) ∧
  (∀ sym : Byte, sym ∉ s.sflList.map (·.sym) → s.codeAt sym = [])

/-- No symbol has a code. -/
abbrev State.Of.noCodes (s : State.Of W) : Prop := ∀ sym : Byte, s.codeAt sym = []

/-- No tree, and the queue pointers of R30 before a TB.RUN. -/
abbrev State.Of.noTree (s : State.Of W) : Prop :=
  s.nnode = 0#10 ∧ s.root = 0x1FF#9 ∧ s.srch = 0#9 ∧ s.tgth = 0#10 ∧ s.tgtt = 0#10

/-- The queue pointers of R30 after a TB.RUN. -/
abbrev State.Of.queuesDone (s : State.Of W) : Prop :=
  s.srch.toNat = s.nsfl.toNat ∧ s.tgth.toNat = s.root.toNat ∧ s.tgtt.toNat = s.nnode.toNat

/-- R41(a) to (e), with R25 (ERR is nonzero exactly in FAULT) and R30 (the queue pointers). -/
abbrev State.Of.pipelineOk [Inhabited W] (wa : WArith W) (s : State.Of W) : Prop :=
  (s.phase = .idle → s.nsfl = 0#9 ∧ s.noTree ∧ s.noCodes) ∧
  (s.phase = .listed → s.listOk wa ∧ s.noTree ∧ s.noCodes) ∧
  (s.phase = .treed → s.listOk wa ∧ s.treeOk wa ∧ s.queuesDone ∧ s.noCodes) ∧
  (s.phase = .coded → s.listOk wa ∧ s.treeOk wa ∧ s.queuesDone ∧ s.codesOk) ∧
  (s.phase = .fault ↔ s.err ≠ 0x00#8) ∧ (s.err = 0x00#8 → s.errinfo = 0#32)

/-- The whole invariant, under a weight arithmetic; this hardware's is `s.inv binary64`. -/
abbrev State.Of.inv [Inhabited W] (wa : WArith W) (s : State.Of W) : Prop := s.canonical ∧ s.inRange ∧ s.pipelineOk wa

/-! ### Runs of commands -/

/-- The state after the commands, each of which must answer OK. -/
def runOk [Inhabited W] [DecidableEq W] (wa : WArith W) : List Instr → State.Of W → Option (State.Of W)
  | [], s => some s
  | i :: is, s =>
    match execWith wa i s with
    | .next t => if t.answeredOk then runOk wa is t else none
    | .fault _ => none
    | .refused _ => none

/-- `IB.LOAD` (30_encoding.md R87): IB.CLR, then IB.PUSH of each byte. -/
def loadCommands (bytes : List Byte) : List Instr := .ibClr :: bytes.map .ibPush

/-! ### The laws of a weight arithmetic (41_frequency_analyzer.md R123) -/

/-- L1 to L5 on the weights for which `valid` holds, the weights of a list among them. L4 and L5 are for totals up to 2^24 (R8). -/
structure WArith.Lawful (wa : WArith W) (valid : W → Prop) : Prop where
  /-- The zero weight is among the weights spoken of. -/
  valid_zero : valid wa.wzero
  /-- So is the weight of every count. -/
  valid_wdiv : ∀ c t, 1 ≤ c → c ≤ t → t ≤ 2 ^ 24 → valid (wa.wdiv c t)
  /-- L1, equality. -/
  weq_iff : ∀ a b, valid a → valid b → (wa.weq a b = true ↔ a = b)
  /-- L1, at least one of the three. -/
  total : ∀ a b, valid a → valid b → wa.wlt a b = true ∨ wa.weq a b = true ∨ wa.wlt b a = true
  /-- L1, at most one of the three. -/
  asymm : ∀ a b, valid a → valid b → wa.wlt a b = true → wa.weq a b = false ∧ wa.wlt b a = false
  /-- L1, transitivity. -/
  trans : ∀ a b c, valid a → valid b → valid c → wa.wlt a b = true → wa.wlt b c = true → wa.wlt a c = true
  /-- L2. -/
  mono : ∀ a1 a2 b1 b2, valid a1 → valid a2 → valid b1 → valid b2 → wa.wlt a2 a1 = false → wa.wlt b2 b1 = false →
    wa.wlt (wa.wadd a2 b2) (wa.wadd a1 b1) = false
  /-- L3. -/
  part : ∀ a b, valid a → valid b → wa.wlt (wa.wadd a b) a = false ∧ wa.wlt (wa.wadd a b) b = false
  /-- L4. -/
  strict : ∀ c1 c2 t, 1 ≤ c1 → c1 < c2 → c2 ≤ t → t ≤ 2 ^ 24 → wa.wlt (wa.wdiv c1 t) (wa.wdiv c2 t) = true
  /-- L5, below every probability. -/
  zero_lt : ∀ c t, 1 ≤ c → c ≤ t → t ≤ 2 ^ 24 → wa.wlt wa.wzero (wa.wdiv c t) = true
  /-- L5, nothing is smaller. -/
  not_lt_zero : ∀ a, valid a → wa.wlt a wa.wzero = false

/-- The weights on which binary64 is claimed lawful: not negative, finite, and so small that a sum of two is finite. They hold all the
values of R124, and subnormal patterns beyond them, to which R122 gives no meaning (log entry 4). -/
def smallWeight (a : Weight) : Prop := a.toNat < 0x7FE0000000000000

/-- `r` is RNE of the positive number `n / d`, counted in units of 2^-1074 (R122): with `2^u <= n/d < 2^(u+1)` (u = e + 1074 for R122's
e), it is `m` times `q = 2^(u-52)` for the whole number `m` nearest to `(n/d)/q`, the even one at a halfway point. -/
abbrev isRounded (n d : Nat) (r : Weight) : Prop :=
  ∀ u, 52 ≤ u → u ≤ 2097 → 2 ^ u * d ≤ n → n < 2 ^ (u + 1) * d →
    ∃ m, wval r = m * 2 ^ (u - 52) ∧
      2 * n ≤ 2 * m * (2 ^ (u - 52) * d) + 2 ^ (u - 52) * d ∧
      2 * m * (2 ^ (u - 52) * d) ≤ 2 * n + 2 ^ (u - 52) * d ∧
      (2 * n = 2 * m * (2 ^ (u - 52) * d) + 2 ^ (u - 52) * d ∨
        2 * m * (2 ^ (u - 52) * d) = 2 * n + 2 ^ (u - 52) * d → m % 2 = 0)

end Sys2Proof.Machine
end

