-- ==== Sys2Proof/Certificates/Slice0/Obligations.lean ====
section
/-! DEFINITION. The statements about HUFFCORE, each with the rule of spec/ it comes from. A response is written out as
`some ⟨code, data⟩` (30_encoding.md R77). A frame is written as an equality `t = { s with … }` that names every register and memory
the command may change; the changed memories are then given element by element. `W` and `wa` are the parameter
WARITH (00_scope.md R8), any type of weights and any functions over it; `exec` and `step` are this hardware, its instance `binary64`. -/

open Sys2Proof Sys2Proof.Machine

/-! ### Encoding (30_encoding.md) -/

/-- R70, R71, R76: every command survives its encoding, with every operand the encoding admits. -/
def Obligations.EncodeThenDecodeIsIdentity : Prop :=
  ∀ i : Instr, i.wellFormed = true → decode (encode i) = .ok i

/-- R70, R71, R80: a word that decodes is the one encoding of a well-formed command, so no bit of it is ignored. -/
def Obligations.DecodedWordIsItsEncoding : Prop :=
  ∀ (w : Word) (i : Instr), decode w = .ok i → i.wellFormed = true ∧ encode i = w

/-- R71 and the words of 95_test_vectors.md: one or two words of each family. -/
def Obligations.SpecWordsDecode : Prop :=
  decode 0x00000000#32 = .ok .nop ∧ decode 0x01000000#32 = .ok .clr ∧ decode 0x10000000#32 = .ok .ibClr ∧
  decode 0x11000061#32 = .ok (.ibPush 0x61#8) ∧ decode 0x12FFFFFF#32 = .ok (.ibRd 0xFFFFFF) ∧
  decode 0x13000001#32 = .ok (.obRd 1) ∧ decode 0x20000000#32 = .ok .faRun ∧ decode 0x21000000#32 = .ok .tbRun ∧
  decode 0x22000000#32 = .ok .cgRun ∧ decode 0x23000000#32 = .ok .bpRun ∧ decode 0x24000000#32 = .ok .decRun ∧
  decode 0x3000000A#32 = .ok (.rdReg 10) ∧ decode 0x32000001#32 = .ok (.rdSfls 1) ∧
  decode 0x36000002#32 = .ok (.rdNl 2) ∧ decode 0x38000061#32 = .ok (.rdClen 0x61#8) ∧
  decode 0x39000162#32 = .ok (.rdCbits 0x62#8 1)

/-- R80: exactly the illegal words have no command, and each is answered with IllegalCommand, changing nothing. -/
def Obligations.IllegalWordsAreRejected : Prop :=
  (∀ w : Word, illegalWord w = true ↔ ∃ e, decode w = .error e) ∧
  ∀ (s : State) (w : Word) (rest : List HostInput), s.port = .command w :: rest → illegalWord w = true →
    step s = .next { s with port := rest, rsp := some ⟨0x80#8, 0#64⟩ }

/-! ### The step (20_memory.md, 70_reset_and_hazards.md) -/

/-- R60, R70: with a command word first on the port, a step is the command's meaning on the state without that word. R8, R39: the same
of the machine that takes WARITH as an argument, and this hardware is its instance `binary64`. -/
def Obligations.StepExecutesDecodedCommand : Prop :=
  (∀ (s : State) (w : Word) (rest : List HostInput) (i : Instr), s.port = .command w :: rest → decode w = .ok i →
    step s = exec i { s with port := rest }) ∧
  (∀ (W : Type) [Inhabited W] [DecidableEq W] (wa : WArith W) (s : State.Of W) (w : Word) (rest : List HostInput) (i : Instr),
    s.port = .command w :: rest → decode w = .ok i → stepWith wa s = execWith wa i { s with port := rest }) ∧
  (∀ s : State, stepWith binary64 s = step s) ∧ ∀ (i : Instr) (s : State), execWith binary64 i s = exec i s

/-- R10: with nothing on the port, nothing changes (that the model's step then answers the same state is log entry 1). -/
def Obligations.StepWaitsWithoutInput : Prop :=
  ∀ s : State, s.port = [] → step s = .next s

/-- R280, R40: the reset input gives the reset state whatever the state was, keeps the two capacities, and has no response
(`rsp` is none: log entry 1). -/
def Obligations.ResetInputResets : Prop :=
  ∀ (s : State) (rest : List HostInput), s.port = .reset :: rest →
    ∃ t, step s = .next t ∧ t.atReset ∧ t.ibcap = s.ibcap ∧ t.obcap = s.obcap ∧ t.port = rest ∧ t.rsp = none

/-- R22, R40, R281: the registers, counts and code lengths after reset, and identically after CLR (R40), in every state. That
`State.reset` has the default capacities of R8 is log entry 3. -/
def Obligations.ResetAndClrGiveTheResetState : Prop :=
  State.reset.atReset ∧ State.reset.ibcap = 65536#25 ∧ State.reset.obcap = 524288#25 ∧
  ∀ s : State, ∃ t, exec .clr s = .next t ∧ t.atReset

/-! ### The checks (30_encoding.md R81, R82; 60_exceptions.md R259, R260) -/

/-- R82: SequenceError in exactly the phases where the table says "Seq", with nothing changed. -/
def Obligations.SequenceErrorExactlyInTheTable : Prop :=
  ∀ (i : Instr) (s : State),
    (s.phase ∈ sequenceErrorPhases i → exec i s = .next { s with rsp := some ⟨0x81#8, 0#64⟩ }) ∧
    (s.phase ∉ sequenceErrorPhases i → ∀ t d, exec i s = .next t → t.rsp ≠ some ⟨0x81#8, d⟩)

/-- R56, R259: an index operand outside the valid range is answered with RangeError, changing nothing. -/
def Obligations.IndexPastTheRangeIsRangeError : Prop :=
  ∀ (s : State) (idx : Nat),
    (s.ilen.toNat ≤ idx → exec (.ibRd idx) s = .next { s with rsp := some ⟨0x82#8, 0#64⟩ }) ∧
    (s.olen.toNat ≤ idx → exec (.obRd idx) s = .next { s with rsp := some ⟨0x82#8, 0#64⟩ }) ∧
    (16 < idx → exec (.rdReg idx) s = .next { s with rsp := some ⟨0x82#8, 0#64⟩ }) ∧
    (s.nsfl.toNat ≤ idx →
      exec (.rdSfls idx) s = .next { s with rsp := some ⟨0x82#8, 0#64⟩ } ∧
      exec (.rdSflp idx) s = .next { s with rsp := some ⟨0x82#8, 0#64⟩ }) ∧
    (s.nnode.toNat ≤ idx →
      exec (.rdNk idx) s = .next { s with rsp := some ⟨0x82#8, 0#64⟩ } ∧
      exec (.rdNw idx) s = .next { s with rsp := some ⟨0x82#8, 0#64⟩ } ∧
      exec (.rdNl idx) s = .next { s with rsp := some ⟨0x82#8, 0#64⟩ } ∧
      exec (.rdNr idx) s = .next { s with rsp := some ⟨0x82#8, 0#64⟩ })

/-- R56, R104: a push into a full buffer is answered with BufferFull, changing nothing. -/
def Obligations.PushIntoFullBufferIsBufferFull : Prop :=
  ∀ (s : State) (b : Byte), s.phase ≠ .fault → s.ilen = s.ibcap →
    exec (.ibPush b) s = .next { s with rsp := some ⟨0x83#8, 0#64⟩ }

/-- R260, R79: whatever command word is rejected, for whatever reason, the state after it is the state before it (less the word on the
port), but for the response, whose data is 0. The first clause says it of the step, illegal words included, the second of a command. -/
def Obligations.RejectedCommandChangesNothing : Prop :=
  (∀ (s t : State) (w : Word) (rest : List HostInput), s.port = .command w :: rest → step s = .next t →
    t.answeredRejection = true → t = { s with port := rest, rsp := t.rsp } ∧ ∃ code, t.rsp = some ⟨code, 0#64⟩) ∧
  ∀ (i : Instr) (s t : State), exec i s = .next t → t.answeredRejection = true →
    t = { s with rsp := t.rsp } ∧ ∃ code, t.rsp = some ⟨code, 0#64⟩

/-- R77, R78, R250: every command that is executed or rejected has one response, whose code is OK, a fault code or a rejection code. -/
def Obligations.EveryCommandHasOneOfTheElevenCodes : Prop :=
  ∀ (i : Instr) (s t : State), exec i s = .next t →
    ∃ r, t.rsp = some r ∧
      r.code ∈ [0x00#8, 0x01#8, 0x02#8, 0x03#8, 0x04#8, 0x05#8, 0x06#8, 0x80#8, 0x81#8, 0x82#8, 0x83#8]

/-! ### The whole machine -/

/-- R251, R262, R264, R79: a fault response comes from one of the four commands that can fault, each with its own codes, never out of
FAULT; the fault entry has recorded the code and the information value in ERR, ERRINFO and the response, cleared OLEN, NBITS, PAD and
MID, and set the phase. -/
def Obligations.FaultEntryRecordsAndClears : Prop :=
  ∀ (i : Instr) (s t : State) (r : Response), exec i s = .next t → t.rsp = some r → t.answeredFault = true →
    s.phase ≠ .fault ∧ t.phase = .fault ∧ t.err = r.code ∧ r.data = t.errinfo.setWidth 64 ∧
    t.olen = 0#25 ∧ t.nbits = 0#32 ∧ t.pad = 0#4 ∧ t.mid = false ∧
    (i = .faRun ∧ r.code = 0x01#8 ∧ r.data = 0#64 ∨
      i = .tbRun ∧ r.code = 0x02#8 ∧ r.data = 0#64 ∨
      i = .bpRun ∧ (r.code = 0x03#8 ∨ r.code = 0x06#8) ∨
      i = .decRun ∧ (r.code = 0x04#8 ∨ r.code = 0x05#8 ∧ r.data = 0#64 ∨ r.code = 0x06#8))

/-- R42: the phase after each command, and after a reset. -/
def Obligations.PhaseTransitions : Prop :=
  (∀ (i : Instr) (s t : State), exec i s = .next t →
    (i = .clr → t.phase = .idle) ∧
    (t.answeredFault = true → t.phase = .fault) ∧
    (t.answeredRejection = true → t.phase = s.phase) ∧
    (t.answeredOk = true →
      (i = .faRun → t.phase = .listed ∧ s.phase ∈ [.idle, .listed, .treed, .coded]) ∧
      (i = .tbRun → t.phase = .treed ∧ s.phase ∈ [.listed, .treed, .coded]) ∧
      (i = .cgRun → t.phase = .coded ∧ s.phase ∈ [.treed, .coded]) ∧
      (i ∉ [.clr, .faRun, .tbRun, .cgRun] → t.phase = s.phase)) ∧
    (s.phase = .fault → t.phase ≠ .fault → i = .clr)) ∧
  ∀ (s t : State) (rest : List HostInput), s.port = .reset :: rest → step s = .next t → t.phase = .idle

/-- R263, R264: in FAULT every command but CLR leaves every register and memory as it is, and CLR always completes. -/
def Obligations.OnlyClrChangesAFaultedCore : Prop :=
  ∀ s : State, s.phase = .fault →
    (∀ (i : Instr) (t : State), i ≠ .clr → exec i s = .next t → t = { s with rsp := t.rsp }) ∧
    (∃ t, exec .clr s = .next t ∧ t.phase = .idle ∧ t.err = 0#8 ∧ t.errinfo = 0#32 ∧ t.ilen = 0#25)

/-- R55: a read command changes no register and no memory. -/
def Obligations.ReadCommandsHaveNoSideEffect : Prop :=
  ∀ (i : Instr) (s t : State), isReadCommand i = true → exec i s = .next t → t = { s with rsp := t.rsp }

/-- R31: the two capacity registers read back the parameters and no step changes them, a command's or a reset's. -/
def Obligations.CapacitiesNeverChange : Prop :=
  (∀ s t : State, step s = .next t → t.ibcap = s.ibcap ∧ t.obcap = s.obcap) ∧
  ∀ s : State,
    exec (.rdReg 15) s = .next { s with rsp := some ⟨0x00#8, s.ibcap.setWidth 64⟩ } ∧
    exec (.rdReg 16) s = .next { s with rsp := some ⟨0x00#8, s.obcap.setWidth 64⟩ }

/-- R32 to R37, the columns "host write" and "read or written by" of R50: which commands may change each memory.
That CLR changes IB, OB, SFL and NODE too is log entry 2. -/
def Obligations.MemoriesChangeOnlyByTheirCommands : Prop :=
  ∀ (i : Instr) (s t : State), exec i s = .next t →
    (t.ib ≠ s.ib → i = .clr ∨ ∃ b, i = .ibPush b) ∧
    (t.ob ≠ s.ob → i ∈ [.clr, .bpRun, .decRun]) ∧
    (t.cnt ≠ s.cnt → i ∈ [.clr, .faRun]) ∧
    (t.sfl ≠ s.sfl → i ∈ [.clr, .faRun]) ∧
    (t.node ≠ s.node → i ∈ [.clr, .tbRun]) ∧
    (t.code ≠ s.code → i ∈ [.clr, .faRun, .tbRun, .cgRun])

/-- The column "written by" of R22, and R24 for the flags: which commands may change each register. -/
def Obligations.RegistersChangeOnlyByTheirCommands : Prop :=
  ∀ (i : Instr) (s t : State), exec i s = .next t →
    (t.err ≠ s.err ∨ t.errinfo ≠ s.errinfo → i = .clr ∨ t.answeredFault = true) ∧
    (t.ilen ≠ s.ilen → i = .clr ∨ i = .ibClr ∨ ∃ b, i = .ibPush b) ∧
    (t.olen ≠ s.olen ∨ t.nbits ≠ s.nbits ∨ t.pad ≠ s.pad → i ∈ [.clr, .bpRun, .decRun] ∨ t.answeredFault = true) ∧
    (t.total ≠ s.total ∨ t.nsfl ≠ s.nsfl ∨ t.synth ≠ s.synth → i ∈ [.clr, .faRun]) ∧
    (t.nnode ≠ s.nnode ∨ t.root ≠ s.root ∨ t.srch ≠ s.srch ∨ t.tgth ≠ s.tgth ∨ t.tgtt ≠ s.tgtt →
      i ∈ [.clr, .faRun, .tbRun]) ∧
    (t.mid ≠ s.mid → i ∈ [.clr, .decRun] ∨ t.answeredFault = true) ∧
    t.ibcap = s.ibcap ∧ t.obcap = s.obcap ∧ t.port = s.port

/-! ### Invariants -/

/-- Every step keeps the canonical form (the model's own, log entry 2) of all six memories, under this
hardware's weight arithmetic and every other. -/
def Obligations.StepKeepsMemoriesCanonical : Prop :=
  (∀ s t : State, s.canonical → step s = .next t → t.canonical) ∧
  ∀ (W : Type) [Inhabited W] [DecidableEq W] (wa : WArith W) (s t : State.Of W),
    s.canonical → stepWith wa s = .next t → t.canonical

/-- R22: every step keeps every register in its range, under this hardware's weight arithmetic and every other. -/
def Obligations.StepKeepsRegistersInRange : Prop :=
  (∀ s t : State, s.inRange → step s = .next t → t.inRange) ∧
  ∀ (W : Type) [Inhabited W] [DecidableEq W] (wa : WArith W) (s t : State.Of W),
    s.inRange → stepWith wa s = .next t → t.inRange

/-- R41, R25, R30: every step keeps the pipeline invariant, and so it does under every weight arithmetic that obeys the laws of R123
on some set of weights that holds its zero and the weights of its counts. -/
def Obligations.StepKeepsThePipelineInvariant : Prop :=
  (∀ s t : State, s.inv binary64 → step s = .next t → t.inv binary64) ∧
  ∀ (W : Type) [Inhabited W] [DecidableEq W] (wa : WArith W) (valid : W → Prop), wa.Lawful valid →
    ∀ s t : State.Of W, s.inv wa → stepWith wa s = .next t → t.inv wa

/-- The reset state has the invariant, under every weight arithmetic and with all capacities in the range of R8. -/
def Obligations.ResetStateHasTheInvariant : Prop :=
  State.reset.inv binary64 ∧
  ∀ (W : Type) [Inhabited W] [DecidableEq W] (wa : WArith W) (ibcap obcap : BitVec 25),
    1 ≤ ibcap.toNat → ibcap.toNat ≤ 2 ^ 24 → 1 ≤ obcap.toNat → obcap.toNat ≤ 2 ^ 24 →
      (State.Of.fresh ibcap obcap : State.Of W).inv wa

/-- R291, R250: in every state with the invariant every input is taken and answered: no step stops, under this hardware's
weight arithmetic or any other. -/
def Obligations.StepNeverStops : Prop :=
  (∀ s : State, s.inv binary64 → ∃ t, step s = .next t) ∧
  ∀ (W : Type) [Inhabited W] [DecidableEq W] (wa : WArith W) (s : State.Of W), s.inv wa → ∃ t, stepWith wa s = .next t

/-! ### System and buffer commands (40_system_buffer.md) -/

/-- R101, R102: NOP changes nothing; CLR gives the reset state. Both answer 00:0 in every phase. -/
def Obligations.NopAndClrComplete : Prop :=
  ∀ s : State,
    exec .nop s = .next { s with rsp := some ⟨0x00#8, 0#64⟩ } ∧
    ∃ t, exec .clr s = .next t ∧ t.atReset ∧ t.ibcap = s.ibcap ∧ t.obcap = s.obcap ∧ t.port = s.port ∧
      t.rsp = some ⟨0x00#8, 0#64⟩

/-- R103: IB.CLR sets ILEN to 0 and changes nothing else, no memory either. -/
def Obligations.IbClrCompletes : Prop :=
  ∀ s : State, s.phase ≠ .fault → exec .ibClr s = .next { s with ilen := 0#25, rsp := some ⟨0x00#8, 0#64⟩ }

/-- R104: IB.PUSH stores its byte at index ILEN, increments ILEN, answers the new ILEN, and changes nothing else. -/
def Obligations.IbPushCompletes : Prop :=
  ∀ (s : State) (b : Byte), s.canonical → s.phase ≠ .fault → s.ilen.toNat < s.ibcap.toNat →
    ∃ t, exec (.ibPush b) s = .next t ∧
      t = { s with ib := t.ib, ilen := t.ilen, rsp := some ⟨0x00#8, t.ilen.setWidth 64⟩ } ∧
      t.ilen.toNat = s.ilen.toNat + 1 ∧ t.ibAt s.ilen.toNat = b ∧
      ∀ a, a ≠ s.ilen.toNat → t.ibAt a = s.ibAt a

/-- R105, R106: IB.RD and OB.RD answer the byte and change nothing, in every phase. -/
def Obligations.BufferReadsComplete : Prop :=
  ∀ (s : State) (idx : Nat), s.inRange →
    (idx < s.ilen.toNat → exec (.ibRd idx) s = .next { s with rsp := some ⟨0x00#8, (s.ibAt idx).setWidth 64⟩ }) ∧
    (idx < s.olen.toNat → exec (.obRd idx) s = .next { s with rsp := some ⟨0x00#8, (s.obAt idx).setWidth 64⟩ })

/-- R107, R22, R24, R26: RD.REG answers register 0 to 16, zero-extended; STATUS is PHASE, MID in bit 3, SYNTH in bit 4, zeros above. -/
def Obligations.RdRegCompletes : Prop :=
  ∀ s : State,
    let answers := fun (r : Nat) (d : Data) => exec (.rdReg r) s = .next { s with rsp := some ⟨0x00#8, d⟩ }
    answers 0 0x48554601#64 ∧
    (∃ d : Data, answers 1 d ∧
      (d.extractLsb' 0 3).toNat =
        (match s.phase with
        | .idle => 0 | .listed => 1 | .treed => 2 | .coded => 3 | .fault => 7) ∧
      d.getLsbD 3 = s.mid ∧ d.getLsbD 4 = s.synth ∧ d.toNat < 2 ^ 5) ∧
    answers 2 (s.err.setWidth 64) ∧ answers 3 (s.errinfo.setWidth 64) ∧ answers 4 (s.ilen.setWidth 64) ∧
    answers 5 (s.olen.setWidth 64) ∧ answers 6 (s.total.setWidth 64) ∧ answers 7 (s.nsfl.setWidth 64) ∧
    answers 8 (s.nnode.setWidth 64) ∧ answers 9 (s.root.setWidth 64) ∧ answers 10 (s.nbits.setWidth 64) ∧
    answers 11 (s.pad.setWidth 64) ∧ answers 12 (s.srch.setWidth 64) ∧ answers 13 (s.tgth.setWidth 64) ∧
    answers 14 (s.tgtt.setWidth 64) ∧ answers 15 (s.ibcap.setWidth 64) ∧ answers 16 (s.obcap.setWidth 64)

/-- R129, R130, R131, R157 to R160, R185: the other read commands but RD.CBITS answer their value and change nothing, in every
phase. A weight reads back as the pattern that `wbits` of the weight arithmetic gives, for binary64 the pattern it is held as. -/
def Obligations.TableReadsComplete : Prop :=
  (∀ (s : State) (sym : Byte) (idx : Nat), s.inRange →
    let answers := fun (i : Instr) (d : Data) => exec i s = .next { s with rsp := some ⟨0x00#8, d⟩ }
    answers (.rdCnt sym) ((s.cntAt sym).setWidth 64) ∧
    (idx < s.nsfl.toNat →
      answers (.rdSfls idx) ((s.sflAt idx).sym.setWidth 64) ∧ answers (.rdSflp idx) (s.sflAt idx).prob) ∧
    (idx < s.nnode.toNat →
      answers (.rdNk idx)
        (if (s.nodeAt idx).leaf then 0x100#64 + (s.nodeAt idx).sym.setWidth 64 else (s.nodeAt idx).sym.setWidth 64) ∧
      answers (.rdNw idx) (s.nodeAt idx).w ∧
      answers (.rdNl idx) ((s.nodeAt idx).left.setWidth 64) ∧
      answers (.rdNr idx) ((s.nodeAt idx).right.setWidth 64)) ∧
    answers (.rdClen sym) (BitVec.ofNat 64 (s.codeAt sym).length)) ∧
  ∀ (W : Type) [Inhabited W] [DecidableEq W] (wa : WArith W) (s : State.Of W) (idx : Nat), s.inRange →
    (idx < s.nsfl.toNat →
      execWith wa (.rdSflp idx) s = .next { s with rsp := some ⟨0x00#8, wa.wbits (s.sflAt idx).prob⟩ }) ∧
    (idx < s.nnode.toNat →
      execWith wa (.rdNw idx) s = .next { s with rsp := some ⟨0x00#8, wa.wbits (s.nodeAt idx).w⟩ })

/-- R186, R85: RD.CBITS answers position 64k + m of the code in bit 63 - m, and 0 in the bits of positions at or past the code's
length. -/
def Obligations.RdCbitsCompletes : Prop :=
  ∀ (s : State) (sym : Byte) (k : Nat),
    ∃ d : Data, exec (.rdCbits sym k) s = .next { s with rsp := some ⟨0x00#8, d⟩ } ∧
      ∀ m, m < 64 → d.getLsbD (63 - m) = (s.codeAt sym).getD (64 * k + m) false

/-! ### FrequencyAnalyzer (41_frequency_analyzer.md) -/

/-- R128: FA.RUN on an empty IB faults with EmptyInputError, ERRINFO 0, in the state the rule gives, and that is the only fault it can
raise. -/
def Obligations.FaRunOnEmptyInputFaults : Prop :=
  (∀ s : State, s.phase ≠ .fault → s.ilen = 0#25 →
    ∃ t, exec .faRun s = .next t ∧
      t = { s with
        cnt := t.cnt, code := t.code, total := 0#25, nsfl := 0#9, nnode := 0#10, root := 0x1FF#9,
        srch := 0#9, tgth := 0#10, tgtt := 0#10, synth := false, mid := false, olen := 0#25, nbits := 0#32, pad := 0#4,
        err := 0x01#8, errinfo := 0#32, phase := .fault, rsp := some ⟨0x01#8, 0#64⟩ } ∧
      (∀ sym : Byte, t.cntAt sym = 0#25) ∧ (∀ sym : Byte, t.codeAt sym = [])) ∧
  ∀ s t : State, exec .faRun s = .next t → t.answeredFault = true → s.ilen = 0#25 ∧ t.err = 0x01#8

/-- R121, R125: FA.RUN on a loaded IB completes; every count is the number of its symbol's occurrences, TOTAL is ILEN and the sum of
the counts, the tree and the code table are discarded, and nothing else but SFL, NSFL and SYNTH changes. -/
def Obligations.FaRunTalliesTheInput : Prop :=
  ∀ s : State, s.phase ≠ .fault → 0 < s.ilen.toNat → s.ilen.toNat ≤ s.ibcap.toNat →
    ∃ t, exec .faRun s = .next t ∧
      t = { s with
        cnt := t.cnt, sfl := t.sfl, code := t.code, total := s.ilen, nsfl := t.nsfl, synth := t.synth,
        nnode := 0#10, root := 0x1FF#9, srch := 0#9, tgth := 0#10, tgtt := 0#10,
        phase := .listed, rsp := some ⟨0x00#8, t.nsfl.setWidth 64⟩ } ∧
      (∀ sym : Byte, (t.cntAt sym).toNat = s.ibBytes.count sym) ∧
      ((List.range 256).map (fun x => (t.cntAt (BitVec.ofNat 8 x)).toNat)).sum = s.ilen.toNat ∧
      (∀ sym : Byte, t.codeAt sym = [])

/-- R121, R126, R127: the list FA.RUN leaves. With two or more distinct symbols it holds exactly the symbols that occur, each with
count / total; with one it holds that symbol and the synthetic entry. It is sorted as R127 says, and the elements of SFL past it are
unchanged. -/
def Obligations.FaRunListsTheSymbolsInOrder : Prop :=
  ∀ s t : State, s.canonical → 0 < s.ilen.toNat → exec .faRun s = .next t → t.answeredOk = true →
    t.sflList.Pairwise (comesBefore binary64) ∧ (t.sflList.map (·.sym)).Nodup ∧
    (∀ i, t.nsfl.toNat ≤ i → t.sflAt i = s.sflAt i) ∧
    ((∃ a ∈ s.ibBytes, ∃ b ∈ s.ibBytes, a ≠ b) →
      t.synth = false ∧ 2 ≤ t.nsfl.toNat ∧ t.nsfl.toNat ≤ 256 ∧ t.nsfl.toNat = s.ibBytes.dedup.length ∧
      ∀ e : Entry, e ∈ t.sflList ↔ e.sym ∈ s.ibBytes ∧ e.prob = wdiv (s.ibBytes.count e.sym) s.ilen.toNat) ∧
    ∀ sym : Byte, (∀ a ∈ s.ibBytes, a = sym) →
      t.synth = true ∧ t.nsfl.toNat = 2 ∧ t.cntAt (sym + 1#8) = 0#25 ∧
      t.sflList = [⟨sym + 1#8, 0#64⟩, ⟨sym, 0x3FF0000000000000#64⟩]

/-- R122: `wdiv(c, t)` is the exact quotient rounded once, to nearest, ties to even. -/
def Obligations.WdivIsTheQuotientRoundedOnce : Prop :=
  ∀ c t : Nat, 1 ≤ c → c ≤ t → t ≤ 2 ^ 24 → isRounded (c * 2 ^ 1074) t (wdiv c t)

/-- R122: `wadd(a, b)` is the exact sum rounded once, to nearest, ties to even, and zero when the sum is zero. That this includes
subnormal patterns is log entry 4. -/
def Obligations.WaddIsTheSumRoundedOnce : Prop :=
  ∀ a b : Weight, smallWeight a → smallWeight b →
    isRounded (wval a + wval b) 1 (wadd a b) ∧ (wval a + wval b = 0 → wadd a b = 0#64)

/-- R123: binary64 obeys the laws L1 to L5 on the weights of `smallWeight`. These hold all values of R124, and beyond them the
subnormal patterns, to which R122 gives no meaning and the model gives the formula's (log entry 4). -/
def Obligations.Binary64ObeysTheLaws : Prop := binary64.Lawful smallWeight

/-- R124(e), (f): the reference patterns. -/
def Obligations.ReferencePatterns : Prop :=
  wdiv 1 2 = 0x3FE0000000000000#64 ∧ wdiv 1 3 = 0x3FD5555555555555#64 ∧ wdiv 1 6 = 0x3FC5555555555555#64 ∧
  wdiv 1 256 = 0x3F70000000000000#64 ∧ wadd (wdiv 1 6) (wdiv 1 3) = 0x3FE0000000000000#64 ∧
  wadd (wdiv 1 14) (wdiv 4 14) = 0x3FD6DB6DB6DB6DB6#64 ∧ wdiv 5 14 = 0x3FD6DB6DB6DB6DB7#64 ∧
  ∀ t, 1 ≤ t → t ≤ 2 ^ 24 → wdiv t t = 0x3FF0000000000000#64

/-- R133: the probabilities of the list sum to 1, within 256 * 2^-53 (in units of 2^-1074: 2^1029). -/
def Obligations.ProbabilitiesSumToOne : Prop :=
  ∀ s t : State, s.canonical → s.inRange → exec .faRun s = .next t → t.answeredOk = true →
    (t.sflList.map (fun e => wval e.prob)).sum ≤ 2 ^ 1074 + 2 ^ 1029 ∧
    2 ^ 1074 ≤ (t.sflList.map (fun e => wval e.prob)).sum + 2 ^ 1029

/-! ### TreeBuilder (42_tree_builder.md) -/

/-- R151, R154: TB.RUN completes on every list of 2 to 256 entries, whatever the weights: the final registers, the response, the code
table cleared, and nothing else changed but NODE[0..2n-2]. -/
def Obligations.TbRunCompletes : Prop :=
  ∀ s : State, s.canonical → s.phase ∈ [Phase.listed, .treed, .coded] → 2 ≤ s.nsfl.toNat → s.nsfl.toNat ≤ 256 →
    ∃ t, exec .tbRun s = .next t ∧
      t = { s with
        node := t.node, code := t.code, nnode := t.nnode, root := t.root, srch := s.nsfl, tgth := t.tgth, tgtt := t.tgtt,
        phase := .treed, rsp := some ⟨0x00#8, t.root.setWidth 64⟩ } ∧
      t.nnode.toNat = 2 * s.nsfl.toNat - 1 ∧ t.root.toNat = 2 * s.nsfl.toNat - 2 ∧
      t.tgth.toNat = 2 * s.nsfl.toNat - 2 ∧ t.tgtt.toNat = 2 * s.nsfl.toNat - 1 ∧
      (∀ sym : Byte, t.codeAt sym = []) ∧
      ∀ i, 2 * s.nsfl.toNat - 1 ≤ i → t.nodeAt i = s.nodeAt i

/-- R36, R153, R156(b) to (d): for every weight arithmetic, TB.RUN leaves a tree: the leaves of SFL, internal nodes with two different
children of smaller index whose weight is their children's sum, every node but the root the child of exactly one. -/
def Obligations.TbRunBuildsATreeForEveryArithmetic : Prop :=
  (∀ s : State, s.canonical → s.phase ∈ [Phase.listed, .treed, .coded] → 2 ≤ s.nsfl.toNat → s.nsfl.toNat ≤ 256 →
    ∃ t, exec .tbRun s = .next t ∧ t.treeOk binary64) ∧
  ∀ (W : Type) [Inhabited W] [DecidableEq W] (wa : WArith W) (s : State.Of W),
    s.canonical → s.phase ∈ [Phase.listed, .treed, .coded] →
    2 ≤ s.nsfl.toNat → s.nsfl.toNat ≤ 256 → ∃ t, execWith wa .tbRun s = .next t ∧ t.treeOk wa

/-- R155: a list of fewer than two entries is InvalidTreeStateError, with ERRINFO 0, no nodes, no root, the code table cleared and
the queue pointers as the loop left them; TB.RUN raises no other fault, and none at all in a state with the invariant. -/
def Obligations.TbRunOnTooShortAListFaults : Prop :=
  (∀ s : State, s.canonical → s.phase ∈ [Phase.listed, .treed, .coded] → s.nsfl.toNat < 2 →
    ∃ t, exec .tbRun s = .next t ∧
      t = { s with
        node := t.node, code := t.code, nnode := 0#10, root := 0x1FF#9, srch := t.srch, tgth := t.tgth, tgtt := t.tgtt,
        olen := 0#25, nbits := 0#32, pad := 0#4, mid := false,
        err := 0x02#8, errinfo := 0#32, phase := .fault, rsp := some ⟨0x02#8, 0#64⟩ } ∧
      t.srch.toNat = s.nsfl.toNat ∧ t.tgth.toNat = s.nsfl.toNat ∧ t.tgtt.toNat = s.nsfl.toNat ∧
      (∀ sym : Byte, t.codeAt sym = []) ∧ ∀ i, s.nsfl.toNat ≤ i → t.nodeAt i = s.nodeAt i) ∧
  (∀ s t : State, exec .tbRun s = .next t → t.answeredFault = true → t.err = 0x02#8) ∧
  ∀ s t : State, s.inv binary64 → exec .tbRun s = .next t → t.answeredFault = false

/-- R152, R153: the node that pop-min takes, for every weight arithmetic, and the merge step that calls it twice: the first node taken
is the left child, the new node goes to the back of `target`. -/
def Obligations.PopMinAndTheMergeStep : Prop :=
  ∀ (W : Type) [Inhabited W] [DecidableEq W] (wa : WArith W) (n : Nat) (q : TreeQueues W),
    let sourceEmpty := n ≤ q.srch
    let targetEmpty := q.tgtt ≤ q.tgth
    (popMin wa n q = some (q.tgth, { q with tgth := q.tgth + 1 }) ↔
      ¬ targetEmpty ∧ (sourceEmpty ∨ wa.wlt (q.at q.tgth).w (q.at q.srch).w = true)) ∧
    (¬ sourceEmpty → (targetEmpty ∨ wa.wlt (q.at q.tgth).w (q.at q.srch).w = false) →
      popMin wa n q = some (q.srch, { q with srch := q.srch + 1 })) ∧
    (popMin wa n q = none ↔ sourceEmpty ∧ targetEmpty) ∧
    ∀ (a b : Nat) (q1 q2 : TreeQueues W), popMin wa n q = some (a, q1) → popMin wa n q1 = some (b, q2) →
      mergeOnce wa n q = .ok { q2 with
        node := Memory.write unlistedNode q2.node q2.tgtt
          ⟨false, 0#8, wa.wadd (q2.at a).w (q2.at b).w, BitVec.ofNat 9 a, BitVec.ofNat 9 b⟩
        tgtt := q2.tgtt + 1 }

/-- R156(e): TB.RUN is a function of SFL and NSFL alone: the same list gives the same tree, whatever the rest of the state, for every
weight arithmetic; `exec` is its instance `binary64`. -/
def Obligations.TbRunDependsOnTheListAlone : Prop :=
  ∀ (W : Type) [Inhabited W] [DecidableEq W] (wa : WArith W) (s1 s2 t1 t2 : State.Of W),
    s1.canonical → s2.canonical → s1.nsfl = s2.nsfl → s1.sflList = s2.sflList →
    execWith wa .tbRun s1 = .next t1 → execWith wa .tbRun s2 = .next t2 → t1.answeredOk = true → t2.answeredOk = true →
    t1.root = t2.root ∧ t1.nnode = t2.nnode ∧ t1.srch = t2.srch ∧ t1.tgth = t2.tgth ∧ t1.tgtt = t2.tgtt ∧
    ∀ i < t1.nnode.toNat, t1.nodeAt i = t2.nodeAt i

/-- R156(a): on a sorted list of probabilities from 0 to 1, the internal nodes are made in non-decreasing order of weight, and none is
lighter than its children. -/
def Obligations.InternalWeightsNeverFall : Prop :=
  ∀ s t : State, s.canonical → s.listOk binary64 → (∀ e ∈ s.sflList, wval e.prob ≤ 2 ^ 1074) →
    exec .tbRun s = .next t → t.answeredOk = true →
    (∀ i, s.nsfl.toNat ≤ i → i + 1 < t.nnode.toNat → wval (t.nodeAt i).w ≤ wval (t.nodeAt (i + 1)).w) ∧
    ∀ i, s.nsfl.toNat ≤ i → i < t.nnode.toNat →
      wval (t.nodeAt (t.nodeAt i).left.toNat).w ≤ wval (t.nodeAt i).w ∧
      wval (t.nodeAt (t.nodeAt i).right.toNat).w ≤ wval (t.nodeAt i).w

/-! ### CodeTableGenerator (43_code_generator.md) -/

/-- R181, R37: on every tree over a list of distinct symbols CG.RUN completes; each leaf's symbol gets the leaf's path from ROOT, every
other symbol no code, and nothing else but the phase changes. -/
def Obligations.CgRunWritesThePaths : Prop :=
  ∀ s : State, s.phase ∈ [Phase.treed, .coded] → s.listShape → s.treeOk binary64 →
    ∃ t, exec .cgRun s = .next t ∧
      t = { s with code := t.code, phase := .coded, rsp := some ⟨0x00#8, s.nsfl.setWidth 64⟩ } ∧ t.codesOk

/-- R182: the codes are prefix-free, and different symbols have different codes, for every weight arithmetic. -/
def Obligations.CodesArePrefixFree : Prop :=
  ∀ (W : Type) [Inhabited W] [DecidableEq W] (wa : WArith W) (s : State.Of W) (a b : Byte),
    s.inv wa → s.phase = .coded → a ≠ b →
    0 < (s.codeAt a).length → 0 < (s.codeAt b).length →
    ¬ (s.codeAt a <+: s.codeAt b) ∧ s.codeAt a ≠ s.codeAt b

/-- R183: every present code has 1 to NSFL - 1 bits, so at most 255, for every weight arithmetic. -/
def Obligations.CodeLengthsAreBounded : Prop :=
  ∀ (W : Type) [Inhabited W] [DecidableEq W] (wa : WArith W) (s : State.Of W) (sym : Byte),
    s.inv wa → s.phase = .coded →
    0 < (s.codeAt sym).length →
    (s.codeAt sym).length ≤ s.nsfl.toNat - 1 ∧ (s.codeAt sym).length ≤ 255 ∧ ∃ e ∈ s.sflList, e.sym = sym

/-- R41(b): every node of the tree is reached from ROOT by exactly one path, and nothing else is reached, for every weight
arithmetic. -/
def Obligations.EveryNodeHasExactlyOnePath : Prop :=
  ∀ (W : Type) [Inhabited W] [DecidableEq W] (wa : WArith W) (s : State.Of W), s.inv wa → s.phase ∈ [Phase.treed, .coded] →
    (∀ j < s.nnode.toNat, ∃! bits, s.follow s.root.toNat bits = some j) ∧
    ∀ bits j, s.follow s.root.toNat bits = some j → j < s.nnode.toNat

/-! ### BitPacker (44_bit_packer.md) -/

/-- R201, R202, R203, R206: when every symbol of IB has a code and the result fits, BP.RUN completes: OB holds the padding block and
the codes in order, most significant bit first; OLEN, NBITS, PAD and the response; the rest of OB and everything else unchanged. -/
def Obligations.BpRunPacksTheCodes : Prop :=
  ∀ s : State, s.canonical → s.phase = .coded → s.ilen.toNat ≤ s.ibcap.toNat →
    (∀ b ∈ s.ibBytes, 0 < (s.codeAt b).length) → (s.ibBytes.flatMap s.codeAt).length < 8 * s.obcap.toNat →
    ∃ t, exec .bpRun s = .next t ∧
      t = { s with ob := t.ob, olen := t.olen, nbits := t.nbits, pad := t.pad, rsp := some ⟨0x00#8, t.olen.setWidth 64⟩ } ∧
      t.nbits.toNat = (s.ibBytes.flatMap s.codeAt).length ∧
      t.pad.toNat = 8 - t.nbits.toNat % 8 ∧ t.olen.toNat = t.nbits.toNat / 8 + 1 ∧
      t.obBytes.flatMap (fun b => [b.getLsbD 7, b.getLsbD 6, b.getLsbD 5, b.getLsbD 4, b.getLsbD 3, b.getLsbD 2,
        b.getLsbD 1, b.getLsbD 0]) =
        List.replicate (t.pad.toNat - 1) false ++ [true] ++ s.ibBytes.flatMap s.codeAt ∧
      ∀ a, t.olen.toNat ≤ a → t.obAt a = s.obAt a

/-- R204, R205, R261: the fault BP.RUN takes at the first index where a symbol has no code or the bits reach 8 * OBCAP; nothing is
stored. -/
def Obligations.BpRunFaultsAtTheFirstBadSymbol : Prop :=
  ∀ (s : State) (j : Nat), s.inRange → s.phase = .coded → j < s.ilen.toNat →
    (∀ b ∈ s.ibBytes.take j, 0 < (s.codeAt b).length) →
    ((s.ibBytes.take j).flatMap s.codeAt).length < 8 * s.obcap.toNat →
    let faulted := fun (code : BitVec 8) (info : BitVec 32) =>
      { s with olen := 0#25, nbits := 0#32, pad := 0#4, mid := false, err := code, errinfo := info, phase := Phase.fault,
               rsp := some ⟨code, info.setWidth 64⟩ }
    (s.codeAt (s.ibAt j) = [] →
      exec .bpRun s = .next (faulted 0x03#8 (BitVec.ofNat 32 (j * 256 + (s.ibAt j).toNat)))) ∧
    (s.codeAt (s.ibAt j) ≠ [] → 8 * s.obcap.toNat ≤ ((s.ibBytes.take (j + 1)).flatMap s.codeAt).length →
      exec .bpRun s = .next (faulted 0x06#8 (BitVec.ofNat 32 j)))

/-- R207: BP.RUN on an empty IB is no error; it stores the one byte 0x01. -/
def Obligations.BpRunOnEmptyInput : Prop :=
  ∀ s : State, s.canonical → s.phase = .coded → s.ilen = 0#25 → 1 ≤ s.obcap.toNat →
    ∃ t, exec .bpRun s = .next t ∧
      t = { s with ob := t.ob, olen := 1#25, nbits := 0#32, pad := 8#4, rsp := some ⟨0x00#8, 1#64⟩ } ∧
      t.obAt 0 = 0x01#8 ∧ ∀ a, a ≠ 0 → t.obAt a = s.obAt a

/-- R202: the padding block for every length of the bit string. -/
def Obligations.PaddingReachesTheNextMultipleOf8 : Prop :=
  ∀ bits : BitString,
    1 ≤ padding bits.length ∧ padding bits.length ≤ 8 ∧
    padding bits.length = 8 - bits.length % 8 ∧
    bits.length + padding bits.length = 8 * (bits.length / 8 + 1) ∧
    padded bits = List.replicate (padding bits.length - 1) false ++ [true] ++ bits

/-! ### Decoder (45_decoder.md) -/

/-- R227: DEC.RUN on an empty IB is MalformedBitstringError with ERRINFO 0; nothing is stored. -/
def Obligations.DecRunOnEmptyInputFaults : Prop :=
  ∀ s : State, s.phase ∈ [Phase.treed, .coded] → s.ilen = 0#25 →
    exec .decRun s = .next
      { s with olen := 0#25, nbits := 0#32, pad := 0#4, mid := false, err := 0x05#8, errinfo := 0#32, phase := .fault,
               rsp := some ⟨0x05#8, 0#64⟩ }

/-- R223: the number of discarded bits, from the first byte alone; the length of the payload; and a first byte 0x00 decodes like
0x01. -/
def Obligations.DiscardedBitsDependOnTheFirstByte : Prop :=
  ∀ (b : Byte) (rest : List Byte),
    let disc := discarded (streamBits (b :: rest))
    disc =
      (if 0x80 ≤ b.toNat then 1 else if 0x40 ≤ b.toNat then 2 else if 0x20 ≤ b.toNat then 3
       else if 0x10 ≤ b.toNat then 4 else if 0x08 ≤ b.toNat then 5 else if 0x04 ≤ b.toNat then 6
       else if 0x02 ≤ b.toNat then 7 else 8) ∧
    ((streamBits (b :: rest)).drop disc).length = 8 * (rest.length + 1) - disc ∧
    (b = 0x00#8 → (streamBits (b :: rest)).drop disc =
      (streamBits (0x01#8 :: rest)).drop (discarded (streamBits (0x01#8 :: rest))))

/-- R222, R224, R226, R228: DEC.RUN on a loaded IB and a tree. Cut the payload into the paths of `out` and the unfinished rest. If the
symbols fit in OB, DEC.RUN completes: OB holds `out`, and OLEN, NBITS, PAD, MID and the response are as the rules say. If not, it is
CapacityError at the position of the bit that reached the first leaf too many, with OB filled. Everything else is unchanged. -/
def Obligations.DecRunWalksThePayload : Prop :=
  ∀ (s : State) (paths : List BitString) (out : List Byte) (rest : BitString) (cur : Nat),
    s.inv binary64 → s.phase ∈ [Phase.treed, .coded] → 0 < s.ilen.toNat →
    List.Forall₂ s.isPathOf paths out →
    s.follow s.root.toNat rest = some cur → (s.nodeAt cur).leaf = false →
    (streamBits s.ibBytes).drop (discarded (streamBits s.ibBytes)) = paths.flatten ++ rest →
    (out.length ≤ s.obcap.toNat →
      ∃ t, exec .decRun s = .next t ∧
        t = { s with ob := t.ob, olen := t.olen, nbits := t.nbits, pad := t.pad, mid := t.mid,
                     rsp := some ⟨0x00#8, t.olen.setWidth 64⟩ } ∧
        t.olen.toNat = out.length ∧ t.obBytes = out ∧
        t.pad.toNat = discarded (streamBits s.ibBytes) ∧ t.nbits.toNat + t.pad.toNat = 8 * s.ilen.toNat ∧
        (t.mid = true ↔ rest ≠ []) ∧
        ∀ a, t.olen.toNat ≤ a → t.obAt a = s.obAt a) ∧
    (s.obcap.toNat < out.length →
      ∃ t, exec .decRun s = .next t ∧
        t = { s with ob := t.ob, olen := 0#25, nbits := 0#32, pad := 0#4, mid := false, err := 0x06#8, errinfo := t.errinfo,
                     phase := .fault, rsp := some ⟨0x06#8, t.errinfo.setWidth 64⟩ } ∧
        t.errinfo.toNat + 1 = (paths.take (s.obcap.toNat + 1)).flatten.length ∧
        (∀ a < s.obcap.toNat, some (t.obAt a) = out[a]?) ∧
        ∀ a, s.obcap.toNat ≤ a → t.obAt a = s.obAt a)

/-- R225, R222: on a tree every bit string can be cut into paths to leaves and an unfinished rest, in one way, so DEC.RUN never raises
CorruptStreamError there, and always answers. -/
def Obligations.EveryPayloadCanBeWalked : Prop :=
  ∀ s : State, s.inv binary64 → s.phase ∈ [Phase.treed, .coded] →
    (∀ payload : BitString, ∃! cut : List BitString × List Byte × BitString,
      List.Forall₂ s.isPathOf cut.1 cut.2.1 ∧
      (∃ cur, s.follow s.root.toNat cut.2.2 = some cur ∧ (s.nodeAt cur).leaf = false) ∧
      payload = cut.1.flatten ++ cut.2.2) ∧
    ∃ t, exec .decRun s = .next t ∧ ∀ d, t.rsp ≠ some ⟨0x04#8, d⟩

/-- R225: a move from a leaf, or to a missing child, is CorruptStreamError at its position: here the first move, from a root that is a
leaf or lacks the child (such a state is not reached from reset); nothing is stored. -/
def Obligations.DecRunFallingOffTheTreeFaults : Prop :=
  ∀ (s : State) (b : Bool) (bits : BitString), s.inRange → s.phase ∈ [Phase.treed, .coded] → 0 < s.ilen.toNat →
    s.root ≠ 0x1FF#9 → (streamBits s.ibBytes).drop (discarded (streamBits s.ibBytes)) = b :: bits →
    ((s.nodeAt s.root.toNat).leaf = true ∨
      (if b then (s.nodeAt s.root.toNat).right else (s.nodeAt s.root.toNat).left) = 0x1FF#9) →
    exec .decRun s = .next
      { s with olen := 0#25, nbits := 0#32, pad := 0#4, mid := false, err := 0x04#8, errinfo := 0#32, phase := .fault,
               rsp := some ⟨0x04#8, 0#64⟩ }

/-! ### The headline (45_decoder.md R229) -/

/-- R229: for every weight arithmetic, from every state that is not FAULT, loading, analysing, building, generating and packing a
stream, then loading and decoding what was packed, gives the stream back, with every response OK, provided the capacities suffice. -/
def Obligations.DecodingAnEncodedStreamGivesItBack : Prop :=
  ∀ (W : Type) [Inhabited W] [DecidableEq W] (wa : WArith W) (s : State.Of W) (x : List Byte),
    s.canonical → s.inRange → s.phase ≠ .fault →
    1 ≤ x.length → x.length ≤ s.ibcap.toNat →
    ∃ t, runOk wa (loadCommands x ++ [.faRun, .tbRun, .cgRun]) s = some t ∧
      ((x.flatMap t.codeAt).length < 8 * s.obcap.toNat →
        ∃ u, runOk wa [.bpRun] t = some u ∧
          (u.obBytes.length ≤ s.ibcap.toNat → x.length ≤ s.obcap.toNat →
            ∃ v, runOk wa (loadCommands u.obBytes ++ [.decRun]) u = some v ∧
              v.obBytes = x ∧ v.olen.toNat = x.length ∧ v.mid = false))
end

