-- ==== Sys2Proof/Laws/Memory.lean ====
section
/-! SUPPORT. What the memory operations do: reading after writing, the canonical form kept, and the same for runs of elements. -/

namespace Sys2Proof.Machine

variable {α : Type} {d : α}

@[simp] theorem Memory.read_nil (i : Nat) : Memory.read d [] i = d := rfl

theorem Memory.wf_nil (n : Nat) : Memory.wf d n [] := ⟨.nil, by simp⟩

theorem Memory.wf_tail {n : Nat} {x : Nat × α} {m : Memory α} (h : Memory.wf d n (x :: m)) : Memory.wf d n m :=
  ⟨(List.pairwise_cons.1 h.1).2, fun y hy => h.2 y (List.mem_cons_of_mem _ hy)⟩

/-- Every later index of a canonical memory is larger than the first. -/
theorem Memory.head_lt {n : Nat} {x : Nat × α} {m : Memory α} (h : Memory.wf d n (x :: m)) : ∀ y ∈ m, x.1 < y.1 :=
  (List.pairwise_cons.1 h.1).1

/-- A memory may be said to have more elements than it has. -/
theorem Memory.wf_mono {n k : Nat} {m : Memory α} (h : Memory.wf d n m) (hk : n ≤ k) : Memory.wf d k m :=
  ⟨h.1, fun x hx => ⟨lt_of_lt_of_le (h.2 x hx).1 hk, (h.2 x hx).2⟩⟩

/-- An index below every listed one reads as unlisted. -/
theorem Memory.read_below {m : Memory α} {i : Nat} (h : ∀ x ∈ m, i < x.1) : Memory.read d m i = d := by
  cases m with
  | nil => rfl
  | cons x m =>
    have hx : i < x.1 := h x List.mem_cons_self
    simp [Memory.read, Nat.not_lt.2 hx.le, hx.ne']

/-- An index of no listed element reads as unlisted. -/
theorem Memory.read_unlisted {m : Memory α} {i : Nat} (h : ∀ x ∈ m, x.1 ≠ i) : Memory.read d m i = d := by
  induction m with
  | nil => rfl
  | cons x m ih =>
    have hx : x.1 ≠ i := h x List.mem_cons_self
    simp only [Memory.read, hx, if_false]
    split
    · exact ih fun y hy => h y (List.mem_cons_of_mem _ hy)
    · rfl

variable [DecidableEq α]

/-- What a write leaves listed: old elements, and the new one when it is not the unlisted value. -/
theorem Memory.mem_write {m : Memory α} {i : Nat} {v : α} {x : Nat × α} (h : x ∈ Memory.write d m i v) :
    x ∈ m ∨ x = (i, v) ∧ v ≠ d := by
  induction m with
  | nil =>
    simp only [Memory.write] at h
    split at h <;> simp_all
  | cons y m ih =>
    simp only [Memory.write] at h
    split at h
    · rcases List.mem_cons.1 h with rfl | h
      · exact .inl List.mem_cons_self
      · exact (ih h).imp_left (List.mem_cons_of_mem _)
    · split at h <;> split at h <;> simp_all <;> tauto

/-- Every write keeps the canonical form. -/
theorem Memory.write_wf {n : Nat} {m : Memory α} {i : Nat} (h : Memory.wf d n m) (hi : i < n) (v : α) :
    Memory.wf d n (Memory.write d m i v) := by
  refine ⟨?_, fun x hx => ?_⟩
  · induction m with
    | nil => simp only [Memory.write]; split <;> simp
    | cons y m ih =>
      have hlt := Memory.head_lt h
      have hm := Memory.wf_tail h
      simp only [Memory.write]
      split
      · rename_i hy
        refine List.pairwise_cons.2 ⟨fun x hx => ?_, ih hm⟩
        rcases Memory.mem_write hx with hx | ⟨rfl, -⟩
        · exact hlt x hx
        · exact hy
      · split
        · rename_i hy
          split
          · exact hm.1
          · exact List.pairwise_cons.2 ⟨fun x hx => hy ▸ hlt x hx, hm.1⟩
        · split
          · exact h.1
          · refine List.pairwise_cons.2 ⟨fun x hx => ?_, h.1⟩
            have hiy : i < y.1 := by omega
            rcases List.mem_cons.1 hx with rfl | hx
            · exact hiy
            · exact hiy.trans (hlt x hx)
  · rcases Memory.mem_write hx with hx | ⟨rfl, hv⟩
    · exact h.2 x hx
    · exact ⟨hi, hv⟩

/-- Reading after a write: the value written at its index, the old value everywhere else. -/
theorem Memory.read_write {n : Nat} {m : Memory α} (h : Memory.wf d n m) (i j : Nat) (v : α) :
    Memory.read d (Memory.write d m i v) j = if j = i then v else Memory.read d m j := by
  induction m with
  | nil =>
    simp only [Memory.write]
    split <;> simp only [Memory.read] <;> split_ifs <;> first | rfl | omega | simp_all
  | cons y m ih =>
    have hlt := Memory.head_lt h
    have ih := ih (Memory.wf_tail h)
    have below : ∀ j, j ≤ y.1 → Memory.read d m j = d := fun j hj =>
      Memory.read_below fun x hx => lt_of_le_of_lt hj (hlt x hx)
    simp only [Memory.write]
    split
    · simp only [Memory.read, ih]
      split_ifs <;> first | rfl | omega
    · split
      · rename_i hy
        have hb : ∀ j, ¬ y.1 < j → Memory.read d m j = d := fun j hj => below j (by omega)
        split
        · rename_i hv
          simp only [Memory.read]
          by_cases hj : j = i
          · rw [if_pos hj, hv, hb j (by omega)]
          · rw [if_neg hj]
            by_cases hlt : y.1 < j
            · rw [if_pos hlt]
            · rw [if_neg hlt, if_neg (by omega), hb j hlt]
        · simp only [Memory.read]
          split_ifs <;> first | rfl | omega
      · split
        · rename_i hv
          by_cases hj : j = i
          · simp only [Memory.read, hj, if_true, hv]
            rw [if_neg (by omega), if_neg (by omega)]
          · rw [if_neg hj]
        · simp only [Memory.read]
          split_ifs <;> first | rfl | omega

theorem Memory.read_write_same {n : Nat} {m : Memory α} (h : Memory.wf d n m) (i : Nat) (v : α) :
    Memory.read d (Memory.write d m i v) i = v := by simp [Memory.read_write h]

theorem Memory.read_write_other {n : Nat} {m : Memory α} (h : Memory.wf d n m) {i j : Nat} (hj : j ≠ i) (v : α) :
    Memory.read d (Memory.write d m i v) j = Memory.read d m j := by simp [Memory.read_write h, hj]

/-- Writing a run of elements keeps the canonical form. -/
theorem Memory.writeFrom_wf {n : Nat} {m : Memory α} {a : Nat} {vs : List α} (h : Memory.wf d n m)
    (ha : a + vs.length ≤ n) : Memory.wf d n (Memory.writeFrom d m a vs) := by
  induction vs generalizing m a with
  | nil => exact h
  | cons v vs ih =>
    simp only [List.length_cons] at ha
    exact ih (Memory.write_wf h (by omega) v) (by omega)

/-- Reading after a run of writes: the run's element inside it, the old value outside. -/
theorem Memory.read_writeFrom {n : Nat} {m : Memory α} {a : Nat} {vs : List α} (h : Memory.wf d n m)
    (ha : a + vs.length ≤ n) (j : Nat) :
    Memory.read d (Memory.writeFrom d m a vs) j =
      if a ≤ j ∧ j < a + vs.length then vs.getD (j - a) d else Memory.read d m j := by
  induction vs generalizing m a with
  | nil => rw [if_neg (by simp)]; rfl
  | cons v vs ih =>
    simp only [List.length_cons] at ha
    have hw := Memory.write_wf h (show a < n by omega) v
    have hrec := ih hw (show a + 1 + vs.length ≤ n by omega)
    simp only [Memory.writeFrom, hrec, Memory.read_write h, List.length_cons]
    by_cases hj : j = a
    · subst hj; simp
    · by_cases h1 : a + 1 ≤ j ∧ j < a + 1 + vs.length
      · have h2 : a ≤ j ∧ j < a + (vs.length + 1) := by omega
        obtain ⟨c, rfl⟩ : ∃ c, j = a + 1 + c := ⟨j - (a + 1), by omega⟩
        rw [if_pos h1, if_pos h2, show a + 1 + c - (a + 1) = c by omega, show a + 1 + c - a = c + 1 by omega]
        simp
      · have h2 : ¬ (a ≤ j ∧ j < a + (vs.length + 1)) := by omega
        rw [if_neg h1, if_neg h2, if_neg hj]

omit [DecidableEq α] in
@[simp] theorem Memory.length_first (m : Memory α) (n : Nat) : (Memory.first d m n).length = n := by
  simp [Memory.first]

omit [DecidableEq α] in
theorem Memory.getElem?_first (m : Memory α) {n i : Nat} (hi : i < n) :
    (Memory.first d m n)[i]? = some (Memory.read d m i) := by
  simp [Memory.first, hi]

/-- The first elements after a run of writes from index 0 are the run. -/
theorem Memory.first_writeFrom {n : Nat} {m : Memory α} {vs : List α} (h : Memory.wf d n m) (hn : vs.length ≤ n) :
    Memory.first d (Memory.writeFrom d m 0 vs) vs.length = vs := by
  apply List.ext_getElem?
  intro i
  by_cases hi : i < vs.length
  · rw [Memory.getElem?_first _ hi, Memory.read_writeFrom h (by omega)]
    simp [hi]
  · simp [Memory.first, hi]

omit [DecidableEq α] in
/-- Two canonical memories that read the same everywhere are the same list. -/
theorem Memory.ext_read {n : Nat} {m m' : Memory α} (h : Memory.wf d n m) (h' : Memory.wf d n m')
    (hr : ∀ i, Memory.read d m i = Memory.read d m' i) : m = m' := by
  induction m generalizing m' with
  | nil =>
    cases m' with
    | nil => rfl
    | cons y m' =>
      have := hr y.1
      simp [Memory.read] at this
      exact absurd this.symm (h'.2 y List.mem_cons_self).2
  | cons x m ih =>
    cases m' with
    | nil =>
      have := hr x.1
      simp [Memory.read] at this
      exact absurd this (h.2 x List.mem_cons_self).2
    | cons y m' =>
      have hx := (h.2 x List.mem_cons_self).2
      have hy := (h'.2 y List.mem_cons_self).2
      have hxy : x.1 = y.1 := by
        by_contra hne
        rcases Nat.lt_or_gt_of_ne hne with hlt | hlt
        · have := hr x.1
          simp [Memory.read, Nat.not_lt.2 hlt.le, hlt.ne'] at this
          exact hx this
        · have := hr y.1
          simp [Memory.read, Nat.not_lt.2 hlt.le, hlt.ne'] at this
          exact hy this.symm
      have hv : x.2 = y.2 := by
        have := hr x.1
        simpa [Memory.read, hxy] using this
      have htail : m = m' := ih (Memory.wf_tail h) (Memory.wf_tail h') fun i => by
        by_cases hi : x.1 < i
        · have := hr i
          simpa [Memory.read, hi, hxy ▸ hi] using this
        · rw [Memory.read_below fun z hz => lt_of_le_of_lt (not_lt.1 hi) (Memory.head_lt h z hz),
            Memory.read_below fun z hz => lt_of_le_of_lt (not_lt.1 hi) (hxy ▸ Memory.head_lt h' z hz)]
      rw [htail, Prod.ext hxy hv]

end Sys2Proof.Machine
end

