-- ==== Sys2Proof/Laws/State.lean ====
section
/-! SUPPORT. One lemma for each field of State after each named update of it, so that no proof unfolds a record update. -/

namespace Sys2Proof.Machine

variable {W : Type}

/-! ### `State.Of.fresh` -/

@[simp] theorem State.Of.fresh_phase (ic oc : BitVec 25) : (State.Of.fresh ic oc : State.Of W).phase = .idle := rfl
@[simp] theorem State.Of.fresh_mid (ic oc : BitVec 25) : (State.Of.fresh ic oc : State.Of W).mid = false := rfl
@[simp] theorem State.Of.fresh_synth (ic oc : BitVec 25) : (State.Of.fresh ic oc : State.Of W).synth = false := rfl
@[simp] theorem State.Of.fresh_err (ic oc : BitVec 25) : (State.Of.fresh ic oc : State.Of W).err = 0#8 := rfl
@[simp] theorem State.Of.fresh_errinfo (ic oc : BitVec 25) : (State.Of.fresh ic oc : State.Of W).errinfo = 0#32 := rfl
@[simp] theorem State.Of.fresh_ilen (ic oc : BitVec 25) : (State.Of.fresh ic oc : State.Of W).ilen = 0#25 := rfl
@[simp] theorem State.Of.fresh_olen (ic oc : BitVec 25) : (State.Of.fresh ic oc : State.Of W).olen = 0#25 := rfl
@[simp] theorem State.Of.fresh_total (ic oc : BitVec 25) : (State.Of.fresh ic oc : State.Of W).total = 0#25 := rfl
@[simp] theorem State.Of.fresh_nsfl (ic oc : BitVec 25) : (State.Of.fresh ic oc : State.Of W).nsfl = 0#9 := rfl
@[simp] theorem State.Of.fresh_nnode (ic oc : BitVec 25) : (State.Of.fresh ic oc : State.Of W).nnode = 0#10 := rfl
@[simp] theorem State.Of.fresh_root (ic oc : BitVec 25) : (State.Of.fresh ic oc : State.Of W).root = Config.nil := rfl
@[simp] theorem State.Of.fresh_nbits (ic oc : BitVec 25) : (State.Of.fresh ic oc : State.Of W).nbits = 0#32 := rfl
@[simp] theorem State.Of.fresh_pad (ic oc : BitVec 25) : (State.Of.fresh ic oc : State.Of W).pad = 0#4 := rfl
@[simp] theorem State.Of.fresh_srch (ic oc : BitVec 25) : (State.Of.fresh ic oc : State.Of W).srch = 0#9 := rfl
@[simp] theorem State.Of.fresh_tgth (ic oc : BitVec 25) : (State.Of.fresh ic oc : State.Of W).tgth = 0#10 := rfl
@[simp] theorem State.Of.fresh_tgtt (ic oc : BitVec 25) : (State.Of.fresh ic oc : State.Of W).tgtt = 0#10 := rfl
@[simp] theorem State.Of.fresh_ibcap (ic oc : BitVec 25) : (State.Of.fresh ic oc : State.Of W).ibcap = ic := rfl
@[simp] theorem State.Of.fresh_obcap (ic oc : BitVec 25) : (State.Of.fresh ic oc : State.Of W).obcap = oc := rfl
@[simp] theorem State.Of.fresh_ib (ic oc : BitVec 25) : (State.Of.fresh ic oc : State.Of W).ib = [] := rfl
@[simp] theorem State.Of.fresh_ob (ic oc : BitVec 25) : (State.Of.fresh ic oc : State.Of W).ob = [] := rfl
@[simp] theorem State.Of.fresh_cnt (ic oc : BitVec 25) : (State.Of.fresh ic oc : State.Of W).cnt = [] := rfl
@[simp] theorem State.Of.fresh_sfl (ic oc : BitVec 25) : (State.Of.fresh ic oc : State.Of W).sfl = [] := rfl
@[simp] theorem State.Of.fresh_node (ic oc : BitVec 25) : (State.Of.fresh ic oc : State.Of W).node = [] := rfl
@[simp] theorem State.Of.fresh_code (ic oc : BitVec 25) : (State.Of.fresh ic oc : State.Of W).code = [] := rfl
@[simp] theorem State.Of.fresh_rsp (ic oc : BitVec 25) : (State.Of.fresh ic oc : State.Of W).rsp = none := rfl
@[simp] theorem State.Of.fresh_port (ic oc : BitVec 25) : (State.Of.fresh ic oc : State.Of W).port = [] := rfl

/-! ### `State.Of.answer` -/

@[simp] theorem State.Of.answer_phase (s : State.Of W) (c : BitVec 8) (d : Data) : (s.answer c d).phase = s.phase := rfl
@[simp] theorem State.Of.answer_mid (s : State.Of W) (c : BitVec 8) (d : Data) : (s.answer c d).mid = s.mid := rfl
@[simp] theorem State.Of.answer_synth (s : State.Of W) (c : BitVec 8) (d : Data) : (s.answer c d).synth = s.synth := rfl
@[simp] theorem State.Of.answer_err (s : State.Of W) (c : BitVec 8) (d : Data) : (s.answer c d).err = s.err := rfl
@[simp] theorem State.Of.answer_errinfo (s : State.Of W) (c : BitVec 8) (d : Data) : (s.answer c d).errinfo = s.errinfo := rfl
@[simp] theorem State.Of.answer_ilen (s : State.Of W) (c : BitVec 8) (d : Data) : (s.answer c d).ilen = s.ilen := rfl
@[simp] theorem State.Of.answer_olen (s : State.Of W) (c : BitVec 8) (d : Data) : (s.answer c d).olen = s.olen := rfl
@[simp] theorem State.Of.answer_total (s : State.Of W) (c : BitVec 8) (d : Data) : (s.answer c d).total = s.total := rfl
@[simp] theorem State.Of.answer_nsfl (s : State.Of W) (c : BitVec 8) (d : Data) : (s.answer c d).nsfl = s.nsfl := rfl
@[simp] theorem State.Of.answer_nnode (s : State.Of W) (c : BitVec 8) (d : Data) : (s.answer c d).nnode = s.nnode := rfl
@[simp] theorem State.Of.answer_root (s : State.Of W) (c : BitVec 8) (d : Data) : (s.answer c d).root = s.root := rfl
@[simp] theorem State.Of.answer_nbits (s : State.Of W) (c : BitVec 8) (d : Data) : (s.answer c d).nbits = s.nbits := rfl
@[simp] theorem State.Of.answer_pad (s : State.Of W) (c : BitVec 8) (d : Data) : (s.answer c d).pad = s.pad := rfl
@[simp] theorem State.Of.answer_srch (s : State.Of W) (c : BitVec 8) (d : Data) : (s.answer c d).srch = s.srch := rfl
@[simp] theorem State.Of.answer_tgth (s : State.Of W) (c : BitVec 8) (d : Data) : (s.answer c d).tgth = s.tgth := rfl
@[simp] theorem State.Of.answer_tgtt (s : State.Of W) (c : BitVec 8) (d : Data) : (s.answer c d).tgtt = s.tgtt := rfl
@[simp] theorem State.Of.answer_ibcap (s : State.Of W) (c : BitVec 8) (d : Data) : (s.answer c d).ibcap = s.ibcap := rfl
@[simp] theorem State.Of.answer_obcap (s : State.Of W) (c : BitVec 8) (d : Data) : (s.answer c d).obcap = s.obcap := rfl
@[simp] theorem State.Of.answer_ib (s : State.Of W) (c : BitVec 8) (d : Data) : (s.answer c d).ib = s.ib := rfl
@[simp] theorem State.Of.answer_ob (s : State.Of W) (c : BitVec 8) (d : Data) : (s.answer c d).ob = s.ob := rfl
@[simp] theorem State.Of.answer_cnt (s : State.Of W) (c : BitVec 8) (d : Data) : (s.answer c d).cnt = s.cnt := rfl
@[simp] theorem State.Of.answer_sfl (s : State.Of W) (c : BitVec 8) (d : Data) : (s.answer c d).sfl = s.sfl := rfl
@[simp] theorem State.Of.answer_node (s : State.Of W) (c : BitVec 8) (d : Data) : (s.answer c d).node = s.node := rfl
@[simp] theorem State.Of.answer_code (s : State.Of W) (c : BitVec 8) (d : Data) : (s.answer c d).code = s.code := rfl
@[simp] theorem State.Of.answer_rsp (s : State.Of W) (c : BitVec 8) (d : Data) : (s.answer c d).rsp = some ⟨c, d⟩ := rfl
@[simp] theorem State.Of.answer_port (s : State.Of W) (c : BitVec 8) (d : Data) : (s.answer c d).port = s.port := rfl

/-! ### `State.Of.enterFault` -/

@[simp] theorem State.Of.enterFault_phase (s : State.Of W) (f : FaultKind) (info : Nat) : (s.enterFault f info).phase = .fault := rfl
@[simp] theorem State.Of.enterFault_mid (s : State.Of W) (f : FaultKind) (info : Nat) : (s.enterFault f info).mid = false := rfl
@[simp] theorem State.Of.enterFault_synth (s : State.Of W) (f : FaultKind) (info : Nat) : (s.enterFault f info).synth = s.synth := rfl
@[simp] theorem State.Of.enterFault_err (s : State.Of W) (f : FaultKind) (info : Nat) : (s.enterFault f info).err = f.number := rfl
@[simp] theorem State.Of.enterFault_errinfo (s : State.Of W) (f : FaultKind) (info : Nat) : (s.enterFault f info).errinfo = BitVec.ofNat 32 info := rfl
@[simp] theorem State.Of.enterFault_ilen (s : State.Of W) (f : FaultKind) (info : Nat) : (s.enterFault f info).ilen = s.ilen := rfl
@[simp] theorem State.Of.enterFault_olen (s : State.Of W) (f : FaultKind) (info : Nat) : (s.enterFault f info).olen = 0#25 := rfl
@[simp] theorem State.Of.enterFault_total (s : State.Of W) (f : FaultKind) (info : Nat) : (s.enterFault f info).total = s.total := rfl
@[simp] theorem State.Of.enterFault_nsfl (s : State.Of W) (f : FaultKind) (info : Nat) : (s.enterFault f info).nsfl = s.nsfl := rfl
@[simp] theorem State.Of.enterFault_nnode (s : State.Of W) (f : FaultKind) (info : Nat) : (s.enterFault f info).nnode = s.nnode := rfl
@[simp] theorem State.Of.enterFault_root (s : State.Of W) (f : FaultKind) (info : Nat) : (s.enterFault f info).root = s.root := rfl
@[simp] theorem State.Of.enterFault_nbits (s : State.Of W) (f : FaultKind) (info : Nat) : (s.enterFault f info).nbits = 0#32 := rfl
@[simp] theorem State.Of.enterFault_pad (s : State.Of W) (f : FaultKind) (info : Nat) : (s.enterFault f info).pad = 0#4 := rfl
@[simp] theorem State.Of.enterFault_srch (s : State.Of W) (f : FaultKind) (info : Nat) : (s.enterFault f info).srch = s.srch := rfl
@[simp] theorem State.Of.enterFault_tgth (s : State.Of W) (f : FaultKind) (info : Nat) : (s.enterFault f info).tgth = s.tgth := rfl
@[simp] theorem State.Of.enterFault_tgtt (s : State.Of W) (f : FaultKind) (info : Nat) : (s.enterFault f info).tgtt = s.tgtt := rfl
@[simp] theorem State.Of.enterFault_ibcap (s : State.Of W) (f : FaultKind) (info : Nat) : (s.enterFault f info).ibcap = s.ibcap := rfl
@[simp] theorem State.Of.enterFault_obcap (s : State.Of W) (f : FaultKind) (info : Nat) : (s.enterFault f info).obcap = s.obcap := rfl
@[simp] theorem State.Of.enterFault_ib (s : State.Of W) (f : FaultKind) (info : Nat) : (s.enterFault f info).ib = s.ib := rfl
@[simp] theorem State.Of.enterFault_ob (s : State.Of W) (f : FaultKind) (info : Nat) : (s.enterFault f info).ob = s.ob := rfl
@[simp] theorem State.Of.enterFault_cnt (s : State.Of W) (f : FaultKind) (info : Nat) : (s.enterFault f info).cnt = s.cnt := rfl
@[simp] theorem State.Of.enterFault_sfl (s : State.Of W) (f : FaultKind) (info : Nat) : (s.enterFault f info).sfl = s.sfl := rfl
@[simp] theorem State.Of.enterFault_node (s : State.Of W) (f : FaultKind) (info : Nat) : (s.enterFault f info).node = s.node := rfl
@[simp] theorem State.Of.enterFault_code (s : State.Of W) (f : FaultKind) (info : Nat) : (s.enterFault f info).code = s.code := rfl
@[simp] theorem State.Of.enterFault_rsp (s : State.Of W) (f : FaultKind) (info : Nat) : (s.enterFault f info).rsp = some ⟨f.number, (BitVec.ofNat 32 info).setWidth 64⟩ := rfl
@[simp] theorem State.Of.enterFault_port (s : State.Of W) (f : FaultKind) (info : Nat) : (s.enterFault f info).port = s.port := rfl

/-! ### `State.Of.cleared` -/

@[simp] theorem State.Of.cleared_phase (s : State.Of W) : (s.cleared).phase = .idle := rfl
@[simp] theorem State.Of.cleared_mid (s : State.Of W) : (s.cleared).mid = false := rfl
@[simp] theorem State.Of.cleared_synth (s : State.Of W) : (s.cleared).synth = false := rfl
@[simp] theorem State.Of.cleared_err (s : State.Of W) : (s.cleared).err = 0#8 := rfl
@[simp] theorem State.Of.cleared_errinfo (s : State.Of W) : (s.cleared).errinfo = 0#32 := rfl
@[simp] theorem State.Of.cleared_ilen (s : State.Of W) : (s.cleared).ilen = 0#25 := rfl
@[simp] theorem State.Of.cleared_olen (s : State.Of W) : (s.cleared).olen = 0#25 := rfl
@[simp] theorem State.Of.cleared_total (s : State.Of W) : (s.cleared).total = 0#25 := rfl
@[simp] theorem State.Of.cleared_nsfl (s : State.Of W) : (s.cleared).nsfl = 0#9 := rfl
@[simp] theorem State.Of.cleared_nnode (s : State.Of W) : (s.cleared).nnode = 0#10 := rfl
@[simp] theorem State.Of.cleared_root (s : State.Of W) : (s.cleared).root = Config.nil := rfl
@[simp] theorem State.Of.cleared_nbits (s : State.Of W) : (s.cleared).nbits = 0#32 := rfl
@[simp] theorem State.Of.cleared_pad (s : State.Of W) : (s.cleared).pad = 0#4 := rfl
@[simp] theorem State.Of.cleared_srch (s : State.Of W) : (s.cleared).srch = 0#9 := rfl
@[simp] theorem State.Of.cleared_tgth (s : State.Of W) : (s.cleared).tgth = 0#10 := rfl
@[simp] theorem State.Of.cleared_tgtt (s : State.Of W) : (s.cleared).tgtt = 0#10 := rfl
@[simp] theorem State.Of.cleared_ibcap (s : State.Of W) : (s.cleared).ibcap = s.ibcap := rfl
@[simp] theorem State.Of.cleared_obcap (s : State.Of W) : (s.cleared).obcap = s.obcap := rfl
@[simp] theorem State.Of.cleared_ib (s : State.Of W) : (s.cleared).ib = [] := rfl
@[simp] theorem State.Of.cleared_ob (s : State.Of W) : (s.cleared).ob = [] := rfl
@[simp] theorem State.Of.cleared_cnt (s : State.Of W) : (s.cleared).cnt = [] := rfl
@[simp] theorem State.Of.cleared_sfl (s : State.Of W) : (s.cleared).sfl = [] := rfl
@[simp] theorem State.Of.cleared_node (s : State.Of W) : (s.cleared).node = [] := rfl
@[simp] theorem State.Of.cleared_code (s : State.Of W) : (s.cleared).code = [] := rfl
@[simp] theorem State.Of.cleared_rsp (s : State.Of W) : (s.cleared).rsp = s.rsp := rfl
@[simp] theorem State.Of.cleared_port (s : State.Of W) : (s.cleared).port = s.port := rfl

/-! ### `State.Of.pushed` -/

@[simp] theorem State.Of.pushed_phase (s : State.Of W) (b : Byte) : (s.pushed b).phase = s.phase := rfl
@[simp] theorem State.Of.pushed_mid (s : State.Of W) (b : Byte) : (s.pushed b).mid = s.mid := rfl
@[simp] theorem State.Of.pushed_synth (s : State.Of W) (b : Byte) : (s.pushed b).synth = s.synth := rfl
@[simp] theorem State.Of.pushed_err (s : State.Of W) (b : Byte) : (s.pushed b).err = s.err := rfl
@[simp] theorem State.Of.pushed_errinfo (s : State.Of W) (b : Byte) : (s.pushed b).errinfo = s.errinfo := rfl
@[simp] theorem State.Of.pushed_ilen (s : State.Of W) (b : Byte) : (s.pushed b).ilen = BitVec.ofNat 25 (s.ilen.toNat + 1) := rfl
@[simp] theorem State.Of.pushed_olen (s : State.Of W) (b : Byte) : (s.pushed b).olen = s.olen := rfl
@[simp] theorem State.Of.pushed_total (s : State.Of W) (b : Byte) : (s.pushed b).total = s.total := rfl
@[simp] theorem State.Of.pushed_nsfl (s : State.Of W) (b : Byte) : (s.pushed b).nsfl = s.nsfl := rfl
@[simp] theorem State.Of.pushed_nnode (s : State.Of W) (b : Byte) : (s.pushed b).nnode = s.nnode := rfl
@[simp] theorem State.Of.pushed_root (s : State.Of W) (b : Byte) : (s.pushed b).root = s.root := rfl
@[simp] theorem State.Of.pushed_nbits (s : State.Of W) (b : Byte) : (s.pushed b).nbits = s.nbits := rfl
@[simp] theorem State.Of.pushed_pad (s : State.Of W) (b : Byte) : (s.pushed b).pad = s.pad := rfl
@[simp] theorem State.Of.pushed_srch (s : State.Of W) (b : Byte) : (s.pushed b).srch = s.srch := rfl
@[simp] theorem State.Of.pushed_tgth (s : State.Of W) (b : Byte) : (s.pushed b).tgth = s.tgth := rfl
@[simp] theorem State.Of.pushed_tgtt (s : State.Of W) (b : Byte) : (s.pushed b).tgtt = s.tgtt := rfl
@[simp] theorem State.Of.pushed_ibcap (s : State.Of W) (b : Byte) : (s.pushed b).ibcap = s.ibcap := rfl
@[simp] theorem State.Of.pushed_obcap (s : State.Of W) (b : Byte) : (s.pushed b).obcap = s.obcap := rfl
@[simp] theorem State.Of.pushed_ib (s : State.Of W) (b : Byte) : (s.pushed b).ib = Memory.write unlistedByte s.ib s.ilen.toNat b := rfl
@[simp] theorem State.Of.pushed_ob (s : State.Of W) (b : Byte) : (s.pushed b).ob = s.ob := rfl
@[simp] theorem State.Of.pushed_cnt (s : State.Of W) (b : Byte) : (s.pushed b).cnt = s.cnt := rfl
@[simp] theorem State.Of.pushed_sfl (s : State.Of W) (b : Byte) : (s.pushed b).sfl = s.sfl := rfl
@[simp] theorem State.Of.pushed_node (s : State.Of W) (b : Byte) : (s.pushed b).node = s.node := rfl
@[simp] theorem State.Of.pushed_code (s : State.Of W) (b : Byte) : (s.pushed b).code = s.code := rfl
@[simp] theorem State.Of.pushed_rsp (s : State.Of W) (b : Byte) : (s.pushed b).rsp = s.rsp := rfl
@[simp] theorem State.Of.pushed_port (s : State.Of W) (b : Byte) : (s.pushed b).port = s.port := rfl

/-! ### `State.Of.discardList` -/

@[simp] theorem State.Of.discardList_phase (s : State.Of W) : (s.discardList).phase = s.phase := rfl
@[simp] theorem State.Of.discardList_mid (s : State.Of W) : (s.discardList).mid = s.mid := rfl
@[simp] theorem State.Of.discardList_synth (s : State.Of W) : (s.discardList).synth = false := rfl
@[simp] theorem State.Of.discardList_err (s : State.Of W) : (s.discardList).err = s.err := rfl
@[simp] theorem State.Of.discardList_errinfo (s : State.Of W) : (s.discardList).errinfo = s.errinfo := rfl
@[simp] theorem State.Of.discardList_ilen (s : State.Of W) : (s.discardList).ilen = s.ilen := rfl
@[simp] theorem State.Of.discardList_olen (s : State.Of W) : (s.discardList).olen = s.olen := rfl
@[simp] theorem State.Of.discardList_total (s : State.Of W) : (s.discardList).total = 0#25 := rfl
@[simp] theorem State.Of.discardList_nsfl (s : State.Of W) : (s.discardList).nsfl = 0#9 := rfl
@[simp] theorem State.Of.discardList_nnode (s : State.Of W) : (s.discardList).nnode = 0#10 := rfl
@[simp] theorem State.Of.discardList_root (s : State.Of W) : (s.discardList).root = Config.nil := rfl
@[simp] theorem State.Of.discardList_nbits (s : State.Of W) : (s.discardList).nbits = s.nbits := rfl
@[simp] theorem State.Of.discardList_pad (s : State.Of W) : (s.discardList).pad = s.pad := rfl
@[simp] theorem State.Of.discardList_srch (s : State.Of W) : (s.discardList).srch = 0#9 := rfl
@[simp] theorem State.Of.discardList_tgth (s : State.Of W) : (s.discardList).tgth = 0#10 := rfl
@[simp] theorem State.Of.discardList_tgtt (s : State.Of W) : (s.discardList).tgtt = 0#10 := rfl
@[simp] theorem State.Of.discardList_ibcap (s : State.Of W) : (s.discardList).ibcap = s.ibcap := rfl
@[simp] theorem State.Of.discardList_obcap (s : State.Of W) : (s.discardList).obcap = s.obcap := rfl
@[simp] theorem State.Of.discardList_ib (s : State.Of W) : (s.discardList).ib = s.ib := rfl
@[simp] theorem State.Of.discardList_ob (s : State.Of W) : (s.discardList).ob = s.ob := rfl
@[simp] theorem State.Of.discardList_cnt (s : State.Of W) : (s.discardList).cnt = [] := rfl
@[simp] theorem State.Of.discardList_sfl (s : State.Of W) : (s.discardList).sfl = s.sfl := rfl
@[simp] theorem State.Of.discardList_node (s : State.Of W) : (s.discardList).node = s.node := rfl
@[simp] theorem State.Of.discardList_code (s : State.Of W) : (s.discardList).code = [] := rfl
@[simp] theorem State.Of.discardList_rsp (s : State.Of W) : (s.discardList).rsp = s.rsp := rfl
@[simp] theorem State.Of.discardList_port (s : State.Of W) : (s.discardList).port = s.port := rfl

/-! ### `State.Of.analyzed` -/

@[simp] theorem State.Of.analyzed_phase [Inhabited W] [DecidableEq W] (wa : WArith W) (s : State.Of W) : (s.analyzed wa).phase = .listed := rfl
@[simp] theorem State.Of.analyzed_mid [Inhabited W] [DecidableEq W] (wa : WArith W) (s : State.Of W) : (s.analyzed wa).mid = s.mid := rfl
@[simp] theorem State.Of.analyzed_synth [Inhabited W] [DecidableEq W] (wa : WArith W) (s : State.Of W) : (s.analyzed wa).synth = synthFlag (talliedEntries wa (tally s.cnt s.ibBytes) s.ilen.toNat) := rfl
@[simp] theorem State.Of.analyzed_err [Inhabited W] [DecidableEq W] (wa : WArith W) (s : State.Of W) : (s.analyzed wa).err = s.err := rfl
@[simp] theorem State.Of.analyzed_errinfo [Inhabited W] [DecidableEq W] (wa : WArith W) (s : State.Of W) : (s.analyzed wa).errinfo = s.errinfo := rfl
@[simp] theorem State.Of.analyzed_ilen [Inhabited W] [DecidableEq W] (wa : WArith W) (s : State.Of W) : (s.analyzed wa).ilen = s.ilen := rfl
@[simp] theorem State.Of.analyzed_olen [Inhabited W] [DecidableEq W] (wa : WArith W) (s : State.Of W) : (s.analyzed wa).olen = s.olen := rfl
@[simp] theorem State.Of.analyzed_total [Inhabited W] [DecidableEq W] (wa : WArith W) (s : State.Of W) : (s.analyzed wa).total = s.ilen := rfl
@[simp] theorem State.Of.analyzed_nsfl [Inhabited W] [DecidableEq W] (wa : WArith W) (s : State.Of W) : (s.analyzed wa).nsfl = BitVec.ofNat 9
      (sortEntries wa (withSynthetic wa (talliedEntries wa (tally s.cnt s.ibBytes) s.ilen.toNat))).length := rfl
@[simp] theorem State.Of.analyzed_nnode [Inhabited W] [DecidableEq W] (wa : WArith W) (s : State.Of W) : (s.analyzed wa).nnode = s.nnode := rfl
@[simp] theorem State.Of.analyzed_root [Inhabited W] [DecidableEq W] (wa : WArith W) (s : State.Of W) : (s.analyzed wa).root = s.root := rfl
@[simp] theorem State.Of.analyzed_nbits [Inhabited W] [DecidableEq W] (wa : WArith W) (s : State.Of W) : (s.analyzed wa).nbits = s.nbits := rfl
@[simp] theorem State.Of.analyzed_pad [Inhabited W] [DecidableEq W] (wa : WArith W) (s : State.Of W) : (s.analyzed wa).pad = s.pad := rfl
@[simp] theorem State.Of.analyzed_srch [Inhabited W] [DecidableEq W] (wa : WArith W) (s : State.Of W) : (s.analyzed wa).srch = s.srch := rfl
@[simp] theorem State.Of.analyzed_tgth [Inhabited W] [DecidableEq W] (wa : WArith W) (s : State.Of W) : (s.analyzed wa).tgth = s.tgth := rfl
@[simp] theorem State.Of.analyzed_tgtt [Inhabited W] [DecidableEq W] (wa : WArith W) (s : State.Of W) : (s.analyzed wa).tgtt = s.tgtt := rfl
@[simp] theorem State.Of.analyzed_ibcap [Inhabited W] [DecidableEq W] (wa : WArith W) (s : State.Of W) : (s.analyzed wa).ibcap = s.ibcap := rfl
@[simp] theorem State.Of.analyzed_obcap [Inhabited W] [DecidableEq W] (wa : WArith W) (s : State.Of W) : (s.analyzed wa).obcap = s.obcap := rfl
@[simp] theorem State.Of.analyzed_ib [Inhabited W] [DecidableEq W] (wa : WArith W) (s : State.Of W) : (s.analyzed wa).ib = s.ib := rfl
@[simp] theorem State.Of.analyzed_ob [Inhabited W] [DecidableEq W] (wa : WArith W) (s : State.Of W) : (s.analyzed wa).ob = s.ob := rfl
@[simp] theorem State.Of.analyzed_cnt [Inhabited W] [DecidableEq W] (wa : WArith W) (s : State.Of W) : (s.analyzed wa).cnt = tally s.cnt s.ibBytes := rfl
@[simp] theorem State.Of.analyzed_sfl [Inhabited W] [DecidableEq W] (wa : WArith W) (s : State.Of W) : (s.analyzed wa).sfl = Memory.writeFrom unlistedEntry s.sfl 0
      (sortEntries wa (withSynthetic wa (talliedEntries wa (tally s.cnt s.ibBytes) s.ilen.toNat))) := rfl
@[simp] theorem State.Of.analyzed_node [Inhabited W] [DecidableEq W] (wa : WArith W) (s : State.Of W) : (s.analyzed wa).node = s.node := rfl
@[simp] theorem State.Of.analyzed_code [Inhabited W] [DecidableEq W] (wa : WArith W) (s : State.Of W) : (s.analyzed wa).code = s.code := rfl
@[simp] theorem State.Of.analyzed_rsp [Inhabited W] [DecidableEq W] (wa : WArith W) (s : State.Of W) : (s.analyzed wa).rsp = s.rsp := rfl
@[simp] theorem State.Of.analyzed_port [Inhabited W] [DecidableEq W] (wa : WArith W) (s : State.Of W) : (s.analyzed wa).port = s.port := rfl

/-! ### `State.Of.withQueues` -/

@[simp] theorem State.Of.withQueues_phase (s : State.Of W) (q : TreeQueues W) : (s.withQueues q).phase = s.phase := rfl
@[simp] theorem State.Of.withQueues_mid (s : State.Of W) (q : TreeQueues W) : (s.withQueues q).mid = s.mid := rfl
@[simp] theorem State.Of.withQueues_synth (s : State.Of W) (q : TreeQueues W) : (s.withQueues q).synth = s.synth := rfl
@[simp] theorem State.Of.withQueues_err (s : State.Of W) (q : TreeQueues W) : (s.withQueues q).err = s.err := rfl
@[simp] theorem State.Of.withQueues_errinfo (s : State.Of W) (q : TreeQueues W) : (s.withQueues q).errinfo = s.errinfo := rfl
@[simp] theorem State.Of.withQueues_ilen (s : State.Of W) (q : TreeQueues W) : (s.withQueues q).ilen = s.ilen := rfl
@[simp] theorem State.Of.withQueues_olen (s : State.Of W) (q : TreeQueues W) : (s.withQueues q).olen = s.olen := rfl
@[simp] theorem State.Of.withQueues_total (s : State.Of W) (q : TreeQueues W) : (s.withQueues q).total = s.total := rfl
@[simp] theorem State.Of.withQueues_nsfl (s : State.Of W) (q : TreeQueues W) : (s.withQueues q).nsfl = s.nsfl := rfl
@[simp] theorem State.Of.withQueues_nnode (s : State.Of W) (q : TreeQueues W) : (s.withQueues q).nnode = s.nnode := rfl
@[simp] theorem State.Of.withQueues_root (s : State.Of W) (q : TreeQueues W) : (s.withQueues q).root = s.root := rfl
@[simp] theorem State.Of.withQueues_nbits (s : State.Of W) (q : TreeQueues W) : (s.withQueues q).nbits = s.nbits := rfl
@[simp] theorem State.Of.withQueues_pad (s : State.Of W) (q : TreeQueues W) : (s.withQueues q).pad = s.pad := rfl
@[simp] theorem State.Of.withQueues_srch (s : State.Of W) (q : TreeQueues W) : (s.withQueues q).srch = BitVec.ofNat 9 q.srch := rfl
@[simp] theorem State.Of.withQueues_tgth (s : State.Of W) (q : TreeQueues W) : (s.withQueues q).tgth = BitVec.ofNat 10 q.tgth := rfl
@[simp] theorem State.Of.withQueues_tgtt (s : State.Of W) (q : TreeQueues W) : (s.withQueues q).tgtt = BitVec.ofNat 10 q.tgtt := rfl
@[simp] theorem State.Of.withQueues_ibcap (s : State.Of W) (q : TreeQueues W) : (s.withQueues q).ibcap = s.ibcap := rfl
@[simp] theorem State.Of.withQueues_obcap (s : State.Of W) (q : TreeQueues W) : (s.withQueues q).obcap = s.obcap := rfl
@[simp] theorem State.Of.withQueues_ib (s : State.Of W) (q : TreeQueues W) : (s.withQueues q).ib = s.ib := rfl
@[simp] theorem State.Of.withQueues_ob (s : State.Of W) (q : TreeQueues W) : (s.withQueues q).ob = s.ob := rfl
@[simp] theorem State.Of.withQueues_cnt (s : State.Of W) (q : TreeQueues W) : (s.withQueues q).cnt = s.cnt := rfl
@[simp] theorem State.Of.withQueues_sfl (s : State.Of W) (q : TreeQueues W) : (s.withQueues q).sfl = s.sfl := rfl
@[simp] theorem State.Of.withQueues_node (s : State.Of W) (q : TreeQueues W) : (s.withQueues q).node = q.node := rfl
@[simp] theorem State.Of.withQueues_code (s : State.Of W) (q : TreeQueues W) : (s.withQueues q).code = [] := rfl
@[simp] theorem State.Of.withQueues_rsp (s : State.Of W) (q : TreeQueues W) : (s.withQueues q).rsp = s.rsp := rfl
@[simp] theorem State.Of.withQueues_port (s : State.Of W) (q : TreeQueues W) : (s.withQueues q).port = s.port := rfl

/-! ### `State.Of.treeBuilt` -/

@[simp] theorem State.Of.treeBuilt_phase (s : State.Of W) (q : TreeQueues W) : (s.treeBuilt q).phase = .treed := rfl
@[simp] theorem State.Of.treeBuilt_mid (s : State.Of W) (q : TreeQueues W) : (s.treeBuilt q).mid = s.mid := rfl
@[simp] theorem State.Of.treeBuilt_synth (s : State.Of W) (q : TreeQueues W) : (s.treeBuilt q).synth = s.synth := rfl
@[simp] theorem State.Of.treeBuilt_err (s : State.Of W) (q : TreeQueues W) : (s.treeBuilt q).err = s.err := rfl
@[simp] theorem State.Of.treeBuilt_errinfo (s : State.Of W) (q : TreeQueues W) : (s.treeBuilt q).errinfo = s.errinfo := rfl
@[simp] theorem State.Of.treeBuilt_ilen (s : State.Of W) (q : TreeQueues W) : (s.treeBuilt q).ilen = s.ilen := rfl
@[simp] theorem State.Of.treeBuilt_olen (s : State.Of W) (q : TreeQueues W) : (s.treeBuilt q).olen = s.olen := rfl
@[simp] theorem State.Of.treeBuilt_total (s : State.Of W) (q : TreeQueues W) : (s.treeBuilt q).total = s.total := rfl
@[simp] theorem State.Of.treeBuilt_nsfl (s : State.Of W) (q : TreeQueues W) : (s.treeBuilt q).nsfl = s.nsfl := rfl
@[simp] theorem State.Of.treeBuilt_nnode (s : State.Of W) (q : TreeQueues W) : (s.treeBuilt q).nnode = BitVec.ofNat 10 q.tgtt := rfl
@[simp] theorem State.Of.treeBuilt_root (s : State.Of W) (q : TreeQueues W) : (s.treeBuilt q).root = BitVec.ofNat 9 q.tgth := rfl
@[simp] theorem State.Of.treeBuilt_nbits (s : State.Of W) (q : TreeQueues W) : (s.treeBuilt q).nbits = s.nbits := rfl
@[simp] theorem State.Of.treeBuilt_pad (s : State.Of W) (q : TreeQueues W) : (s.treeBuilt q).pad = s.pad := rfl
@[simp] theorem State.Of.treeBuilt_srch (s : State.Of W) (q : TreeQueues W) : (s.treeBuilt q).srch = BitVec.ofNat 9 q.srch := rfl
@[simp] theorem State.Of.treeBuilt_tgth (s : State.Of W) (q : TreeQueues W) : (s.treeBuilt q).tgth = BitVec.ofNat 10 q.tgth := rfl
@[simp] theorem State.Of.treeBuilt_tgtt (s : State.Of W) (q : TreeQueues W) : (s.treeBuilt q).tgtt = BitVec.ofNat 10 q.tgtt := rfl
@[simp] theorem State.Of.treeBuilt_ibcap (s : State.Of W) (q : TreeQueues W) : (s.treeBuilt q).ibcap = s.ibcap := rfl
@[simp] theorem State.Of.treeBuilt_obcap (s : State.Of W) (q : TreeQueues W) : (s.treeBuilt q).obcap = s.obcap := rfl
@[simp] theorem State.Of.treeBuilt_ib (s : State.Of W) (q : TreeQueues W) : (s.treeBuilt q).ib = s.ib := rfl
@[simp] theorem State.Of.treeBuilt_ob (s : State.Of W) (q : TreeQueues W) : (s.treeBuilt q).ob = s.ob := rfl
@[simp] theorem State.Of.treeBuilt_cnt (s : State.Of W) (q : TreeQueues W) : (s.treeBuilt q).cnt = s.cnt := rfl
@[simp] theorem State.Of.treeBuilt_sfl (s : State.Of W) (q : TreeQueues W) : (s.treeBuilt q).sfl = s.sfl := rfl
@[simp] theorem State.Of.treeBuilt_node (s : State.Of W) (q : TreeQueues W) : (s.treeBuilt q).node = q.node := rfl
@[simp] theorem State.Of.treeBuilt_code (s : State.Of W) (q : TreeQueues W) : (s.treeBuilt q).code = [] := rfl
@[simp] theorem State.Of.treeBuilt_rsp (s : State.Of W) (q : TreeQueues W) : (s.treeBuilt q).rsp = s.rsp := rfl
@[simp] theorem State.Of.treeBuilt_port (s : State.Of W) (q : TreeQueues W) : (s.treeBuilt q).port = s.port := rfl

/-! ### `State.Of.treeFailed` -/

@[simp] theorem State.Of.treeFailed_phase (s : State.Of W) (q : TreeQueues W) : (s.treeFailed q).phase = s.phase := rfl
@[simp] theorem State.Of.treeFailed_mid (s : State.Of W) (q : TreeQueues W) : (s.treeFailed q).mid = s.mid := rfl
@[simp] theorem State.Of.treeFailed_synth (s : State.Of W) (q : TreeQueues W) : (s.treeFailed q).synth = s.synth := rfl
@[simp] theorem State.Of.treeFailed_err (s : State.Of W) (q : TreeQueues W) : (s.treeFailed q).err = s.err := rfl
@[simp] theorem State.Of.treeFailed_errinfo (s : State.Of W) (q : TreeQueues W) : (s.treeFailed q).errinfo = s.errinfo := rfl
@[simp] theorem State.Of.treeFailed_ilen (s : State.Of W) (q : TreeQueues W) : (s.treeFailed q).ilen = s.ilen := rfl
@[simp] theorem State.Of.treeFailed_olen (s : State.Of W) (q : TreeQueues W) : (s.treeFailed q).olen = s.olen := rfl
@[simp] theorem State.Of.treeFailed_total (s : State.Of W) (q : TreeQueues W) : (s.treeFailed q).total = s.total := rfl
@[simp] theorem State.Of.treeFailed_nsfl (s : State.Of W) (q : TreeQueues W) : (s.treeFailed q).nsfl = s.nsfl := rfl
@[simp] theorem State.Of.treeFailed_nnode (s : State.Of W) (q : TreeQueues W) : (s.treeFailed q).nnode = 0#10 := rfl
@[simp] theorem State.Of.treeFailed_root (s : State.Of W) (q : TreeQueues W) : (s.treeFailed q).root = Config.nil := rfl
@[simp] theorem State.Of.treeFailed_nbits (s : State.Of W) (q : TreeQueues W) : (s.treeFailed q).nbits = s.nbits := rfl
@[simp] theorem State.Of.treeFailed_pad (s : State.Of W) (q : TreeQueues W) : (s.treeFailed q).pad = s.pad := rfl
@[simp] theorem State.Of.treeFailed_srch (s : State.Of W) (q : TreeQueues W) : (s.treeFailed q).srch = BitVec.ofNat 9 q.srch := rfl
@[simp] theorem State.Of.treeFailed_tgth (s : State.Of W) (q : TreeQueues W) : (s.treeFailed q).tgth = BitVec.ofNat 10 q.tgth := rfl
@[simp] theorem State.Of.treeFailed_tgtt (s : State.Of W) (q : TreeQueues W) : (s.treeFailed q).tgtt = BitVec.ofNat 10 q.tgtt := rfl
@[simp] theorem State.Of.treeFailed_ibcap (s : State.Of W) (q : TreeQueues W) : (s.treeFailed q).ibcap = s.ibcap := rfl
@[simp] theorem State.Of.treeFailed_obcap (s : State.Of W) (q : TreeQueues W) : (s.treeFailed q).obcap = s.obcap := rfl
@[simp] theorem State.Of.treeFailed_ib (s : State.Of W) (q : TreeQueues W) : (s.treeFailed q).ib = s.ib := rfl
@[simp] theorem State.Of.treeFailed_ob (s : State.Of W) (q : TreeQueues W) : (s.treeFailed q).ob = s.ob := rfl
@[simp] theorem State.Of.treeFailed_cnt (s : State.Of W) (q : TreeQueues W) : (s.treeFailed q).cnt = s.cnt := rfl
@[simp] theorem State.Of.treeFailed_sfl (s : State.Of W) (q : TreeQueues W) : (s.treeFailed q).sfl = s.sfl := rfl
@[simp] theorem State.Of.treeFailed_node (s : State.Of W) (q : TreeQueues W) : (s.treeFailed q).node = q.node := rfl
@[simp] theorem State.Of.treeFailed_code (s : State.Of W) (q : TreeQueues W) : (s.treeFailed q).code = [] := rfl
@[simp] theorem State.Of.treeFailed_rsp (s : State.Of W) (q : TreeQueues W) : (s.treeFailed q).rsp = s.rsp := rfl
@[simp] theorem State.Of.treeFailed_port (s : State.Of W) (q : TreeQueues W) : (s.treeFailed q).port = s.port := rfl

/-! ### `State.Of.noOutput` -/

@[simp] theorem State.Of.noOutput_phase (s : State.Of W) : (s.noOutput).phase = s.phase := rfl
@[simp] theorem State.Of.noOutput_mid (s : State.Of W) : (s.noOutput).mid = s.mid := rfl
@[simp] theorem State.Of.noOutput_synth (s : State.Of W) : (s.noOutput).synth = s.synth := rfl
@[simp] theorem State.Of.noOutput_err (s : State.Of W) : (s.noOutput).err = s.err := rfl
@[simp] theorem State.Of.noOutput_errinfo (s : State.Of W) : (s.noOutput).errinfo = s.errinfo := rfl
@[simp] theorem State.Of.noOutput_ilen (s : State.Of W) : (s.noOutput).ilen = s.ilen := rfl
@[simp] theorem State.Of.noOutput_olen (s : State.Of W) : (s.noOutput).olen = 0#25 := rfl
@[simp] theorem State.Of.noOutput_total (s : State.Of W) : (s.noOutput).total = s.total := rfl
@[simp] theorem State.Of.noOutput_nsfl (s : State.Of W) : (s.noOutput).nsfl = s.nsfl := rfl
@[simp] theorem State.Of.noOutput_nnode (s : State.Of W) : (s.noOutput).nnode = s.nnode := rfl
@[simp] theorem State.Of.noOutput_root (s : State.Of W) : (s.noOutput).root = s.root := rfl
@[simp] theorem State.Of.noOutput_nbits (s : State.Of W) : (s.noOutput).nbits = 0#32 := rfl
@[simp] theorem State.Of.noOutput_pad (s : State.Of W) : (s.noOutput).pad = 0#4 := rfl
@[simp] theorem State.Of.noOutput_srch (s : State.Of W) : (s.noOutput).srch = s.srch := rfl
@[simp] theorem State.Of.noOutput_tgth (s : State.Of W) : (s.noOutput).tgth = s.tgth := rfl
@[simp] theorem State.Of.noOutput_tgtt (s : State.Of W) : (s.noOutput).tgtt = s.tgtt := rfl
@[simp] theorem State.Of.noOutput_ibcap (s : State.Of W) : (s.noOutput).ibcap = s.ibcap := rfl
@[simp] theorem State.Of.noOutput_obcap (s : State.Of W) : (s.noOutput).obcap = s.obcap := rfl
@[simp] theorem State.Of.noOutput_ib (s : State.Of W) : (s.noOutput).ib = s.ib := rfl
@[simp] theorem State.Of.noOutput_ob (s : State.Of W) : (s.noOutput).ob = s.ob := rfl
@[simp] theorem State.Of.noOutput_cnt (s : State.Of W) : (s.noOutput).cnt = s.cnt := rfl
@[simp] theorem State.Of.noOutput_sfl (s : State.Of W) : (s.noOutput).sfl = s.sfl := rfl
@[simp] theorem State.Of.noOutput_node (s : State.Of W) : (s.noOutput).node = s.node := rfl
@[simp] theorem State.Of.noOutput_code (s : State.Of W) : (s.noOutput).code = s.code := rfl
@[simp] theorem State.Of.noOutput_rsp (s : State.Of W) : (s.noOutput).rsp = s.rsp := rfl
@[simp] theorem State.Of.noOutput_port (s : State.Of W) : (s.noOutput).port = s.port := rfl

/-! ### `State.Of.packed` -/

@[simp] theorem State.Of.packed_phase (s : State.Of W) (bits : BitString) : (s.packed bits).phase = s.phase := rfl
@[simp] theorem State.Of.packed_mid (s : State.Of W) (bits : BitString) : (s.packed bits).mid = s.mid := rfl
@[simp] theorem State.Of.packed_synth (s : State.Of W) (bits : BitString) : (s.packed bits).synth = s.synth := rfl
@[simp] theorem State.Of.packed_err (s : State.Of W) (bits : BitString) : (s.packed bits).err = s.err := rfl
@[simp] theorem State.Of.packed_errinfo (s : State.Of W) (bits : BitString) : (s.packed bits).errinfo = s.errinfo := rfl
@[simp] theorem State.Of.packed_ilen (s : State.Of W) (bits : BitString) : (s.packed bits).ilen = s.ilen := rfl
@[simp] theorem State.Of.packed_olen (s : State.Of W) (bits : BitString) : (s.packed bits).olen = BitVec.ofNat 25 ((padded bits).length / 8) := rfl
@[simp] theorem State.Of.packed_total (s : State.Of W) (bits : BitString) : (s.packed bits).total = s.total := rfl
@[simp] theorem State.Of.packed_nsfl (s : State.Of W) (bits : BitString) : (s.packed bits).nsfl = s.nsfl := rfl
@[simp] theorem State.Of.packed_nnode (s : State.Of W) (bits : BitString) : (s.packed bits).nnode = s.nnode := rfl
@[simp] theorem State.Of.packed_root (s : State.Of W) (bits : BitString) : (s.packed bits).root = s.root := rfl
@[simp] theorem State.Of.packed_nbits (s : State.Of W) (bits : BitString) : (s.packed bits).nbits = BitVec.ofNat 32 bits.length := rfl
@[simp] theorem State.Of.packed_pad (s : State.Of W) (bits : BitString) : (s.packed bits).pad = BitVec.ofNat 4 (padding bits.length) := rfl
@[simp] theorem State.Of.packed_srch (s : State.Of W) (bits : BitString) : (s.packed bits).srch = s.srch := rfl
@[simp] theorem State.Of.packed_tgth (s : State.Of W) (bits : BitString) : (s.packed bits).tgth = s.tgth := rfl
@[simp] theorem State.Of.packed_tgtt (s : State.Of W) (bits : BitString) : (s.packed bits).tgtt = s.tgtt := rfl
@[simp] theorem State.Of.packed_ibcap (s : State.Of W) (bits : BitString) : (s.packed bits).ibcap = s.ibcap := rfl
@[simp] theorem State.Of.packed_obcap (s : State.Of W) (bits : BitString) : (s.packed bits).obcap = s.obcap := rfl
@[simp] theorem State.Of.packed_ib (s : State.Of W) (bits : BitString) : (s.packed bits).ib = s.ib := rfl
@[simp] theorem State.Of.packed_ob (s : State.Of W) (bits : BitString) : (s.packed bits).ob = Memory.writeFrom unlistedByte s.ob 0 (groupBytes (padded bits)) := rfl
@[simp] theorem State.Of.packed_cnt (s : State.Of W) (bits : BitString) : (s.packed bits).cnt = s.cnt := rfl
@[simp] theorem State.Of.packed_sfl (s : State.Of W) (bits : BitString) : (s.packed bits).sfl = s.sfl := rfl
@[simp] theorem State.Of.packed_node (s : State.Of W) (bits : BitString) : (s.packed bits).node = s.node := rfl
@[simp] theorem State.Of.packed_code (s : State.Of W) (bits : BitString) : (s.packed bits).code = s.code := rfl
@[simp] theorem State.Of.packed_rsp (s : State.Of W) (bits : BitString) : (s.packed bits).rsp = s.rsp := rfl
@[simp] theorem State.Of.packed_port (s : State.Of W) (bits : BitString) : (s.packed bits).port = s.port := rfl

/-! ### `State.Of.withDecoded` -/

@[simp] theorem State.Of.withDecoded_phase (s : State.Of W) (out : List Byte) : (s.withDecoded out).phase = s.phase := rfl
@[simp] theorem State.Of.withDecoded_mid (s : State.Of W) (out : List Byte) : (s.withDecoded out).mid = false := rfl
@[simp] theorem State.Of.withDecoded_synth (s : State.Of W) (out : List Byte) : (s.withDecoded out).synth = s.synth := rfl
@[simp] theorem State.Of.withDecoded_err (s : State.Of W) (out : List Byte) : (s.withDecoded out).err = s.err := rfl
@[simp] theorem State.Of.withDecoded_errinfo (s : State.Of W) (out : List Byte) : (s.withDecoded out).errinfo = s.errinfo := rfl
@[simp] theorem State.Of.withDecoded_ilen (s : State.Of W) (out : List Byte) : (s.withDecoded out).ilen = s.ilen := rfl
@[simp] theorem State.Of.withDecoded_olen (s : State.Of W) (out : List Byte) : (s.withDecoded out).olen = 0#25 := rfl
@[simp] theorem State.Of.withDecoded_total (s : State.Of W) (out : List Byte) : (s.withDecoded out).total = s.total := rfl
@[simp] theorem State.Of.withDecoded_nsfl (s : State.Of W) (out : List Byte) : (s.withDecoded out).nsfl = s.nsfl := rfl
@[simp] theorem State.Of.withDecoded_nnode (s : State.Of W) (out : List Byte) : (s.withDecoded out).nnode = s.nnode := rfl
@[simp] theorem State.Of.withDecoded_root (s : State.Of W) (out : List Byte) : (s.withDecoded out).root = s.root := rfl
@[simp] theorem State.Of.withDecoded_nbits (s : State.Of W) (out : List Byte) : (s.withDecoded out).nbits = 0#32 := rfl
@[simp] theorem State.Of.withDecoded_pad (s : State.Of W) (out : List Byte) : (s.withDecoded out).pad = 0#4 := rfl
@[simp] theorem State.Of.withDecoded_srch (s : State.Of W) (out : List Byte) : (s.withDecoded out).srch = s.srch := rfl
@[simp] theorem State.Of.withDecoded_tgth (s : State.Of W) (out : List Byte) : (s.withDecoded out).tgth = s.tgth := rfl
@[simp] theorem State.Of.withDecoded_tgtt (s : State.Of W) (out : List Byte) : (s.withDecoded out).tgtt = s.tgtt := rfl
@[simp] theorem State.Of.withDecoded_ibcap (s : State.Of W) (out : List Byte) : (s.withDecoded out).ibcap = s.ibcap := rfl
@[simp] theorem State.Of.withDecoded_obcap (s : State.Of W) (out : List Byte) : (s.withDecoded out).obcap = s.obcap := rfl
@[simp] theorem State.Of.withDecoded_ib (s : State.Of W) (out : List Byte) : (s.withDecoded out).ib = s.ib := rfl
@[simp] theorem State.Of.withDecoded_ob (s : State.Of W) (out : List Byte) : (s.withDecoded out).ob = Memory.writeFrom unlistedByte s.ob 0 out := rfl
@[simp] theorem State.Of.withDecoded_cnt (s : State.Of W) (out : List Byte) : (s.withDecoded out).cnt = s.cnt := rfl
@[simp] theorem State.Of.withDecoded_sfl (s : State.Of W) (out : List Byte) : (s.withDecoded out).sfl = s.sfl := rfl
@[simp] theorem State.Of.withDecoded_node (s : State.Of W) (out : List Byte) : (s.withDecoded out).node = s.node := rfl
@[simp] theorem State.Of.withDecoded_code (s : State.Of W) (out : List Byte) : (s.withDecoded out).code = s.code := rfl
@[simp] theorem State.Of.withDecoded_rsp (s : State.Of W) (out : List Byte) : (s.withDecoded out).rsp = s.rsp := rfl
@[simp] theorem State.Of.withDecoded_port (s : State.Of W) (out : List Byte) : (s.withDecoded out).port = s.port := rfl

/-! ### `State.Of.decoded` -/

@[simp] theorem State.Of.decoded_phase (s : State.Of W) (out : List Byte) (len disc : Nat) (cur : BitVec 9) : (s.decoded out len disc cur).phase = s.phase := rfl
@[simp] theorem State.Of.decoded_mid (s : State.Of W) (out : List Byte) (len disc : Nat) (cur : BitVec 9) : (s.decoded out len disc cur).mid = midFlag cur s.root := rfl
@[simp] theorem State.Of.decoded_synth (s : State.Of W) (out : List Byte) (len disc : Nat) (cur : BitVec 9) : (s.decoded out len disc cur).synth = s.synth := rfl
@[simp] theorem State.Of.decoded_err (s : State.Of W) (out : List Byte) (len disc : Nat) (cur : BitVec 9) : (s.decoded out len disc cur).err = s.err := rfl
@[simp] theorem State.Of.decoded_errinfo (s : State.Of W) (out : List Byte) (len disc : Nat) (cur : BitVec 9) : (s.decoded out len disc cur).errinfo = s.errinfo := rfl
@[simp] theorem State.Of.decoded_ilen (s : State.Of W) (out : List Byte) (len disc : Nat) (cur : BitVec 9) : (s.decoded out len disc cur).ilen = s.ilen := rfl
@[simp] theorem State.Of.decoded_olen (s : State.Of W) (out : List Byte) (len disc : Nat) (cur : BitVec 9) : (s.decoded out len disc cur).olen = BitVec.ofNat 25 out.length := rfl
@[simp] theorem State.Of.decoded_total (s : State.Of W) (out : List Byte) (len disc : Nat) (cur : BitVec 9) : (s.decoded out len disc cur).total = s.total := rfl
@[simp] theorem State.Of.decoded_nsfl (s : State.Of W) (out : List Byte) (len disc : Nat) (cur : BitVec 9) : (s.decoded out len disc cur).nsfl = s.nsfl := rfl
@[simp] theorem State.Of.decoded_nnode (s : State.Of W) (out : List Byte) (len disc : Nat) (cur : BitVec 9) : (s.decoded out len disc cur).nnode = s.nnode := rfl
@[simp] theorem State.Of.decoded_root (s : State.Of W) (out : List Byte) (len disc : Nat) (cur : BitVec 9) : (s.decoded out len disc cur).root = s.root := rfl
@[simp] theorem State.Of.decoded_nbits (s : State.Of W) (out : List Byte) (len disc : Nat) (cur : BitVec 9) : (s.decoded out len disc cur).nbits = BitVec.ofNat 32 len := rfl
@[simp] theorem State.Of.decoded_pad (s : State.Of W) (out : List Byte) (len disc : Nat) (cur : BitVec 9) : (s.decoded out len disc cur).pad = BitVec.ofNat 4 disc := rfl
@[simp] theorem State.Of.decoded_srch (s : State.Of W) (out : List Byte) (len disc : Nat) (cur : BitVec 9) : (s.decoded out len disc cur).srch = s.srch := rfl
@[simp] theorem State.Of.decoded_tgth (s : State.Of W) (out : List Byte) (len disc : Nat) (cur : BitVec 9) : (s.decoded out len disc cur).tgth = s.tgth := rfl
@[simp] theorem State.Of.decoded_tgtt (s : State.Of W) (out : List Byte) (len disc : Nat) (cur : BitVec 9) : (s.decoded out len disc cur).tgtt = s.tgtt := rfl
@[simp] theorem State.Of.decoded_ibcap (s : State.Of W) (out : List Byte) (len disc : Nat) (cur : BitVec 9) : (s.decoded out len disc cur).ibcap = s.ibcap := rfl
@[simp] theorem State.Of.decoded_obcap (s : State.Of W) (out : List Byte) (len disc : Nat) (cur : BitVec 9) : (s.decoded out len disc cur).obcap = s.obcap := rfl
@[simp] theorem State.Of.decoded_ib (s : State.Of W) (out : List Byte) (len disc : Nat) (cur : BitVec 9) : (s.decoded out len disc cur).ib = s.ib := rfl
@[simp] theorem State.Of.decoded_ob (s : State.Of W) (out : List Byte) (len disc : Nat) (cur : BitVec 9) : (s.decoded out len disc cur).ob = Memory.writeFrom unlistedByte s.ob 0 out := rfl
@[simp] theorem State.Of.decoded_cnt (s : State.Of W) (out : List Byte) (len disc : Nat) (cur : BitVec 9) : (s.decoded out len disc cur).cnt = s.cnt := rfl
@[simp] theorem State.Of.decoded_sfl (s : State.Of W) (out : List Byte) (len disc : Nat) (cur : BitVec 9) : (s.decoded out len disc cur).sfl = s.sfl := rfl
@[simp] theorem State.Of.decoded_node (s : State.Of W) (out : List Byte) (len disc : Nat) (cur : BitVec 9) : (s.decoded out len disc cur).node = s.node := rfl
@[simp] theorem State.Of.decoded_code (s : State.Of W) (out : List Byte) (len disc : Nat) (cur : BitVec 9) : (s.decoded out len disc cur).code = s.code := rfl
@[simp] theorem State.Of.decoded_rsp (s : State.Of W) (out : List Byte) (len disc : Nat) (cur : BitVec 9) : (s.decoded out len disc cur).rsp = s.rsp := rfl
@[simp] theorem State.Of.decoded_port (s : State.Of W) (out : List Byte) (len disc : Nat) (cur : BitVec 9) : (s.decoded out len disc cur).port = s.port := rfl

/-! ### `State.withFetchWord` -/

@[simp] theorem State.withFetchWord_phase (s : State) (nbits w : Nat) : (s.withFetchWord nbits w).phase = s.phase := rfl
@[simp] theorem State.withFetchWord_mid (s : State) (nbits w : Nat) : (s.withFetchWord nbits w).mid = s.mid := rfl
@[simp] theorem State.withFetchWord_synth (s : State) (nbits w : Nat) : (s.withFetchWord nbits w).synth = s.synth := rfl
@[simp] theorem State.withFetchWord_err (s : State) (nbits w : Nat) : (s.withFetchWord nbits w).err = s.err := rfl
@[simp] theorem State.withFetchWord_errinfo (s : State) (nbits w : Nat) : (s.withFetchWord nbits w).errinfo = s.errinfo := rfl
@[simp] theorem State.withFetchWord_ilen (s : State) (nbits w : Nat) : (s.withFetchWord nbits w).ilen = s.ilen := rfl
@[simp] theorem State.withFetchWord_olen (s : State) (nbits w : Nat) : (s.withFetchWord nbits w).olen = s.olen := rfl
@[simp] theorem State.withFetchWord_total (s : State) (nbits w : Nat) : (s.withFetchWord nbits w).total = s.total := rfl
@[simp] theorem State.withFetchWord_nsfl (s : State) (nbits w : Nat) : (s.withFetchWord nbits w).nsfl = s.nsfl := rfl
@[simp] theorem State.withFetchWord_nnode (s : State) (nbits w : Nat) : (s.withFetchWord nbits w).nnode = s.nnode := rfl
@[simp] theorem State.withFetchWord_root (s : State) (nbits w : Nat) : (s.withFetchWord nbits w).root = s.root := rfl
@[simp] theorem State.withFetchWord_nbits (s : State) (nbits w : Nat) : (s.withFetchWord nbits w).nbits = s.nbits := rfl
@[simp] theorem State.withFetchWord_pad (s : State) (nbits w : Nat) : (s.withFetchWord nbits w).pad = s.pad := rfl
@[simp] theorem State.withFetchWord_srch (s : State) (nbits w : Nat) : (s.withFetchWord nbits w).srch = s.srch := rfl
@[simp] theorem State.withFetchWord_tgth (s : State) (nbits w : Nat) : (s.withFetchWord nbits w).tgth = s.tgth := rfl
@[simp] theorem State.withFetchWord_tgtt (s : State) (nbits w : Nat) : (s.withFetchWord nbits w).tgtt = s.tgtt := rfl
@[simp] theorem State.withFetchWord_ibcap (s : State) (nbits w : Nat) : (s.withFetchWord nbits w).ibcap = s.ibcap := rfl
@[simp] theorem State.withFetchWord_obcap (s : State) (nbits w : Nat) : (s.withFetchWord nbits w).obcap = s.obcap := rfl
@[simp] theorem State.withFetchWord_ib (s : State) (nbits w : Nat) : (s.withFetchWord nbits w).ib = s.ib := rfl
@[simp] theorem State.withFetchWord_ob (s : State) (nbits w : Nat) : (s.withFetchWord nbits w).ob = s.ob := rfl
@[simp] theorem State.withFetchWord_cnt (s : State) (nbits w : Nat) : (s.withFetchWord nbits w).cnt = s.cnt := rfl
@[simp] theorem State.withFetchWord_sfl (s : State) (nbits w : Nat) : (s.withFetchWord nbits w).sfl = s.sfl := rfl
@[simp] theorem State.withFetchWord_node (s : State) (nbits w : Nat) : (s.withFetchWord nbits w).node = s.node := rfl
@[simp] theorem State.withFetchWord_code (s : State) (nbits w : Nat) : (s.withFetchWord nbits w).code = s.code := rfl
@[simp] theorem State.withFetchWord_rsp (s : State) (nbits w : Nat) : (s.withFetchWord nbits w).rsp = s.rsp := rfl
@[simp] theorem State.withFetchWord_port (s : State) (nbits w : Nat) : (s.withFetchWord nbits w).port = .command (BitVec.ofNat 32 (w % 2 ^ nbits)) :: s.port := rfl

/-! ### What two names for one thing have in common -/

@[simp] theorem State.Of.ibAt_answer (s : State.Of W) (c : BitVec 8) (d : Data) (i : Nat) : (s.answer c d).ibAt i = s.ibAt i := rfl
@[simp] theorem State.Of.obAt_answer (s : State.Of W) (c : BitVec 8) (d : Data) (i : Nat) : (s.answer c d).obAt i = s.obAt i := rfl
@[simp] theorem State.Of.cntAt_answer (s : State.Of W) (c : BitVec 8) (d : Data) (b : Byte) : (s.answer c d).cntAt b = s.cntAt b := rfl
@[simp] theorem State.Of.sflAt_answer [Inhabited W] (s : State.Of W) (c : BitVec 8) (d : Data) (i : Nat) : (s.answer c d).sflAt i = s.sflAt i := rfl
@[simp] theorem State.Of.nodeAt_answer [Inhabited W] (s : State.Of W) (c : BitVec 8) (d : Data) (i : Nat) : (s.answer c d).nodeAt i = s.nodeAt i := rfl
@[simp] theorem State.Of.codeAt_answer (s : State.Of W) (c : BitVec 8) (d : Data) (b : Byte) : (s.answer c d).codeAt b = s.codeAt b := rfl
@[simp] theorem State.Of.ibBytes_answer (s : State.Of W) (c : BitVec 8) (d : Data) : (s.answer c d).ibBytes = s.ibBytes := rfl
@[simp] theorem State.Of.obBytes_answer (s : State.Of W) (c : BitVec 8) (d : Data) : (s.answer c d).obBytes = s.obBytes := rfl
@[simp] theorem State.Of.sflList_answer [Inhabited W] (s : State.Of W) (c : BitVec 8) (d : Data) : (s.answer c d).sflList = s.sflList := rfl
@[simp] theorem State.Of.ibBytes_discardList (s : State.Of W) : s.discardList.ibBytes = s.ibBytes := rfl

/-- The second answer is the one that counts. -/
@[simp] theorem State.Of.answer_answer (s : State.Of W) (c c' : BitVec 8) (d d' : Data) :
    (s.answer c d).answer c' d' = s.answer c' d' := rfl

/-- The reset state cleared is the reset state, and clearing twice is clearing once. -/
@[simp] theorem State.Of.cleared_reset : State.reset.cleared = State.reset := rfl
@[simp] theorem State.Of.cleared_cleared (s : State.Of W) : s.cleared.cleared = s.cleared := rfl

end Sys2Proof.Machine
end

