-- ==== Sys2Proof/Laws/Ops.lean ====
section
/-! SUPPORT. For each shared operation, and for each meaning, one lemma that says everything it can do: if it answers a next state,
then one of these cases holds. The provers cite these and do not unfold the operations. -/

namespace Sys2Proof.Machine

variable {W : Type}

/-! ### Answers -/

@[simp] theorem respond_eq (data : Nat) (s : State.Of W) :
    respond data s = .next (s.answer 0x00#8 (BitVec.ofNat 64 data)) := rfl

@[simp] theorem reject_eq (r : Rejection) (s : State.Of W) : reject r s = .next (s.answer r.number 0#64) := rfl

@[simp] theorem raise_eq (f : FaultKind) (info : Nat) (s : State.Of W) : raise f info s = .next (s.enterFault f info) := rfl

@[simp] theorem next_inj {s t : State.Of W} :
    ((.next s : Result W) = .next t) ↔ s = t := ⟨fun h => by injection h, fun h => by rw [h]⟩

theorem withElement_next {sp : Space} {i : Nat} {s t : State.Of W} {k : Result W} (h : withElement sp i s k = .next t) :
    i < sp.size s ∧ k = .next t := by
  unfold withElement at h
  split at h
  · exact ⟨‹_›, h⟩
  · cases h

theorem withElement_of_lt {sp : Space} {i : Nat} {s : State.Of W} (k : Result W) (h : i < sp.size s) : withElement sp i s k = k :=
  if_pos h

theorem withElements_next {sp : Space} {n : Nat} {s t : State.Of W} {k : Result W} (h : withElements sp n s k = .next t) :
    n ≤ sp.size s ∧ k = .next t := by
  unfold withElements at h
  split at h
  · exact ⟨‹_›, h⟩
  · cases h

theorem withElements_of_le {sp : Space} {n : Nat} {s : State.Of W} (k : Result W) (h : n ≤ sp.size s) : withElements sp n s k = k :=
  if_pos h

theorem readElement_next {sp : Space} {valid idx value : Nat} {s t : State.Of W}
    (h : readElement sp valid idx value s = .next t) :
    valid ≤ idx ∧ t = s.answer 0x82#8 0#64 ∨
      idx < valid ∧ idx < sp.size s ∧ t = s.answer 0x00#8 (BitVec.ofNat 64 value) := by
  unfold readElement at h
  split at h
  · exact .inl ⟨‹_›, (next_inj.1 h).symm⟩
  · exact .inr ⟨by omega, (withElement_next h).1, (next_inj.1 (withElement_next h).2).symm⟩

/-! ### The phase check -/

theorem whenLegal_of_legal {i : Instr} {s : State.Of W} (k : Result W) (h : legal i s.phase = true) : whenLegal i s k = k := if_pos h

theorem whenLegal_of_not {i : Instr} {s : State.Of W} (k : Result W) (h : legal i s.phase = false) :
    whenLegal i s k = .next (s.answer 0x81#8 0#64) := if_neg (by simp [h])

theorem whenLegal_next {i : Instr} {s t : State.Of W} {k : Result W} (h : whenLegal i s k = .next t) :
    legal i s.phase = true ∧ k = .next t ∨ legal i s.phase = false ∧ t = s.answer 0x81#8 0#64 := by
  unfold whenLegal at h
  split at h
  · exact .inl ⟨‹_›, h⟩
  · exact .inr ⟨by simp_all, (next_inj.1 h).symm⟩

theorem Phase.notFault_iff {p : Phase} : p.notFault = true ↔ p ≠ .fault := by cases p <;> decide

theorem Phase.hasList_iff {p : Phase} : p.hasList = true ↔ p ∈ [Phase.listed, .treed, .coded] := by cases p <;> decide

theorem Phase.hasTree_iff {p : Phase} : p.hasTree = true ↔ p ∈ [Phase.treed, .coded] := by cases p <;> decide

theorem Phase.hasCodes_iff {p : Phase} : p.hasCodes = true ↔ p = .coded := by cases p <;> decide

/-! ### The command port -/

theorem fetch_of_nil {s : State.Of W} (h : s.port = []) : fetch s = none := by simp [fetch, h]

theorem fetch_of_cons {s : State.Of W} {x : HostInput} {rest : List HostInput} (h : s.port = x :: rest) :
    fetch s = some (x, { s with port := rest }) := by simp [fetch, h]

/-- Everything a step can be, whatever the meanings of the commands. -/
theorem stepBy_cases (run : Instr → State.Of W → Result W) (s : State.Of W) :
    s.port = [] ∧ stepBy run s = .next s ∨
    (∃ rest, s.port = .reset :: rest ∧
      stepBy run s = .next { ({ s with port := rest } : State.Of W).cleared with rsp := none }) ∨
    (∃ w rest i, s.port = .command w :: rest ∧ decode w = .ok i ∧ stepBy run s = run i { s with port := rest }) ∨
    ∃ w rest e, s.port = .command w :: rest ∧ decode w = .error e ∧
      stepBy run s = .next (({ s with port := rest } : State.Of W).answer 0x80#8 0#64) := by
  match hp : s.port with
  | [] => exact .inl ⟨rfl, by simp [stepBy, fetch_of_nil hp, wait]⟩
  | .reset :: rest => exact .inr (.inl ⟨rest, rfl, by simp [stepBy, fetch_of_cons hp, resetInput]⟩)
  | .command w :: rest =>
    match hd : decode w with
    | .ok i => exact .inr (.inr (.inl ⟨w, rest, i, rfl, hd, by simp [stepBy, fetch_of_cons hp, hd]⟩))
    | .error e =>
      exact .inr (.inr (.inr ⟨w, rest, e, rfl, hd,
        by simp [stepBy, fetch_of_cons hp, hd, illegalCommand, Rejection.number]⟩))

/-- Everything a step of this hardware can be. -/
theorem step_cases (s : State) :
    s.port = [] ∧ step s = .next s ∨
    (∃ rest, s.port = .reset :: rest ∧
      step s = .next { ({ s with port := rest } : State).cleared with rsp := none }) ∨
    (∃ w rest i, s.port = .command w :: rest ∧ decode w = .ok i ∧ step s = exec i { s with port := rest }) ∨
    ∃ w rest e, s.port = .command w :: rest ∧ decode w = .error e ∧
      step s = .next (({ s with port := rest } : State).answer 0x80#8 0#64) := stepBy_cases exec s

/-- Everything a step under a weight arithmetic can be. -/
theorem stepWith_cases [Inhabited W] [DecidableEq W] (wa : WArith W) (s : State.Of W) :
    s.port = [] ∧ stepWith wa s = .next s ∨
    (∃ rest, s.port = .reset :: rest ∧
      stepWith wa s = .next { ({ s with port := rest } : State.Of W).cleared with rsp := none }) ∨
    (∃ w rest i, s.port = .command w :: rest ∧ decode w = .ok i ∧
      stepWith wa s = execWith wa i { s with port := rest }) ∨
    ∃ w rest e, s.port = .command w :: rest ∧ decode w = .error e ∧
      stepWith wa s = .next (({ s with port := rest } : State.Of W).answer 0x80#8 0#64) := stepBy_cases (execWith wa) s

/-- This hardware is the instance `binary64`. -/
@[simp] theorem execWith_binary64 (i : Instr) (s : State) : execWith binary64 i s = exec i s := by cases i <;> rfl

@[simp] theorem stepWith_binary64 (s : State) : stepWith binary64 s = step s := by
  have : (fun i s => execWith binary64 i s) = exec := funext fun i => funext fun s => execWith_binary64 i s
  exact congrArg (fun run => stepBy run s) this

theorem unlistedEntry_weight : (unlistedEntry : Entry) = ⟨0#8, 0#64⟩ := rfl

theorem unlistedNode_weight : (unlistedNode : Node) = ⟨false, 0#8, 0#64, 0x1FF#9, 0x1FF#9⟩ := rfl

/-! ### The meanings, one lemma each -/

theorem execNop_next {s t : State.Of W} (h : execNop s = .next t) : t = s.answer 0x00#8 0#64 := by
  rcases whenLegal_next h with ⟨-, h⟩ | ⟨hl, -⟩
  · exact (next_inj.1 h).symm
  · simp [legal] at hl

theorem execClr_next {s t : State.Of W} (h : execClr s = .next t) : t = s.cleared.answer 0x00#8 0#64 := by
  rcases whenLegal_next h with ⟨-, h⟩ | ⟨hl, -⟩
  · exact (next_inj.1 h).symm
  · simp [legal] at hl

theorem execIbClr_next {s t : State.Of W} (h : execIbClr s = .next t) :
    s.phase ≠ .fault ∧ t = ({ s with ilen := 0#25 } : State.Of W).answer 0x00#8 0#64 ∨
      s.phase = .fault ∧ t = s.answer 0x81#8 0#64 := by
  rcases whenLegal_next h with ⟨hl, h⟩ | ⟨hl, h⟩
  · exact .inl ⟨Phase.notFault_iff.1 hl, (next_inj.1 h).symm⟩
  · exact .inr ⟨by cases hp : s.phase <;> simp_all [legal, Phase.notFault], h⟩

theorem execIbPush_next {b : Byte} {s t : State.Of W} (h : execIbPush b s = .next t) :
    s.phase = .fault ∧ t = s.answer 0x81#8 0#64 ∨
      s.phase ≠ .fault ∧ s.ibcap.toNat ≤ s.ilen.toNat ∧ t = s.answer 0x83#8 0#64 ∨
      s.phase ≠ .fault ∧ s.ilen.toNat < s.ibcap.toNat ∧
        t = (s.pushed b).answer 0x00#8 (BitVec.ofNat 64 (s.pushed b).ilen.toNat) := by
  rcases whenLegal_next h with ⟨hl, h⟩ | ⟨hl, h⟩
  · split at h
    · exact .inr (.inl ⟨Phase.notFault_iff.1 hl, ‹_›, (next_inj.1 h).symm⟩)
    · exact .inr (.inr ⟨Phase.notFault_iff.1 hl, by omega, (next_inj.1 h).symm⟩)
  · exact .inl ⟨by cases hp : s.phase <;> simp_all [legal, Phase.notFault], h⟩

/-- A read command that is legal everywhere is its body. -/
theorem whenLegal_read {i : Instr} (s : State.Of W) (k : Result W) (hi : isReadCommand i = true) : whenLegal i s k = k :=
  whenLegal_of_legal k (by cases i <;> simp_all [isReadCommand, legal])

/-- Every read command answers in the unchanged state, under every weight arithmetic. -/
theorem execWith_read_next [Inhabited W] [DecidableEq W] {wa : WArith W} {i : Instr} {s t : State.Of W} (hi : isReadCommand i = true) (h : execWith wa i s = .next t) :
    ∃ c d, t = s.answer c d ∧ (c = 0x00#8 ∨ c = 0x82#8 ∧ d = 0#64) := by
  have finish : ∀ {sp valid idx value}, readElement sp valid idx value s = .next t →
      ∃ c d, t = s.answer c d ∧ (c = 0x00#8 ∨ c = 0x82#8 ∧ d = 0#64) := fun h => by
    rcases readElement_next h with ⟨-, rfl⟩ | ⟨-, -, rfl⟩
    · exact ⟨_, _, rfl, .inr ⟨rfl, rfl⟩⟩
    · exact ⟨_, _, rfl, .inl rfl⟩
  have plain : ∀ {v}, respond v s = .next t → ∃ c d, t = s.answer c d ∧ (c = 0x00#8 ∨ c = 0x82#8 ∧ d = 0#64) :=
    fun h => ⟨_, _, (next_inj.1 h).symm, .inl rfl⟩
  cases i <;> simp only [isReadCommand, Bool.false_eq_true] at hi
  case ibRd idx => exact finish ((whenLegal_read (i := .ibRd idx) s _ rfl).symm.trans h)
  case obRd idx => exact finish ((whenLegal_read (i := .obRd idx) s _ rfl).symm.trans h)
  case rdReg r =>
    have h := (whenLegal_read (i := .rdReg r) s _ rfl).symm.trans h
    split at h
    · exact plain h
    · exact ⟨_, _, (next_inj.1 h).symm, .inr ⟨rfl, rfl⟩⟩
  case rdCnt sym => exact plain ((whenLegal_read (i := .rdCnt sym) s _ rfl).symm.trans h)
  case rdSfls idx => exact finish ((whenLegal_read (i := .rdSfls idx) s _ rfl).symm.trans h)
  case rdSflp idx => exact finish ((whenLegal_read (i := .rdSflp idx) s _ rfl).symm.trans h)
  case rdNk idx => exact finish ((whenLegal_read (i := .rdNk idx) s _ rfl).symm.trans h)
  case rdNw idx => exact finish ((whenLegal_read (i := .rdNw idx) s _ rfl).symm.trans h)
  case rdNl idx => exact finish ((whenLegal_read (i := .rdNl idx) s _ rfl).symm.trans h)
  case rdNr idx => exact finish ((whenLegal_read (i := .rdNr idx) s _ rfl).symm.trans h)
  case rdClen sym => exact plain ((whenLegal_read (i := .rdClen sym) s _ rfl).symm.trans h)
  case rdCbits sym k => exact plain ((whenLegal_read (i := .rdCbits sym k) s _ rfl).symm.trans h)

/-- Every read command answers in the unchanged state. -/
theorem exec_read_next {i : Instr} {s t : State} (hi : isReadCommand i = true) (h : exec i s = .next t) :
    ∃ c d, t = s.answer c d ∧ (c = 0x00#8 ∨ c = 0x82#8 ∧ d = 0#64) :=
  execWith_read_next (wa := binary64) hi ((execWith_binary64 i s).trans h)

theorem execFaRunWith_next [Inhabited W] [DecidableEq W] {wa : WArith W} {s t : State.Of W} (h : execFaRunWith wa s = .next t) :
    s.phase = .fault ∧ t = s.answer 0x81#8 0#64 ∨
      s.phase ≠ .fault ∧ s.ilen.toNat = 0 ∧ t = s.discardList.enterFault .emptyInput 0 ∨
      s.phase ≠ .fault ∧ 0 < s.ilen.toNat ∧ s.ilen.toNat ≤ s.ibcap.toNat ∧
        t = (s.discardList.analyzed wa).answer 0x00#8 (BitVec.ofNat 64 (s.discardList.analyzed wa).nsfl.toNat) := by
  rcases whenLegal_next h with ⟨hl, h⟩ | ⟨hl, h⟩
  · split at h
    · exact .inr (.inl ⟨Phase.notFault_iff.1 hl, ‹_›, (next_inj.1 h).symm⟩)
    · exact .inr (.inr ⟨Phase.notFault_iff.1 hl, by omega, (withElements_next h).1, (next_inj.1 (withElements_next h).2).symm⟩)
  · exact .inl ⟨by cases hp : s.phase <;> simp_all [legal, Phase.notFault], h⟩

theorem execTbRunWith_next [Inhabited W] [DecidableEq W] {wa : WArith W} {s t : State.Of W} (h : execTbRunWith wa s = .next t) :
    s.phase ∉ [Phase.listed, .treed, .coded] ∧ t = s.answer 0x81#8 0#64 ∨
      s.phase ∈ [Phase.listed, .treed, .coded] ∧ s.nsfl.toNat ≤ 256 ∧
        ((∃ q, mergeAll wa s.nsfl.toNat (loadLeaves s.node s.sflList) = .ok q ∧
            t = (s.treeBuilt q).answer 0x00#8 (BitVec.ofNat 64 (s.treeBuilt q).root.toNat)) ∨
          ∃ q, mergeAll wa s.nsfl.toNat (loadLeaves s.node s.sflList) = .error q ∧
            t = (s.treeFailed q).enterFault .invalidTreeState 0) := by
  rcases whenLegal_next h with ⟨hl, h⟩ | ⟨hl, h⟩
  · refine .inr ⟨Phase.hasList_iff.1 hl, (withElements_next h).1, ?_⟩
    have h := (withElements_next h).2
    split at h
    · exact .inl ⟨_, ‹_›, (next_inj.1 h).symm⟩
    · exact .inr ⟨_, ‹_›, (next_inj.1 h).symm⟩
  · exact .inl ⟨fun hp => by have := Phase.hasList_iff.2 hp; simp_all [legal], h⟩

theorem execCgRun_next [Inhabited W] {s t : State.Of W} (h : execCgRun s = .next t) :
    s.phase ∉ [Phase.treed, .coded] ∧ t = s.answer 0x81#8 0#64 ∨
      s.phase ∈ [Phase.treed, .coded] ∧ ∃ code, visit s.node Config.visitFrames s.root.toNat [] [] = .ok code ∧
        t = ({ s with code := code, phase := .coded } : State.Of W).answer 0x00#8 (BitVec.ofNat 64 s.nsfl.toNat) := by
  rcases whenLegal_next h with ⟨hl, h⟩ | ⟨hl, h⟩
  · refine .inr ⟨Phase.hasTree_iff.1 hl, ?_⟩
    split at h
    · exact ⟨_, ‹_›, (next_inj.1 h).symm⟩
    · cases h
  · exact .inl ⟨fun hp => by have := Phase.hasTree_iff.2 hp; simp_all [legal], h⟩

theorem execBpRun_next {s t : State.Of W} (h : execBpRun s = .next t) :
    s.phase ≠ .coded ∧ t = s.answer 0x81#8 0#64 ∨
      s.phase = .coded ∧ s.ilen.toNat ≤ s.ibcap.toNat ∧
        ((∃ j sym, concatCodes s.code s.obcap.toNat s.ibBytes 0 [] = .unencodable j sym ∧
            t = s.noOutput.enterFault .unencodableSymbol (j * 256 + sym.toNat)) ∨
          (∃ j, concatCodes s.code s.obcap.toNat s.ibBytes 0 [] = .overflow j ∧ t = s.noOutput.enterFault .capacity j) ∨
          ∃ bits, concatCodes s.code s.obcap.toNat s.ibBytes 0 [] = .bits bits ∧
            (padded bits).length / 8 ≤ s.obcap.toNat ∧
            t = (s.noOutput.packed bits).answer 0x00#8 (BitVec.ofNat 64 (s.noOutput.packed bits).olen.toNat)) := by
  rcases whenLegal_next h with ⟨hl, h⟩ | ⟨hl, h⟩
  · refine .inr ⟨Phase.hasCodes_iff.1 hl, (withElements_next h).1, ?_⟩
    have h := (withElements_next h).2
    split at h
    · exact .inl ⟨_, _, ‹_›, (next_inj.1 h).symm⟩
    · exact .inr (.inl ⟨_, ‹_›, (next_inj.1 h).symm⟩)
    · exact .inr (.inr ⟨_, ‹_›, (withElements_next h).1, (next_inj.1 (withElements_next h).2).symm⟩)
  · exact .inl ⟨fun hp => by have := Phase.hasCodes_iff.2 hp; simp_all [legal], h⟩

/-- The payload DEC.RUN walks (R222). -/
def payloadOf (s : State.Of W) : BitString := (streamBits s.ibBytes).drop (discarded (streamBits s.ibBytes))

theorem execDecRun_next [Inhabited W] {s t : State.Of W} (h : execDecRun s = .next t) :
    s.phase ∉ [Phase.treed, .coded] ∧ t = s.answer 0x81#8 0#64 ∨
      s.phase ∈ [Phase.treed, .coded] ∧ s.ilen.toNat = 0 ∧ t = (s.withDecoded []).enterFault .malformedBitstring 0 ∨
      s.phase ∈ [Phase.treed, .coded] ∧ 0 < s.ilen.toNat ∧ s.ilen.toNat ≤ s.ibcap.toNat ∧
        ((∃ out cur, walk s.node s.root s.obcap.toNat (payloadOf s) 0 s.root [] = .done out cur ∧
            t = (s.decoded out (payloadOf s).length (discarded (streamBits s.ibBytes)) cur).answer 0x00#8
              (BitVec.ofNat 64
                (s.decoded out (payloadOf s).length (discarded (streamBits s.ibBytes)) cur).olen.toNat)) ∨
          (∃ out p, walk s.node s.root s.obcap.toNat (payloadOf s) 0 s.root [] = .corrupt out p ∧
            t = (s.withDecoded out).enterFault .corruptStream p) ∨
          ∃ out p, walk s.node s.root s.obcap.toNat (payloadOf s) 0 s.root [] = .full out p ∧
            t = (s.withDecoded out).enterFault .capacity p) := by
  rcases whenLegal_next h with ⟨hl, h⟩ | ⟨hl, h⟩
  · split at h
    · exact .inr (.inl ⟨Phase.hasTree_iff.1 hl, ‹_›, (next_inj.1 h).symm⟩)
    · refine .inr (.inr ⟨Phase.hasTree_iff.1 hl, by omega, (withElements_next h).1, ?_⟩)
      have h := (withElements_next h).2
      simp only at h
      split at h
      · exact .inl ⟨_, _, ‹_›, (next_inj.1 h).symm⟩
      · exact .inr (.inl ⟨_, _, ‹_›, (next_inj.1 h).symm⟩)
      · exact .inr (.inr ⟨_, _, ‹_›, (next_inj.1 h).symm⟩)
      · cases h
  · exact .inl ⟨fun hp => by have := Phase.hasTree_iff.2 hp; simp_all [legal], h⟩

/-! ### The merge loop -/

/-- What `popMin` does, when it takes a node. -/
theorem popMin_some [Inhabited W] {wa : WArith W} {n : Nat} {q q' : TreeQueues W} {r : Nat} (h : popMin wa n q = some (r, q')) :
    q.srch < n ∧ r = q.srch ∧ q' = { q with srch := q.srch + 1 } ∨
      q.tgth < q.tgtt ∧ r = q.tgth ∧ q' = { q with tgth := q.tgth + 1 } := by
  unfold popMin at h
  split at h
  · split at h
    · split at h <;> simp only [Option.some.injEq, Prod.mk.injEq] at h <;> obtain ⟨rfl, rfl⟩ := h
      · exact .inr ⟨‹_›, rfl, rfl⟩
      · exact .inl ⟨‹_›, rfl, rfl⟩
    · simp only [Option.some.injEq, Prod.mk.injEq] at h
      obtain ⟨rfl, rfl⟩ := h
      exact .inl ⟨‹_›, rfl, rfl⟩
  · split at h
    · simp only [Option.some.injEq, Prod.mk.injEq] at h
      obtain ⟨rfl, rfl⟩ := h
      exact .inr ⟨‹_›, rfl, rfl⟩
    · cases h

theorem popMin_none [Inhabited W] {wa : WArith W} {n : Nat} {q : TreeQueues W} (h : popMin wa n q = none) : n ≤ q.srch ∧ q.tgtt ≤ q.tgth := by
  unfold popMin at h
  split at h
  · split at h
    · split at h <;> cases h
    · cases h
  · split at h
    · cases h
    · omega

/-- What one iteration does, when it completes: two pops and one push. -/
theorem mergeOnce_ok [Inhabited W] [DecidableEq W] {wa : WArith W} {n : Nat} {q q' : TreeQueues W} (h : mergeOnce wa n q = .ok q') :
    ∃ a b q1 q2, popMin wa n q = some (a, q1) ∧ popMin wa n q1 = some (b, q2) ∧ q' = pushInternal wa q2 a b := by
  unfold mergeOnce at h
  split at h
  · cases h
  · split at h
    · cases h
    · injection h with h
      exact ⟨_, _, _, _, ‹_›, ‹_›, h.symm⟩

/-! ### Small facts about bits and weights -/

@[simp] theorem length_bitsOf (b : Byte) : (bitsOf b).length = 8 := rfl

theorem padding_pos (len : Nat) : 1 ≤ padding len ∧ padding len ≤ 8 := by unfold padding; omega

theorem length_padded (bits : BitString) : (padded bits).length = bits.length + padding bits.length := by
  have := padding_pos bits.length
  simp only [padded, List.length_append, List.length_replicate, List.length_cons]
  omega

theorem wval_zero : wval 0#64 = 0 := by decide

end Sys2Proof.Machine
end

