-- ==== Sys2Proof/Laws/PerInstr.lean ====
section
/-! SUPPORT. The family OpcodeField: both fields of every well-formed command's word are the ones of 30_encoding.md R70 and R71. -/

namespace Sys2Proof.Laws.OpcodeField

/-- Bits 31 to 24 of the word hold the opcode, bits 23 to 0 the operand field, which is not cut (R70, R71). -/
def Statement (i : Instr) : Prop :=
  i.wellFormed = true → opField (encode i) = opcodeOf i ∧ immField (encode i) = operandOf i

theorem opcode_fits (i : Instr) : opcodeOf i < 2 ^ 8 := by cases i <;> simp [opcodeOf]

/-- The opcode field of two joined fields is the first, whatever the operand. -/
theorem opField_append (op : BitVec 8) (imm : BitVec 24) : opField (op ++ imm) = op.toNat := by
  unfold opField
  congr 1
  ext k hk
  simp only [BitVec.getElem_extractLsb', BitVec.getLsbD_append]
  rw [if_neg (by omega), show 24 + k - 24 = k by omega]
  exact BitVec.getLsbD_eq_getElem hk

/-- The operand field of two joined fields is the second. -/
theorem immField_append (op : BitVec 8) (imm : BitVec 24) : immField (op ++ imm) = imm.toNat := by
  unfold immField
  congr 1
  ext k hk
  simp only [BitVec.getElem_extractLsb', BitVec.getLsbD_append]
  rw [if_pos (by omega), show 0 + k = k by omega]
  exact BitVec.getLsbD_eq_getElem hk

theorem opField_encode (i : Instr) : opField (encode i) = opcodeOf i := by
  rw [encode, opField_append, BitVec.toNat_ofNat, Nat.mod_eq_of_lt (opcode_fits i)]

theorem operand_fits (i : Instr) (h : i.wellFormed = true) : operandOf i < 2 ^ 24 := by
  cases i <;> simp [Instr.wellFormed, operandOf, fitsIndex, fitsByte, fitsChunk] at h ⊢ <;> omega

theorem immField_encode (i : Instr) (h : i.wellFormed = true) : immField (encode i) = operandOf i := by
  rw [encode, immField_append, BitVec.toNat_ofNat, Nat.mod_eq_of_lt (operand_fits i h)]

theorem fields_encode (i : Instr) : Statement i := fun h => ⟨opField_encode i, immField_encode i h⟩

theorem nop : Statement .nop := fields_encode .nop
theorem clr : Statement .clr := fields_encode .clr
theorem ibClr : Statement .ibClr := fields_encode .ibClr
theorem ibPush (b : Byte) : Statement (.ibPush b) := fields_encode (.ibPush b)
theorem ibRd (idx : Nat) : Statement (.ibRd idx) := fields_encode (.ibRd idx)
theorem obRd (idx : Nat) : Statement (.obRd idx) := fields_encode (.obRd idx)
theorem faRun : Statement .faRun := fields_encode .faRun
theorem tbRun : Statement .tbRun := fields_encode .tbRun
theorem cgRun : Statement .cgRun := fields_encode .cgRun
theorem bpRun : Statement .bpRun := fields_encode .bpRun
theorem decRun : Statement .decRun := fields_encode .decRun
theorem rdReg (r : Nat) : Statement (.rdReg r) := fields_encode (.rdReg r)
theorem rdCnt (sym : Byte) : Statement (.rdCnt sym) := fields_encode (.rdCnt sym)
theorem rdSfls (idx : Nat) : Statement (.rdSfls idx) := fields_encode (.rdSfls idx)
theorem rdSflp (idx : Nat) : Statement (.rdSflp idx) := fields_encode (.rdSflp idx)
theorem rdNk (idx : Nat) : Statement (.rdNk idx) := fields_encode (.rdNk idx)
theorem rdNw (idx : Nat) : Statement (.rdNw idx) := fields_encode (.rdNw idx)
theorem rdNl (idx : Nat) : Statement (.rdNl idx) := fields_encode (.rdNl idx)
theorem rdNr (idx : Nat) : Statement (.rdNr idx) := fields_encode (.rdNr idx)
theorem rdClen (sym : Byte) : Statement (.rdClen sym) := fields_encode (.rdClen sym)
theorem rdCbits (sym : Byte) (k : Nat) : Statement (.rdCbits sym k) := fields_encode (.rdCbits sym k)

end Sys2Proof.Laws.OpcodeField
end

