-- ==== Sys2Proof/Tests/Slice0.lean ====
section
/-! SUPPORT. The model's own tests: well-formedness, decoding, single steps against the vectors of spec/95_test_vectors.md and the
examples of the rules, and for each statement of Certificates/Slice0/Obligations.lean that has hypotheses a state that meets them. -/

-- Each of these theorems runs the kernel on a small machine; one at a time they need one thread's memory.
set_option Elab.async false

namespace Sys2Proof.Tests

open Sys2Proof.Machine

/-! ### Helpers: small states -/

/-- The next state of a result; a fresh state if there is none. -/
def after {W : Type} : Result W → State.Of W
  | .next t => t
  | .fault _ => .fresh Config.defaultIbcap Config.defaultObcap
  | .refused _ => .fresh Config.defaultIbcap Config.defaultObcap

/-- The response a result has, as code and data. -/
def answer {W : Type} : Result W → Option (Nat × Nat)
  | .next t => t.rsp.map (fun r => (r.code.toNat, r.data.toNat))
  | .fault _ => none
  | .refused _ => none

/-- The result is a next state. -/
def isNext {W : Type} : Result W → Bool
  | .next _ => true
  | .fault _ => false
  | .refused _ => false

/-- The fault a result stops with. -/
def stop : Result → Option Fault
  | .next _ => none
  | .fault f => some f
  | .refused _ => none

/-- The state with other bytes in IB. -/
def withInput {W : Type} (s : State.Of W) (bytes : List Byte) : State.Of W :=
  { s with ib := Memory.writeFrom unlistedByte [] 0 bytes, ilen := BitVec.ofNat 25 bytes.length }

/-- IB loaded from reset. -/
def loaded (bytes : List Byte) : State := withInput State.reset bytes
/-- After FA.RUN. -/
def listed (bytes : List Byte) : State := after (execFaRun (loaded bytes))
/-- After FA.RUN and TB.RUN. -/
def treed (bytes : List Byte) : State := after (execTbRun (listed bytes))
/-- After FA.RUN, TB.RUN and CG.RUN. -/
def coded (bytes : List Byte) : State := after (execCgRun (treed bytes))
/-- After the whole encoder. -/
def encoded (bytes : List Byte) : State := after (execBpRun (coded bytes))
/-- In FAULT. -/
def faulted : State := after (execFaRun State.reset)

/-- Exact rational arithmetic, the other instance of WARITH that R123 names. A weight reads back as the nearest binary64 pattern. -/
def exactRational : WArith ℚ where
  wdiv c t := c / t
  wadd a b := a + b
  wlt a b := a < b
  weq a b := a == b
  wzero := 0
  wbits a := rne (a.num.toNat * unitsPerOne) a.den
/-- A core with exact rational weights, IB loaded. -/
def loadedExact (bytes : List Byte) : State.Of ℚ := withInput (.fresh Config.defaultIbcap Config.defaultObcap) bytes
/-- The same after FA.RUN and TB.RUN. -/
def treedExact (bytes : List Byte) : State.Of ℚ :=
  after (execWith exactRational .tbRun (after (execWith exactRational .faRun (loadedExact bytes))))

/-- "aaabbc" (example E1). -/
def aaabbc : List Byte := [0x61#8, 0x61#8, 0x61#8, 0x62#8, 0x62#8, 0x63#8]
/-- "ab". -/
def ab : List Byte := [0x61#8, 0x62#8]

/-! ### Well-formedness: an ill-formed term for each check -/

theorem test_wf_index_too_wide : (Instr.ibRd (2 ^ 24)).wellFormed = false := by decide
theorem test_wf_register_index_too_wide : (Instr.rdReg 256).wellFormed = false := by decide
theorem test_wf_chunk_too_wide : (Instr.rdCbits 0#8 4).wellFormed = false := by decide
theorem test_wf_largest_operands : ([.ibRd (2 ^ 24 - 1), .rdReg 255, .rdCbits 0xFF#8 3].all Instr.wellFormed) = true := by decide

/-! ### Decoding: words written out from R70 and R71 -/

theorem test_decode_format_n :
    decode 0x00000000#32 = .ok .nop ∧ decode 0x01000000#32 = .ok .clr ∧ decode 0x10000000#32 = .ok .ibClr ∧
    decode 0x20000000#32 = .ok .faRun ∧ decode 0x21000000#32 = .ok .tbRun ∧ decode 0x22000000#32 = .ok .cgRun ∧
    decode 0x23000000#32 = .ok .bpRun ∧ decode 0x24000000#32 = .ok .decRun := ⟨rfl, rfl, rfl, rfl, rfl, rfl, rfl, rfl⟩
theorem test_decode_format_b :
    decode 0b00010001000000000000000011111110#32 = .ok (.ibPush 0xFE#8) ∧
    decode 0b00110000000000000000000010000001#32 = .ok (.rdReg 0x81) ∧
    decode 0b00110001000000000000000001100001#32 = .ok (.rdCnt 0x61#8) ∧
    decode 0b00111000000000000000000001100010#32 = .ok (.rdClen 0x62#8) := ⟨rfl, rfl, rfl, rfl⟩
theorem test_decode_format_x :
    decode 0x12800001#32 = .ok (.ibRd 0x800001) ∧ decode 0x13FFFFFF#32 = .ok (.obRd 0xFFFFFF) ∧
    decode 0x32000100#32 = .ok (.rdSfls 0x100) ∧ decode 0x33010000#32 = .ok (.rdSflp 0x10000) ∧
    decode 0x34000005#32 = .ok (.rdNk 5) ∧ decode 0x35000006#32 = .ok (.rdNw 6) ∧
    decode 0x36000007#32 = .ok (.rdNl 7) ∧ decode 0x37000008#32 = .ok (.rdNr 8) := ⟨rfl, rfl, rfl, rfl, rfl, rfl, rfl, rfl⟩
theorem test_decode_format_c :
    decode 0x39000362#32 = .ok (.rdCbits 0x62#8 3) ∧ decode 0x390003FF#32 = .ok (.rdCbits 0xFF#8 3) := ⟨rfl, rfl⟩
/-- V3: undefined opcodes and reserved bits. -/
theorem test_decode_illegal :
    decode 0x02000000#32 = .error (.undefinedOpcode 0x02) ∧ decode 0x3A000000#32 = .error (.undefinedOpcode 0x3A) ∧
    decode 0x00000001#32 = .error (.reservedBits 0x00 1) ∧ decode 0x20000100#32 = .error (.reservedBits 0x20 0x100) ∧
    decode 0x11000161#32 = .error (.reservedBits 0x11 0x161) ∧ decode 0x39000400#32 = .error (.reservedBits 0x39 0x400) :=
  ⟨rfl, rfl, rfl, rfl, rfl, rfl⟩
theorem test_decode_table_word :
    decodeTableWord 32 0x11000061 = some (.ibPush 0x61#8) ∧ decodeTableWord 32 0x14000000 = none := ⟨rfl, rfl⟩
theorem test_encode_words :
    encode (.ibPush 0x61#8) = 0x11000061#32 ∧ encode (.rdCbits 0x62#8 1) = 0x39000162#32 ∧ encode (.obRd 2) = 0x13000002#32 :=
  ⟨rfl, rfl, rfl⟩

/-! ### Steps against the spec's examples -/

/-- V3: 0x02000000 -> 80:0. -/
theorem test_step_illegal_word : answer (step (State.reset.withFetchWord 32 0x02000000)) = some (0x80, 0) := by decide +kernel
/-- P4 row 1: TB.RUN from reset -> 81:0. -/
theorem test_step_sequence_error : answer (step (State.reset.withFetchWord 32 0x21000000)) = some (0x81, 0) := by decide +kernel
/-- P4 rows 4 to 7: FA.RUN from reset -> 01:0, STATUS 7, ERR 1. -/
theorem test_step_empty_input :
    answer (step (State.reset.withFetchWord 32 0x20000000)) = some (0x01, 0) ∧
    answer (execRdReg 1 faulted) = some (0, 7) ∧ answer (execRdReg 2 faulted) = some (0, 1) := by decide +kernel
/-- R102's example: CLR after the fault. -/
theorem test_clr_after_fault : answer (execRdReg 1 (after (execClr faulted))) = some (0, 0) := by decide +kernel
/-- V15: NOP in FAULT -> 00:0. -/
theorem test_nop_in_fault : answer (execNop faulted) = some (0, 0) := by decide +kernel
/-- V2: IB.PUSH 0x00 -> 00:1, IB.PUSH 0xFF -> 00:2, IB.RD 1 -> 00:0xFF. -/
theorem test_push_then_read :
    answer (execIbPush 0xFF#8 (after (execIbPush 0x00#8 State.reset))) = some (0, 2) ∧
    answer (execIbRd 1 (after (execIbPush 0xFF#8 (after (execIbPush 0x00#8 State.reset))))) = some (0, 0xFF) := by decide +kernel
/-- V2: with IBCAP = 4 the fifth push -> 83:0. -/
theorem test_push_into_full :
    answer (execIbPush 5#8 { loaded [1#8, 2#8, 3#8, 4#8] with ibcap := 4#25 }) = some (0x83, 0) := by decide +kernel
/-- R103's example. -/
theorem test_ib_clr : answer (execRdReg 4 (after (execIbClr (loaded aaabbc)))) = some (0, 0) := by decide +kernel
/-- R106's example: OB.RD 1 -> 00:0x3E, OB.RD 2 -> 82:0. -/
theorem test_ob_rd :
    answer (execObRd 1 (encoded aaabbc)) = some (0, 0x3E) ∧ answer (execObRd 2 (encoded aaabbc)) = some (0x82, 0) := by
  decide +kernel
/-- V1: RD.REG after reset. -/
theorem test_rd_reg_reset :
    answer (execRdReg 0 State.reset) = some (0, 0x48554601) ∧ answer (execRdReg 9 State.reset) = some (0, 0x1FF) ∧
    answer (execRdReg 15 State.reset) = some (0, 0x10000) ∧ answer (execRdReg 16 State.reset) = some (0, 0x80000) ∧
    answer (execRdReg 17 State.reset) = some (0x82, 0) := by decide +kernel
/-- V4, FF FF: the `mod 256` wrap; SYNTH is STATUS bit 4. -/
theorem test_fa_run_wraps :
    (listed [0xFF#8, 0xFF#8]).sflList = [⟨0x00#8, 0#64⟩, ⟨0xFF#8, 0x3FF0000000000000#64⟩] ∧
    answer (execRdReg 1 (listed [0xFF#8, 0xFF#8])) = some (0, 0x11) := by decide +kernel
/-- R121's example. -/
theorem test_fa_run_sorts :
    (listed aaabbc).sflList =
      [⟨0x63#8, 0x3FC5555555555555#64⟩, ⟨0x62#8, 0x3FD5555555555555#64⟩, ⟨0x61#8, 0x3FE0000000000000#64⟩] := by decide +kernel
/-- R129's, R130's and R131's examples. -/
theorem test_list_reads :
    answer (execRdCnt 0x61#8 (listed aaabbc)) = some (0, 3) ∧ answer (execRdSfls 2 (listed aaabbc)) = some (0, 0x61) ∧
    answer (execRdSfls 3 (listed aaabbc)) = some (0x82, 0) ∧
    answer (execRdSflp 0 (listed aaabbc)) = some (0, 0x3FC5555555555555) := by decide +kernel
/-- R151's example: NODE[4] is internal(left 2, right 3, weight 1.0), the tie going to `source`. -/
theorem test_tb_run_tie :
    (treed aaabbc).nodeAt 4 = ⟨false, 0#8, 0x3FF0000000000000#64, 2#9, 3#9⟩ ∧
    answer (execTbRun (listed aaabbc)) = some (0, 4) := by decide +kernel
/-- V14: the rounding decides the tree. -/
theorem test_tb_run_rounding :
    ((treed ([0x61#8] ++ List.replicate 4 0x62#8 ++ List.replicate 4 0x63#8 ++ List.replicate 5 0x64#8)).nodeAt 5) =
      ⟨false, 0#8, 0x3FE4924924924924#64, 2#9, 4#9⟩ := by decide +kernel
/-- V14, its last sentences: with exact weights the tree of the same input is ((a,b),(c,d)). -/
theorem test_tb_run_exact :
    ((treedExact ([0x61#8] ++ List.replicate 4 0x62#8 ++ List.replicate 4 0x63#8 ++ List.replicate 5 0x64#8)).nodeAt 5) =
      ⟨false, 0#8, 9 / 14, 2#9, 3#9⟩ := by decide +kernel
/-- R123, R131: with exact weights, too, 1/6 reads back through `wbits`. -/
theorem test_rd_sflp_exact :
    answer (execWith exactRational (.rdSflp 0) (treedExact aaabbc)) = some (0, 0x3FC5555555555555) := by decide +kernel
/-- R157's to R160's examples. -/
theorem test_node_reads :
    answer (execRdNk 0 (treed aaabbc)) = some (0, 0x163) ∧ answer (execRdNw 3 (treed aaabbc)) = some (0, 0x3FE0000000000000) ∧
    answer (execRdNl 0 (treed aaabbc)) = some (0, 0x1FF) ∧ answer (execRdNr 3 (treed aaabbc)) = some (0, 1) := by decide +kernel
/-- R181's, R185's and R186's examples. -/
theorem test_code_reads :
    answer (execRdClen 0x62#8 (coded aaabbc)) = some (0, 2) ∧
    answer (execRdCbits 0x62#8 0 (coded aaabbc)) = some (0, 0xC000000000000000) ∧
    answer (execRdCbits 0x63#8 0 (coded aaabbc)) = some (0, 0x8000000000000000) ∧
    answer (execRdCbits 0x62#8 1 (coded aaabbc)) = some (0, 0) := by decide +kernel
/-- R186: position 64k + m, here position 64 of a code of 65 bits, and 63 of the same. -/
theorem test_chunks_of_a_long_code :
    codeChunk (List.replicate 63 false ++ [true, true]) 0 = 1 ∧
    codeChunk (List.replicate 63 false ++ [true, true]) 1 = 2 ^ 63 := by decide +kernel
/-- R201's example. -/
theorem test_bp_run :
    (encoded aaabbc).obBytes = [0x02#8, 0x3E#8] ∧ answer (execRdReg 10 (encoded aaabbc)) = some (0, 9) ∧
    answer (execRdReg 11 (encoded aaabbc)) = some (0, 7) := by decide +kernel
/-- P4 row 23: BP.RUN -> 03:0x263. -/
theorem test_bp_run_unencodable :
    answer (execBpRun (withInput (coded ab) [0x61#8, 0x62#8, 0x63#8, 0x64#8])) = some (0x03, 0x263) := by decide +kernel
/-- V13: BP.RUN -> 06:3 with OBCAP = 1. -/
theorem test_bp_run_capacity : answer (execBpRun { coded [1#8, 2#8, 3#8, 4#8] with obcap := 1#25 }) = some (0x06, 3) := by
  decide +kernel
/-- R222's example. -/
theorem test_dec_run : (after (execDecRun (withInput (coded aaabbc) [0x02#8, 0x3E#8]))).obBytes = aaabbc := by decide +kernel
/-- V11 row 8: MID is STATUS bit 3. -/
theorem test_dec_run_mid :
    (after (execDecRun (withInput (coded aaabbc) [0xFF#8]))).obBytes = [0x62#8, 0x62#8, 0x62#8] ∧
    answer (execRdReg 1 (after (execDecRun (withInput (coded aaabbc) [0xFF#8])))) = some (0, 0x0B) := by decide +kernel
/-- V13: DEC.RUN -> 06:1 with OBCAP = 1. -/
theorem test_dec_run_capacity :
    answer (execDecRun { withInput (coded [0x61#8, 0x61#8, 0x62#8]) [0xFF#8] with obcap := 1#25 }) = some (0x06, 1) := by
  decide +kernel
/-- R124(f). -/
theorem test_weight_patterns :
    wadd (wdiv 1 6) (wdiv 1 3) = 0x3FE0000000000000#64 ∧ wadd (wdiv 1 14) (wdiv 4 14) = 0x3FD6DB6DB6DB6DB6#64 := by
  decide +kernel
/-- V12: node weights. -/
theorem test_weight_patterns_v12 :
    wdiv 144 376 = 0x3FD882B931057262#64 ∧ wadd 0x3FD8572620AE4C42#64 0x3FCE4C415C9882B9#64 = 0x3FE3BEA3677D46CF#64 := by
  decide +kernel
/-- R280: the reset input has no response. -/
theorem test_reset_input : (after (step { encoded aaabbc with port := [.reset] })) = State.reset := by decide +kernel
/-- The model's own stops: a list register outside its range, and a root that names no node. -/
theorem test_stops_off_the_reachable_states :
    stop (execTbRun { listed ab with nsfl := 257#9 }) = some (.noSuchElement .sfl 256) ∧
    stop (execCgRun { treed ab with root := 0x1FF#9 }) = some (.noSuchElement .node 511) ∧
    stop (execCgRun { treed ab with node := [(2, ⟨false, 0#8, 0#64, 2#9, 2#9⟩)] }) = some .visitTooDeep := by
  decide +kernel

/-! ### States that meet the hypotheses of the statements, one theorem for each statement that has any -/

theorem next_after {W : Type} (r : Result W) (h : isNext r = true) : r = .next (after r) := by
  cases r <;> simp_all [isNext, after]

/-- R123: exact rational arithmetic obeys the laws, on the weights that are not negative. -/
theorem exactRational_lawful : exactRational.Lawful (0 ≤ ·) where
  valid_zero := le_refl _
  valid_wdiv c t _ _ _ := by simp only [exactRational]; positivity
  weq_iff a b _ _ := by simp [exactRational]
  total a b _ _ := by simpa [exactRational] using lt_trichotomy a b
  asymm a b _ _ h := by
    simp only [exactRational, decide_eq_true_eq, beq_eq_false_iff_ne, decide_eq_false_iff_not, not_lt] at h ⊢
    exact ⟨h.ne, h.le⟩
  trans a b c _ _ _ h h' := by
    simp only [exactRational, decide_eq_true_eq] at h h' ⊢
    exact h.trans h'
  mono a1 a2 b1 b2 _ _ _ _ h h' := by
    simp only [exactRational, decide_eq_false_iff_not, not_lt] at h h' ⊢
    exact add_le_add h h'
  part a b ha hb := by simp [exactRational, ha, hb]
  strict c1 c2 t h1 h h2 _ := by
    simp only [exactRational, decide_eq_true_eq]
    have : (0 : ℚ) < t := by exact_mod_cast (by omega : 0 < t)
    gcongr
  zero_lt c t h1 h2 _ := by
    simp only [exactRational, decide_eq_true_eq]
    have : (0 : ℚ) < t := by exact_mod_cast (by omega : 0 < t)
    have : (0 : ℚ) < c := by exact_mod_cast h1
    positivity
  not_lt_zero a ha := by simpa [exactRational] using ha

theorem inv_idle : State.reset.inv binary64 :=
  ⟨by decide +kernel, by decide +kernel, by decide +kernel, by decide +kernel, by decide +kernel, by decide +kernel,
    by decide +kernel, by decide +kernel⟩
theorem inv_listed : (listed aaabbc).inv binary64 :=
  ⟨by decide +kernel, by decide +kernel, by decide +kernel, by decide +kernel, by decide +kernel, by decide +kernel,
    by decide +kernel, by decide +kernel⟩
theorem inv_treed : (treed aaabbc).inv binary64 :=
  ⟨by decide +kernel, by decide +kernel, by decide +kernel, by decide +kernel, by decide +kernel, by decide +kernel,
    by decide +kernel, by decide +kernel⟩
theorem inv_coded : (coded aaabbc).inv binary64 :=
  ⟨by decide +kernel, by decide +kernel, by decide +kernel, by decide +kernel, by decide +kernel, by decide +kernel,
    by decide +kernel, by decide +kernel⟩
theorem inv_fault : faulted.inv binary64 :=
  ⟨by decide +kernel, by decide +kernel, by decide +kernel, by decide +kernel, by decide +kernel, by decide +kernel,
    by decide +kernel, by decide +kernel⟩

/-- E1 with exact weights, with the word of CG.RUN on the port. -/
def treedExactAtCgRun : State.Of ℚ := { treedExact aaabbc with port := [.command 0x22000000#32] }
theorem inv_treedExact : treedExactAtCgRun.inv exactRational :=
  ⟨by decide +kernel, by decide +kernel, by decide +kernel, by decide +kernel, by decide +kernel, by decide +kernel,
    by decide +kernel, by decide +kernel⟩
/-- E1 with exact weights after CG.RUN. -/
def codedExact : State.Of ℚ := after (stepWith exactRational treedExactAtCgRun)
theorem inv_codedExact : codedExact.inv exactRational :=
  ⟨by decide +kernel, by decide +kernel, by decide +kernel, by decide +kernel, by decide +kernel, by decide +kernel,
    by decide +kernel, by decide +kernel⟩

/-- The packed stream of E1 in IB, with the tree of E1. -/
def packedInput : State := withInput (coded aaabbc) [0x02#8, 0x3E#8]
theorem inv_packedInput : packedInput.inv binary64 :=
  ⟨by decide +kernel, by decide +kernel, by decide +kernel, by decide +kernel, by decide +kernel, by decide +kernel,
    by decide +kernel, by decide +kernel⟩
/-- The same with room for one byte in OB. -/
def packedInputSmall : State := { packedInput with obcap := 1#25 }
theorem inv_packedInputSmall : packedInputSmall.inv binary64 :=
  ⟨by decide +kernel, by decide +kernel, by decide +kernel, by decide +kernel, by decide +kernel, by decide +kernel,
    by decide +kernel, by decide +kernel⟩

/-! Encoding and step -/

theorem witness_EncodeThenDecodeIsIdentity :
    (Instr.obRd 0).wellFormed = true ∧ (Instr.obRd 0xFFFFFF).wellFormed = true ∧ (Instr.rdReg 255).wellFormed = true ∧
    (Instr.rdCbits 0xFF#8 3).wellFormed = true := by decide
theorem witness_DecodedWordIsItsEncoding : decode 0x390003FF#32 = .ok (.rdCbits 0xFF#8 3) := rfl
theorem witness_IllegalWordsAreRejected :
    illegalWord 0x02000000#32 = true ∧ illegalWord 0xFF000000#32 = true ∧ illegalWord 0x24800000#32 = true ∧
    illegalWord 0x11000100#32 = true ∧ illegalWord 0x39000400#32 = true ∧
    (State.reset.withFetchWord 32 0x02000000).port = .command 0x02000000#32 :: [] := by decide +kernel
theorem witness_StepExecutesDecodedCommand :
    (State.reset.withFetchWord 32 0x11000061).port = .command 0x11000061#32 :: [] ∧
    decode 0x11000061#32 = .ok (.ibPush 0x61#8) ∧ treedExactAtCgRun.port = .command 0x22000000#32 :: [] ∧
    decode 0x22000000#32 = .ok .cgRun := ⟨rfl, rfl, rfl, rfl⟩
theorem witness_StepWaitsWithoutInput : (encoded ab).port = [] := by decide +kernel
theorem witness_ResetInputResets : { encoded ab with port := [.reset] }.port = .reset :: [] := rfl

/-! Checks -/

theorem witness_SequenceErrorExactlyInTheTable :
    (listed ab).phase ∈ sequenceErrorPhases .cgRun ∧ (treed ab).phase ∈ sequenceErrorPhases .bpRun ∧
    faulted.phase ∈ sequenceErrorPhases (.ibPush 0#8) ∧ (listed ab).phase ∉ sequenceErrorPhases .tbRun ∧
    (treed ab).phase ∉ sequenceErrorPhases .decRun ∧ isNext (exec .decRun (treed ab)) = true := by decide +kernel
theorem witness_IndexPastTheRangeIsRangeError :
    (encoded ab).ilen.toNat ≤ 2 ∧ (encoded ab).olen.toNat ≤ 1 ∧ 16 < 17 ∧ (encoded ab).nsfl.toNat ≤ 2 ∧
    (encoded ab).nnode.toNat ≤ 3 := by decide +kernel
theorem witness_PushIntoFullBufferIsBufferFull :
    { loaded ab with ibcap := 2#25 }.phase ≠ .fault ∧ { loaded ab with ibcap := 2#25 }.ilen = 2#25 := by decide +kernel
theorem witness_RejectedCommandChangesNothing :
    isNext (step (State.reset.withFetchWord 32 0xFF000000)) = true ∧
    (after (step (State.reset.withFetchWord 32 0xFF000000))).answeredRejection = true ∧
    isNext (exec .bpRun (treed ab)) = true ∧ (after (exec .bpRun (treed ab))).answeredRejection = true := by decide +kernel
theorem witness_EveryCommandHasOneOfTheElevenCodes : isNext (exec .faRun (loaded ab)) = true := by decide +kernel

/-! The whole machine -/

theorem witness_FaultEntryRecordsAndClears :
    isNext (exec .faRun State.reset) = true ∧ (after (exec .faRun State.reset)).rsp = some ⟨0x01#8, 0#64⟩ ∧
    (after (exec .faRun State.reset)).answeredFault = true ∧
    (after (exec .tbRun { listed ab with nsfl := 1#9 })).answeredFault = true ∧
    (after (exec .bpRun (withInput (coded ab) [0x63#8]))).answeredFault = true ∧
    (after (exec .decRun packedInputSmall)).answeredFault = true := by decide +kernel
theorem witness_PhaseTransitions :
    isNext (exec .faRun (coded ab)) = true ∧ (after (exec .faRun (coded ab))).answeredOk = true ∧
    (after (exec .tbRun (coded ab))).answeredOk = true ∧ (after (exec .cgRun (coded ab))).answeredOk = true ∧
    (after (exec .clr faulted)).phase ≠ .fault ∧ isNext (step { coded ab with port := [.reset] }) = true := by decide +kernel
theorem witness_OnlyClrChangesAFaultedCore : faulted.phase = .fault ∧ isNext (exec .faRun faulted) = true := by decide +kernel
theorem witness_ReadCommandsHaveNoSideEffect :
    isReadCommand (.rdNw 2) = true ∧ isNext (exec (.rdNw 2) (treed ab)) = true := by decide +kernel
theorem witness_CapacitiesNeverChange : isNext (step { treed ab with port := [.reset] }) = true := by decide +kernel
theorem witness_MemoriesChangeOnlyByTheirCommands :
    isNext (exec .bpRun (coded ab)) = true ∧ (after (exec .bpRun (coded ab))).ob ≠ (coded ab).ob ∧
    (after (exec .tbRun (listed ab))).node ≠ (listed ab).node ∧ (after (exec .cgRun (treed ab))).code ≠ (treed ab).code ∧
    (after (exec .faRun (loaded ab))).cnt ≠ (loaded ab).cnt ∧ (after (exec .faRun (loaded ab))).sfl ≠ (loaded ab).sfl ∧
    (after (exec (.ibPush 1#8) (loaded ab))).ib ≠ (loaded ab).ib := by decide +kernel
theorem witness_RegistersChangeOnlyByTheirCommands :
    isNext (exec .decRun packedInput) = true ∧ (after (exec .decRun packedInput)).olen ≠ packedInput.olen ∧
    (after (exec .faRun State.reset)).err ≠ State.reset.err ∧ (after (exec .ibClr (loaded ab))).ilen ≠ (loaded ab).ilen ∧
    (after (exec .faRun (loaded ab))).total ≠ (loaded ab).total ∧ (after (exec .tbRun (listed ab))).root ≠ (listed ab).root ∧
    (after (exec .decRun (withInput (coded ab) [0x03#8]))).mid = (coded ab).mid := by decide +kernel

/-! Invariants -/

theorem witness_StepKeepsMemoriesCanonical :
    { coded aaabbc with port := [.command 0x23000000#32] }.canonical ∧
    isNext (step { coded aaabbc with port := [.command 0x23000000#32] }) = true ∧ treedExactAtCgRun.canonical ∧
    isNext (stepWith exactRational treedExactAtCgRun) = true := by decide +kernel
theorem witness_StepKeepsRegistersInRange :
    { coded aaabbc with port := [.command 0x23000000#32] }.inRange ∧
    isNext (step { coded aaabbc with port := [.command 0x23000000#32] }) = true ∧ treedExactAtCgRun.inRange ∧
    isNext (stepWith exactRational treedExactAtCgRun) = true := by decide +kernel
theorem witness_StepKeepsThePipelineInvariant :
    (treed aaabbc).inv binary64 ∧ isNext (step (treed aaabbc)) = true ∧ exactRational.Lawful (0 ≤ ·) ∧
    treedExactAtCgRun.inv exactRational ∧ isNext (stepWith exactRational treedExactAtCgRun) = true :=
  ⟨inv_treed, by decide +kernel, exactRational_lawful, inv_treedExact, by decide +kernel⟩
theorem witness_ResetStateHasTheInvariant :
    1 ≤ (0x1000000#25).toNat ∧ (0x1000000#25).toNat ≤ 2 ^ 24 ∧ 1 ≤ (1#25).toNat ∧ (1#25).toNat ≤ 2 ^ 24 := by decide
theorem witness_StepNeverStops :
    State.reset.inv binary64 ∧ (listed aaabbc).inv binary64 ∧ (coded aaabbc).inv binary64 ∧ faulted.inv binary64 ∧
    treedExactAtCgRun.inv exactRational :=
  ⟨inv_idle, inv_listed, inv_coded, inv_fault, inv_treedExact⟩

/-! System and buffer commands -/

theorem witness_IbClrCompletes : (coded ab).phase ≠ .fault := by decide +kernel
theorem witness_IbPushCompletes :
    State.reset.canonical ∧ State.reset.phase ≠ .fault ∧ State.reset.ilen.toNat < State.reset.ibcap.toNat ∧
    { loaded ab with ibcap := 3#25 }.canonical ∧ { loaded ab with ibcap := 3#25 }.phase ≠ .fault ∧
    { loaded ab with ibcap := 3#25 }.ilen.toNat < 3 := by decide +kernel
theorem witness_BufferReadsComplete :
    (encoded ab).inRange ∧ 0 < (encoded ab).ilen.toNat ∧ 1 < (encoded ab).ilen.toNat ∧ 0 < (encoded ab).olen.toNat := by
  decide +kernel
theorem witness_TableReadsComplete :
    (treed ab).inRange ∧ 0 < (treed ab).nsfl.toNat ∧ 1 < (treed ab).nsfl.toNat ∧ 2 < (treed ab).nnode.toNat ∧
    ((treed ab).nodeAt 1).leaf = true ∧ ((treed ab).nodeAt 2).leaf = false ∧
    (treedExact aaabbc).inRange ∧ 2 < (treedExact aaabbc).nsfl.toNat ∧ 4 < (treedExact aaabbc).nnode.toNat := by
  decide +kernel

/-! FrequencyAnalyzer -/

theorem witness_FaRunOnEmptyInputFaults :
    State.reset.phase ≠ .fault ∧ State.reset.ilen = 0#25 ∧ isNext (exec .faRun State.reset) = true ∧
    (after (exec .faRun State.reset)).answeredFault = true := by decide +kernel
theorem witness_FaRunTalliesTheInput :
    { loaded ab with ibcap := 2#25 }.phase ≠ .fault ∧ 0 < { loaded ab with ibcap := 2#25 }.ilen.toNat ∧
    { loaded ab with ibcap := 2#25 }.ilen.toNat ≤ 2 := by decide +kernel
theorem witness_FaRunListsTheSymbolsInOrder :
    (loaded ab).canonical ∧ 0 < (loaded ab).ilen.toNat ∧ exec .faRun (loaded ab) = .next (listed ab) ∧
    (listed ab).answeredOk = true ∧ (∃ a ∈ (loaded ab).ibBytes, ∃ b ∈ (loaded ab).ibBytes, a ≠ b) ∧
    (loaded [0xFF#8, 0xFF#8]).canonical ∧ 0 < (loaded [0xFF#8, 0xFF#8]).ilen.toNat ∧
    exec .faRun (loaded [0xFF#8, 0xFF#8]) = .next (listed [0xFF#8, 0xFF#8]) ∧
    (listed [0xFF#8, 0xFF#8]).answeredOk = true ∧ ∀ a ∈ (loaded [0xFF#8, 0xFF#8]).ibBytes, a = 0xFF#8 :=
  ⟨by decide +kernel, by decide +kernel, next_after _ (by decide +kernel), by decide +kernel, by decide +kernel,
    by decide +kernel, by decide +kernel, next_after _ (by decide +kernel), by decide +kernel, by decide +kernel⟩
/-- 1 / 2^24 and 1 / 1: the ends of the range, and the `u` of `isRounded` for them. -/
theorem witness_WdivIsTheQuotientRoundedOnce :
    (1 ≤ 1 ∧ 1 ≤ 2 ^ 24 ∧ 2 ^ 24 ≤ 2 ^ 24) ∧
    (52 ≤ 1050 ∧ 1050 ≤ 2097 ∧ 2 ^ 1050 * 2 ^ 24 ≤ 1 * 2 ^ 1074 ∧ 1 * 2 ^ 1074 < 2 ^ (1050 + 1) * 2 ^ 24) ∧
    (2 ^ 1074 * 1 ≤ 1 * 2 ^ 1074 ∧ 1 * 2 ^ 1074 < 2 ^ (1074 + 1) * 1) := by decide +kernel
theorem witness_WaddIsTheSumRoundedOnce :
    smallWeight (wdiv 1 6) ∧ smallWeight (wdiv 1 3) ∧ smallWeight 0#64 ∧ smallWeight 0x7FDFFFFFFFFFFFFF#64 ∧
    2 ^ 1072 * 1 ≤ wval (wdiv 1 6) + wval (wdiv 1 3) ∧ wval (wdiv 1 6) + wval (wdiv 1 3) < 2 ^ (1072 + 1) * 1 ∧
    wval 0#64 + wval 0#64 = 0 := by
  simp only [smallWeight]
  decide +kernel
theorem witness_ReferencePatterns : 1 ≤ 2 ^ 24 ∧ 2 ^ 24 ≤ 2 ^ 24 := by decide
theorem witness_ProbabilitiesSumToOne :
    (loaded aaabbc).canonical ∧ (loaded aaabbc).inRange ∧ exec .faRun (loaded aaabbc) = .next (listed aaabbc) ∧
    (listed aaabbc).answeredOk = true :=
  ⟨by decide +kernel, by decide +kernel, next_after _ (by decide +kernel), by decide +kernel⟩

/-! TreeBuilder -/

theorem witness_TbRunCompletes :
    (listed ab).canonical ∧ (listed ab).phase ∈ [Phase.listed, .treed, .coded] ∧ 2 ≤ (listed ab).nsfl.toNat ∧
    (listed ab).nsfl.toNat ≤ 256 ∧
    { listed ab with nsfl := 256#9 }.canonical ∧ 2 ≤ { listed ab with nsfl := 256#9 }.nsfl.toNat ∧
    { listed ab with nsfl := 256#9 }.nsfl.toNat ≤ 256 := by decide +kernel
theorem witness_TbRunBuildsATreeForEveryArithmetic :
    (coded aaabbc).canonical ∧ (coded aaabbc).phase ∈ [Phase.listed, .treed, .coded] ∧ 2 ≤ (coded aaabbc).nsfl.toNat ∧
    (coded aaabbc).nsfl.toNat ≤ 256 ∧ codedExact.canonical ∧ codedExact.phase = .coded ∧ codedExact.nsfl = 3#9 := by
  decide +kernel
theorem witness_TbRunOnTooShortAListFaults :
    { listed ab with nsfl := 0#9 }.canonical ∧ { listed ab with nsfl := 0#9 }.phase ∈ [Phase.listed, .treed, .coded] ∧
    { listed ab with nsfl := 0#9 }.nsfl.toNat < 2 ∧ { listed ab with nsfl := 1#9 }.canonical ∧
    { listed ab with nsfl := 1#9 }.nsfl.toNat < 2 ∧ isNext (exec .tbRun { listed ab with nsfl := 1#9 }) = true ∧
    (after (exec .tbRun { listed ab with nsfl := 1#9 })).answeredFault = true ∧ (treed aaabbc).inv binary64 ∧
    isNext (exec .tbRun (treed aaabbc)) = true :=
  ⟨by decide +kernel, by decide +kernel, by decide +kernel, by decide +kernel, by decide +kernel, by decide +kernel,
    by decide +kernel, inv_treed, by decide +kernel⟩
/-- The queues of E1 before its second iteration: a tie. -/
def tieQueues : TreeQueues Weight := ⟨(treed aaabbc).node, 2, 3, 4⟩
theorem witness_PopMinAndTheMergeStep :
    ¬ 3 ≤ tieQueues.srch ∧ ¬ tieQueues.tgtt ≤ tieQueues.tgth ∧
    binary64.wlt (tieQueues.at tieQueues.tgth).w (tieQueues.at tieQueues.srch).w = false ∧
    popMin binary64 3 tieQueues = some (2, { tieQueues with srch := 3 }) ∧
    popMin binary64 3 { tieQueues with srch := 3 } = some (3, { tieQueues with srch := 3, tgth := 4 }) ∧
    popMin binary64 3 { tieQueues with srch := 3, tgth := 4 } = none := by decide +kernel
theorem witness_TbRunDependsOnTheListAlone :
    (listed aaabbc).canonical ∧ (coded aaabbc).canonical ∧ (listed aaabbc).nsfl = (coded aaabbc).nsfl ∧
    (listed aaabbc).sflList = (coded aaabbc).sflList ∧
    execWith binary64 .tbRun (listed aaabbc) = .next (treed aaabbc) ∧
    execWith binary64 .tbRun (coded aaabbc) = .next (after (execTbRun (coded aaabbc))) ∧
    (treed aaabbc).answeredOk = true ∧ (after (execTbRun (coded aaabbc))).answeredOk = true :=
  ⟨by decide +kernel, by decide +kernel, by decide +kernel, by decide +kernel,
    next_after (execTbRun (listed aaabbc)) (by decide +kernel), next_after (execTbRun (coded aaabbc)) (by decide +kernel),
    by decide +kernel, by decide +kernel⟩
theorem witness_InternalWeightsNeverFall :
    (listed aaabbc).canonical ∧ (listed aaabbc).listOk binary64 ∧ (∀ e ∈ (listed aaabbc).sflList, wval e.prob ≤ 2 ^ 1074) ∧
    exec .tbRun (listed aaabbc) = .next (treed aaabbc) ∧ (treed aaabbc).answeredOk = true ∧
    (listed aaabbc).nsfl.toNat ≤ 3 ∧ 3 + 1 < (treed aaabbc).nnode.toNat :=
  ⟨by decide +kernel, by decide +kernel, by decide +kernel, next_after _ (by decide +kernel), by decide +kernel,
    by decide +kernel, by decide +kernel⟩

/-! CodeTableGenerator -/

theorem witness_CgRunWritesThePaths :
    (treed aaabbc).phase ∈ [Phase.treed, .coded] ∧ (treed aaabbc).listShape ∧ (treed aaabbc).treeOk binary64 := by
  decide +kernel
theorem witness_CodesArePrefixFree :
    (coded aaabbc).inv binary64 ∧ codedExact.inv exactRational ∧ codedExact.phase = .coded ∧ 0x61#8 ≠ 0x62#8 ∧
    0 < (codedExact.codeAt 0x61#8).length ∧ 0 < (codedExact.codeAt 0x62#8).length :=
  ⟨inv_coded, inv_codedExact, by decide +kernel, by decide +kernel, by decide +kernel, by decide +kernel⟩
theorem witness_CodeLengthsAreBounded :
    (coded aaabbc).inv binary64 ∧ codedExact.inv exactRational ∧ codedExact.phase = .coded ∧
    0 < (codedExact.codeAt 0x63#8).length :=
  ⟨inv_coded, inv_codedExact, by decide +kernel, by decide +kernel⟩
theorem witness_EveryNodeHasExactlyOnePath :
    (treed aaabbc).inv binary64 ∧ (treed aaabbc).phase ∈ [Phase.treed, .coded] ∧ 4 < (treed aaabbc).nnode.toNat ∧
    (treed aaabbc).follow (treed aaabbc).root.toNat [true, false] = some 0 :=
  ⟨inv_treed, by decide +kernel, by decide +kernel, by decide +kernel⟩

/-! BitPacker -/

theorem witness_BpRunPacksTheCodes :
    (coded aaabbc).canonical ∧ (coded aaabbc).phase = .coded ∧ (coded aaabbc).ilen.toNat ≤ (coded aaabbc).ibcap.toNat ∧
    (∀ b ∈ (coded aaabbc).ibBytes, 0 < ((coded aaabbc).codeAt b).length) ∧
    ((coded aaabbc).ibBytes.flatMap (coded aaabbc).codeAt).length < 8 * (coded aaabbc).obcap.toNat := by decide +kernel
/-- P4 row 23, and V13 with OBCAP = 1. -/
theorem witness_BpRunFaultsAtTheFirstBadSymbol :
    (withInput (coded ab) [0x61#8, 0x63#8]).inRange ∧ (withInput (coded ab) [0x61#8, 0x63#8]).phase = .coded ∧
    1 < (withInput (coded ab) [0x61#8, 0x63#8]).ilen.toNat ∧
    (∀ b ∈ (withInput (coded ab) [0x61#8, 0x63#8]).ibBytes.take 1,
      0 < ((withInput (coded ab) [0x61#8, 0x63#8]).codeAt b).length) ∧
    (withInput (coded ab) [0x61#8, 0x63#8]).codeAt ((withInput (coded ab) [0x61#8, 0x63#8]).ibAt 1) = [] ∧
    { coded [1#8, 2#8, 3#8, 4#8] with obcap := 1#25 }.inRange ∧
    (({ coded [1#8, 2#8, 3#8, 4#8] with obcap := 1#25 }.ibBytes.take 3).flatMap
      { coded [1#8, 2#8, 3#8, 4#8] with obcap := 1#25 }.codeAt).length < 8 * 1 ∧
    8 * 1 ≤ (({ coded [1#8, 2#8, 3#8, 4#8] with obcap := 1#25 }.ibBytes.take (3 + 1)).flatMap
      { coded [1#8, 2#8, 3#8, 4#8] with obcap := 1#25 }.codeAt).length := by decide +kernel
theorem witness_BpRunOnEmptyInput :
    (after (execIbClr (coded ab))).canonical ∧ (after (execIbClr (coded ab))).phase = .coded ∧
    (after (execIbClr (coded ab))).ilen = 0#25 ∧ 1 ≤ (after (execIbClr (coded ab))).obcap.toNat := by decide +kernel

/-! Decoder -/

theorem witness_DecRunOnEmptyInputFaults :
    (after (execIbClr (treed ab))).phase ∈ [Phase.treed, .coded] ∧ (after (execIbClr (treed ab))).ilen = 0#25 := by
  decide +kernel
theorem witness_DiscardedBitsDependOnTheFirstByte :
    discarded (streamBits [0x00#8]) = 8 ∧ discarded (streamBits [0x01#8, 0xFF#8]) = 8 ∧
    discarded (streamBits [0x02#8]) = 7 ∧ discarded (streamBits [0x80#8]) = 1 ∧ discarded (streamBits [0x7F#8]) = 2 := by
  decide +kernel
theorem witness_DecRunWalksThePayload :
    packedInput.inv binary64 ∧ packedInput.phase ∈ [Phase.treed, .coded] ∧ 0 < packedInput.ilen.toNat ∧
    List.Forall₂ packedInput.isPathOf
      [[false], [false], [false], [true, true], [true, true], [true, false]] aaabbc ∧
    packedInput.follow packedInput.root.toNat [] = some 4 ∧ (packedInput.nodeAt 4).leaf = false ∧
    (streamBits packedInput.ibBytes).drop (discarded (streamBits packedInput.ibBytes)) =
      [[false], [false], [false], [true, true], [true, true], [true, false]].flatten ++ [] ∧
    aaabbc.length ≤ packedInput.obcap.toNat ∧
    packedInputSmall.inv binary64 ∧ packedInputSmall.obcap.toNat < aaabbc.length :=
  ⟨inv_packedInput, by decide +kernel, by decide +kernel,
    .cons ⟨2, by decide +kernel⟩ (.cons ⟨2, by decide +kernel⟩ (.cons ⟨2, by decide +kernel⟩
      (.cons ⟨1, by decide +kernel⟩ (.cons ⟨1, by decide +kernel⟩ (.cons ⟨0, by decide +kernel⟩ .nil))))),
    by decide +kernel, by decide +kernel, by decide +kernel, by decide +kernel, inv_packedInputSmall, by decide +kernel⟩
theorem witness_EveryPayloadCanBeWalked : (coded aaabbc).inv binary64 ∧ (coded aaabbc).phase ∈ [Phase.treed, .coded] :=
  ⟨inv_coded, by decide +kernel⟩
/-- A root that is a leaf, and a root without a right child. -/
theorem witness_DecRunFallingOffTheTreeFaults :
    { packedInput with root := 2#9 }.inRange ∧
    { packedInput with root := 2#9 }.phase ∈ [Phase.treed, .coded] ∧ 0 < { packedInput with root := 2#9 }.ilen.toNat ∧
    { packedInput with root := 2#9 }.root ≠ 0x1FF#9 ∧
    (streamBits { packedInput with root := 2#9 }.ibBytes).drop
      (discarded (streamBits { packedInput with root := 2#9 }.ibBytes)) =
        false :: [false, false, true, true, true, true, true, false] ∧
    ({ packedInput with root := 2#9 }.nodeAt 2).leaf = true ∧
    { packedInput with root := 7#9 }.inRange ∧ ({ packedInput with root := 7#9 }.nodeAt 7).leaf = false ∧
    ({ packedInput with root := 7#9 }.nodeAt 7).left = 0x1FF#9 := by decide +kernel

/-! The headline -/

theorem witness_DecodingAnEncodedStreamGivesItBack :
    (coded aaabbc).canonical ∧ (coded aaabbc).inRange ∧ (coded aaabbc).phase ≠ .fault ∧ 1 ≤ ab.length ∧
    ab.length ≤ (coded aaabbc).ibcap.toNat ∧
    ((runOk binary64 (loadCommands ab ++ [.faRun, .tbRun, .cgRun]) (coded aaabbc)).map
      (fun t => decide ((ab.flatMap t.codeAt).length < 8 * t.obcap.toNat))) = some true := by decide +kernel
theorem witness_DecodingAnEncodedStreamGivesItBack_exact :
    codedExact.canonical ∧ codedExact.inRange ∧ codedExact.phase ≠ .fault ∧ ab.length ≤ codedExact.ibcap.toNat ∧
    ((runOk exactRational (loadCommands ab ++ [.faRun, .tbRun, .cgRun]) codedExact).map
      (fun t => decide ((ab.flatMap t.codeAt).length < 8 * t.obcap.toNat))) = some true := by decide +kernel

end Sys2Proof.Tests
end

section
/-! PROOFS. What a command can do, said once: `Effect`. The frame statements and the invariants are case analyses over it. -/

namespace Sys2Proof.Machine

variable {W : Type}

/-! ### The walk of DEC.RUN writes no more than OB holds -/

/-- The bytes a walk has written when it ends. -/
def WalkEnd.written : WalkEnd → List Byte
  | .done out _ => out
  | .corrupt out _ => out
  | .full out _ => out
  | .noRoot => []

theorem length_written_walk [Inhabited W] (node : Memory (Node.Of W)) (root : BitVec 9) (obcap : Nat) (bits : BitString)
    (p : Nat) (cur : BitVec 9) (out : List Byte) (hout : out.length ≤ obcap) :
    (walk node root obcap bits p cur out).written.length ≤ obcap := by
  induction bits generalizing p cur out with
  | nil => exact hout
  | cons b bits ih =>
    simp only [walk]
    generalize (if b = true then (Memory.read unlistedNode node cur.toNat).right
      else (Memory.read unlistedNode node cur.toNat).left) = nxt
    split_ifs with hnil hleaf hnxt hnleaf hfull
    · exact Nat.zero_le _
    · exact hout
    · exact hout
    · exact hout
    · exact ih _ _ _ (by simp only [List.length_append, List.length_singleton]; omega)
    · exact ih _ _ _ hout

/-! ### The effect of a command -/

/-- Everything a command can make of a state, with what the command has checked before. -/
inductive Effect [Inhabited W] [DecidableEq W] (wa : WArith W) (s : State.Of W) : Instr → State.Of W → Prop
  | rejected (i : Instr) (r : Rejection) (hi : i ≠ .clr) : Effect wa s i (s.answer r.number 0#64)
  | answered (i : Instr) (d : Data) (hi : i = .nop ∨ isReadCommand i = true) : Effect wa s i (s.answer 0x00#8 d)
  | cleared : Effect wa s .clr (s.cleared.answer 0x00#8 0#64)
  | inputCleared (hp : s.phase ≠ .fault) :
      Effect wa s .ibClr (({ s with ilen := 0#25 } : State.Of W).answer 0x00#8 0#64)
  | pushed (b : Byte) (d : Data) (hp : s.phase ≠ .fault) (hroom : s.ilen.toNat < s.ibcap.toNat) :
      Effect wa s (.ibPush b) ((s.pushed b).answer 0x00#8 d)
  | emptyInput (hp : s.phase ≠ .fault) : Effect wa s .faRun (s.discardList.enterFault .emptyInput 0)
  | analyzed (d : Data) (hp : s.phase ≠ .fault) (hpos : 0 < s.ilen.toNat) (hcap : s.ilen.toNat ≤ s.ibcap.toNat) :
      Effect wa s .faRun ((s.discardList.analyzed wa).answer 0x00#8 d)
  | treeBuilt (q : TreeQueues W) (d : Data) (hp : s.phase ∈ [Phase.listed, .treed, .coded]) (hn : s.nsfl.toNat ≤ 256)
      (hq : mergeAll wa s.nsfl.toNat (loadLeaves s.node s.sflList) = .ok q) :
      Effect wa s .tbRun ((s.treeBuilt q).answer 0x00#8 d)
  | treeFailed (q : TreeQueues W) (hp : s.phase ∈ [Phase.listed, .treed, .coded]) (hn : s.nsfl.toNat ≤ 256)
      (hq : mergeAll wa s.nsfl.toNat (loadLeaves s.node s.sflList) = .error q) :
      Effect wa s .tbRun ((s.treeFailed q).enterFault .invalidTreeState 0)
  | codesWritten (code : Memory Code) (d : Data) (hp : s.phase ∈ [Phase.treed, .coded])
      (hvisit : visit s.node Config.visitFrames s.root.toNat [] [] = .ok code) :
      Effect wa s .cgRun (({ s with code := code, phase := .coded } : State.Of W).answer 0x00#8 d)
  | packed (bits : BitString) (d : Data) (hp : s.phase = .coded) (hroom : (padded bits).length / 8 ≤ s.obcap.toNat) :
      Effect wa s .bpRun ((s.noOutput.packed bits).answer 0x00#8 d)
  | packFault (f : FaultKind) (info : Nat) (hp : s.phase = .coded) :
      Effect wa s .bpRun (s.noOutput.enterFault f info)
  | decoded (out : List Byte) (cur : BitVec 9) (d : Data) (hp : s.phase ∈ [Phase.treed, .coded]) (hpos : 0 < s.ilen.toNat)
      (hcap : s.ilen.toNat ≤ s.ibcap.toNat) (hout : out.length ≤ s.obcap.toNat) :
      Effect wa s .decRun
        ((s.decoded out (payloadOf s).length (discarded (streamBits s.ibBytes)) cur).answer 0x00#8 d)
  | decodeFault (out : List Byte) (f : FaultKind) (info : Nat) (hp : s.phase ∈ [Phase.treed, .coded])
      (hout : out.length ≤ s.obcap.toNat) :
      Effect wa s .decRun ((s.withDecoded out).enterFault f info)

section
variable [Inhabited W] [DecidableEq W] {wa : WArith W} {s t : State.Of W}

theorem effect_of_execFaRunWith (h : execFaRunWith wa s = .next t) : Effect wa s .faRun t := by
  obtain ⟨-, rfl⟩ | ⟨hp, -, rfl⟩ | ⟨hp, hpos, hcap, rfl⟩ := execFaRunWith_next h
  · exact .rejected _ .sequenceError nofun
  · exact .emptyInput hp
  · exact .analyzed _ hp hpos hcap

theorem effect_of_execTbRunWith (h : execTbRunWith wa s = .next t) : Effect wa s .tbRun t := by
  obtain ⟨-, rfl⟩ | ⟨hp, hn, ⟨q, hq, rfl⟩ | ⟨q, hq, rfl⟩⟩ := execTbRunWith_next h
  · exact .rejected _ .sequenceError nofun
  · exact .treeBuilt q _ hp hn hq
  · exact .treeFailed q hp hn hq

theorem effect_of_execCgRun (h : execCgRun s = .next t) : Effect wa s .cgRun t := by
  obtain ⟨-, rfl⟩ | ⟨hp, code, hvisit, rfl⟩ := execCgRun_next h
  · exact .rejected _ .sequenceError nofun
  · exact .codesWritten code _ hp hvisit

theorem effect_of_execBpRun (h : execBpRun s = .next t) : Effect wa s .bpRun t := by
  obtain ⟨-, rfl⟩ | ⟨hp, -, ⟨j, sym, -, rfl⟩ | ⟨j, -, rfl⟩ | ⟨bits, -, hroom, rfl⟩⟩ := execBpRun_next h
  · exact .rejected _ .sequenceError nofun
  · exact .packFault _ _ hp
  · exact .packFault _ _ hp
  · exact .packed bits _ hp hroom

theorem effect_of_execDecRun (h : execDecRun s = .next t) : Effect wa s .decRun t := by
  have hwritten := length_written_walk s.node s.root s.obcap.toNat (payloadOf s) 0 s.root [] (Nat.zero_le _)
  obtain ⟨-, rfl⟩ | ⟨hp, -, rfl⟩ | ⟨hp, hpos, hcap, ⟨out, cur, hw, rfl⟩ | ⟨out, p, hw, rfl⟩ | ⟨out, p, hw, rfl⟩⟩ :=
    execDecRun_next h
  · exact .rejected _ .sequenceError nofun
  · exact .decodeFault [] _ _ hp (Nat.zero_le _)
  · rw [hw] at hwritten
    exact .decoded out cur _ hp hpos hcap hwritten
  · rw [hw] at hwritten
    exact .decodeFault out _ _ hp hwritten
  · rw [hw] at hwritten
    exact .decodeFault out _ _ hp hwritten

theorem effect_of_read {i : Instr} (hi : isReadCommand i = true) (h : execWith wa i s = .next t) :
    Effect wa s i t := by
  obtain ⟨c, d, rfl, rfl | ⟨rfl, rfl⟩⟩ := execWith_read_next hi h
  · exact .answered _ d (.inr hi)
  · exact .rejected _ .rangeError (by rintro rfl; cases hi)

/-- A command that answers a next state has one of the effects. -/
theorem effect_of_execWith {i : Instr} (h : execWith wa i s = .next t) : Effect wa s i t := by
  by_cases hread : isReadCommand i = true
  · exact effect_of_read hread h
  cases i <;> simp only [isReadCommand, not_true_eq_false] at hread
  case nop => exact execNop_next h ▸ .answered _ _ (.inl rfl)
  case clr => exact execClr_next h ▸ .cleared
  case ibClr =>
    obtain ⟨hp, rfl⟩ | ⟨-, rfl⟩ := execIbClr_next h
    · exact .inputCleared hp
    · exact .rejected _ .sequenceError nofun
  case ibPush b =>
    obtain ⟨-, rfl⟩ | ⟨-, -, rfl⟩ | ⟨hp, hroom, rfl⟩ := execIbPush_next h
    · exact .rejected _ .sequenceError nofun
    · exact .rejected _ .bufferFull nofun
    · exact .pushed b _ hp hroom
  case faRun => exact effect_of_execFaRunWith h
  case tbRun => exact effect_of_execTbRunWith h
  case cgRun => exact effect_of_execCgRun h
  case bpRun => exact effect_of_execBpRun h
  case decRun => exact effect_of_execDecRun h

end

theorem effect_of_exec {i : Instr} {s t : State} (h : exec i s = .next t) : Effect binary64 s i t :=
  effect_of_execWith ((execWith_binary64 i s).trans h)

/-- A property that does not look at the command port, holds after a reset and is kept by every command, is kept by every step. -/
theorem stepWith_keeps [Inhabited W] [DecidableEq W] {wa : WArith W} {P : State.Of W → Prop}
    (hport : ∀ s rest, P s → P { s with port := rest }) (hanswer : ∀ s c d, P s → P (s.answer c d))
    (hreset : ∀ s, P s → P { s.cleared with rsp := none })
    (hcommand : ∀ i s t, P s → Effect wa s i t → P t) {s t : State.Of W} (hs : P s) (h : stepWith wa s = .next t) : P t := by
  obtain ⟨-, hw⟩ | ⟨rest, -, hr⟩ | ⟨w, rest, i, -, -, hc⟩ | ⟨w, rest, e, -, -, hi⟩ := stepWith_cases wa s
  · exact next_inj.1 (hw.symm.trans h) ▸ hs
  · exact next_inj.1 (hr.symm.trans h) ▸ hreset _ (hport s rest hs)
  · exact hcommand i _ t (hport s rest hs) (effect_of_execWith (hc.symm.trans h))
  · exact next_inj.1 (hi.symm.trans h) ▸ hanswer _ _ _ (hport s rest hs)

/-! ### The kind of a response -/

@[simp] theorem answeredOk_ok (s : State.Of W) (d : Data) : (s.answer 0x00#8 d).answeredOk = true := rfl
@[simp] theorem answeredFault_ok (s : State.Of W) (d : Data) : (s.answer 0x00#8 d).answeredFault = false := rfl
@[simp] theorem answeredRejection_ok (s : State.Of W) (d : Data) : (s.answer 0x00#8 d).answeredRejection = false := rfl
@[simp] theorem answeredOk_reject (s : State.Of W) (r : Rejection) (d : Data) : (s.answer r.number d).answeredOk = false := by
  cases r <;> rfl
@[simp] theorem answeredFault_reject (s : State.Of W) (r : Rejection) (d : Data) :
    (s.answer r.number d).answeredFault = false := by
  cases r <;> rfl
@[simp] theorem answeredOk_enterFault (s : State.Of W) (f : FaultKind) (info : Nat) :
    (s.enterFault f info).answeredOk = false := by
  cases f <;> rfl
@[simp] theorem answeredFault_enterFault (s : State.Of W) (f : FaultKind) (info : Nat) :
    (s.enterFault f info).answeredFault = true := by
  cases f <;> rfl
@[simp] theorem answeredRejection_enterFault (s : State.Of W) (f : FaultKind) (info : Nat) :
    (s.enterFault f info).answeredRejection = false := by
  cases f <;> rfl

theorem phase_mem_of_ne_fault {p : Phase} (hp : p ≠ .fault) : p ∈ [Phase.idle, .listed, .treed, .coded] := by
  cases p <;> simp_all

theorem ne_fault_of_hasList {p : Phase} (hp : p ∈ [Phase.listed, .treed, .coded]) : p ≠ .fault := by
  rintro rfl
  simp at hp

theorem ne_fault_of_hasTree {p : Phase} (hp : p ∈ [Phase.treed, .coded]) : p ≠ .fault :=
  ne_fault_of_hasList (List.mem_cons_of_mem _ hp)

/-! ### Frames -/

/-- Settles O18: both registers are in the frame of every effect, and RD.REG reads them. -/
theorem capacitiesNeverChange : Obligations.CapacitiesNeverChange := by
  refine ⟨fun s t h => ?_, fun s => ⟨?_, ?_⟩⟩
  · refine stepWith_keeps (wa := binary64) (P := fun u => u.ibcap = s.ibcap ∧ u.obcap = s.obcap) (fun _ _ hu => hu)
      (fun _ _ _ hu => hu) (fun _ hu => hu) (fun i u v hu he => ?_) ⟨rfl, rfl⟩ ((stepWith_binary64 s).trans h)
    cases he <;> exact hu
  · show (respond s.ibcap.toNat s : Result) = _
    simp [State.Of.answer, BitVec.ofNat_toNat]
  · show (respond s.obcap.toNat s : Result) = _
    simp [State.Of.answer, BitVec.ofNat_toNat]

/-- Settles O19: each effect names the memories it writes. -/
theorem memoriesChangeOnlyByTheirCommands : Obligations.MemoriesChangeOnlyByTheirCommands := by
  intro i s t h
  cases effect_of_exec h <;> simp

/-- Settles O20: each effect names the registers it writes. -/
theorem registersChangeOnlyByTheirCommands : Obligations.RegistersChangeOnlyByTheirCommands := by
  intro i s t h
  cases effect_of_exec h <;> simp

/-- Settles O15: the phase that each effect sets, and the phases it comes from. -/
theorem phaseTransitions : Obligations.PhaseTransitions := by
  refine ⟨fun i s t h => ?_, fun s t rest hport h => ?_⟩
  · cases effect_of_exec h with
    | rejected i r hi => simp [hi]
    | answered i d hi => cases i <;> simp_all [isReadCommand]
    | cleared => simp
    | inputCleared hp => simp [hp]
    | pushed b d hp => simp [hp]
    | emptyInput hp => simp [hp]
    | analyzed d hp => simpa [hp] using phase_mem_of_ne_fault hp
    | treeBuilt q d hp => simpa [ne_fault_of_hasList hp] using hp
    | treeFailed q hp => simp
    | codesWritten code d hp => simpa [ne_fault_of_hasTree hp] using hp
    | packed bits d hp => simp [hp]
    | packFault f info hp => simp [hp]
    | decoded out cur d hp => simp
    | decodeFault out f info hp => simp
  · obtain ⟨hnil, -⟩ | ⟨_, -, hr⟩ | ⟨w, _, _, hcons, -⟩ | ⟨w, _, _, hcons, -⟩ := step_cases s
    · simp [hport] at hnil
    · exact next_inj.1 (hr.symm.trans h) ▸ rfl
    · simp [hport] at hcons
    · simp [hport] at hcons

/-! ### Reset -/

/-- The reset state has its reset values, whatever the capacities. -/
theorem atReset_fresh (ibcap obcap : BitVec 25) : (State.Of.fresh ibcap obcap : State.Of W).atReset :=
  ⟨rfl, rfl, rfl, rfl, rfl, rfl, rfl, rfl, rfl, rfl, rfl, rfl, rfl, rfl, rfl, rfl, fun _ => rfl, fun _ => rfl⟩

/-- Settles O8: CLR leaves the reset state with the machine's own capacities. -/
theorem resetAndClrGiveTheResetState : Obligations.ResetAndClrGiveTheResetState :=
  ⟨atReset_fresh _ _, rfl, rfl, fun s => ⟨_, rfl, atReset_fresh (W := Weight) s.ibcap s.obcap⟩⟩

section
variable [Inhabited W]

theorem canonical_fresh (ibcap obcap : BitVec 25) : (State.Of.fresh ibcap obcap : State.Of W).canonical :=
  ⟨Memory.wf_nil _, Memory.wf_nil _, Memory.wf_nil _, Memory.wf_nil _, Memory.wf_nil _, Memory.wf_nil _⟩

theorem pipelineOk_fresh (wa : WArith W) (ibcap obcap : BitVec 25) : (State.Of.fresh ibcap obcap : State.Of W).pipelineOk wa :=
  ⟨fun _ => ⟨rfl, ⟨rfl, rfl, rfl, rfl, rfl⟩, fun _ => rfl⟩, nofun, nofun, nofun, by simp, fun _ => rfl⟩

end

theorem inRange_fresh {ibcap obcap : BitVec 25} (hi : 1 ≤ ibcap.toNat ∧ ibcap.toNat ≤ 2 ^ 24)
    (ho : 1 ≤ obcap.toNat ∧ obcap.toNat ≤ 2 ^ 24) : (State.Of.fresh ibcap obcap : State.Of W).inRange := by
  exact ⟨hi, ho, by simp [Config.nil]⟩

theorem inv_fresh [Inhabited W] (wa : WArith W) {ibcap obcap : BitVec 25} (hi : 1 ≤ ibcap.toNat ∧ ibcap.toNat ≤ 2 ^ 24)
    (ho : 1 ≤ obcap.toNat ∧ obcap.toNat ≤ 2 ^ 24) : (State.Of.fresh ibcap obcap : State.Of W).inv wa :=
  ⟨canonical_fresh _ _, inRange_fresh hi ho, pipelineOk_fresh wa _ _⟩

/-- Settles O24: a fresh state has the invariant, and the default capacities are in the range of R8. -/
theorem resetStateHasTheInvariant : Obligations.ResetStateHasTheInvariant :=
  ⟨inv_fresh binary64 (by decide) (by decide), fun _ _ _ wa _ _ hi hi' ho ho' => inv_fresh wa ⟨hi, hi'⟩ ⟨ho, ho'⟩⟩

end Sys2Proof.Machine
end

section
/-! PROOFS. The paths of a tree (10_state.md R41(b)): every node has one parent, so it is reached from ROOT in one way. -/

namespace Sys2Proof.Machine

variable {W : Type} [Inhabited W] {wa : WArith W} {s : State.Of W}

/-- The field of a node that a bit of a path selects. -/
def State.Of.child (s : State.Of W) (b : Bool) (i : Nat) : BitVec 9 := if b then (s.nodeAt i).right else (s.nodeAt i).left

/-! ### Following a path -/

@[simp] theorem follow_nil (s : State.Of W) (i : Nat) : s.follow i [] = some i := rfl

theorem follow_cons (s : State.Of W) (i : Nat) (b : Bool) (bits : BitString) :
    s.follow i (b :: bits) =
      if (s.nodeAt i).leaf = true ∨ s.child b i = 0x1FF#9 then none else s.follow (s.child b i).toNat bits := by
  by_cases hleaf : (s.nodeAt i).leaf = true <;> simp [State.Of.follow, State.Of.child, hleaf]

theorem follow_cons_eq_some {i j : Nat} {b : Bool} {bits : BitString} :
    s.follow i (b :: bits) = some j ↔
      (s.nodeAt i).leaf = false ∧ s.child b i ≠ 0x1FF#9 ∧ s.follow (s.child b i).toNat bits = some j := by
  rw [follow_cons]
  split_ifs with h
  · simp only [false_iff]
    rintro ⟨hleaf, hnil, -⟩
    simp [hleaf, hnil] at h
  · rw [not_or] at h
    simp [h]

theorem follow_append (s : State.Of W) (i : Nat) (xs ys : BitString) :
    s.follow i (xs ++ ys) = (s.follow i xs).bind (fun k => s.follow k ys) := by
  induction xs generalizing i with
  | nil => rfl
  | cons b xs ih =>
    rw [List.cons_append, follow_cons, follow_cons]
    split_ifs
    · rfl
    · exact ih _

/-- The last move of a path. -/
theorem follow_concat_eq_some {i j : Nat} {b : Bool} {bits : BitString} :
    s.follow i (bits ++ [b]) = some j ↔
      ∃ k, s.follow i bits = some k ∧ (s.nodeAt k).leaf = false ∧ s.child b k ≠ 0x1FF#9 ∧ (s.child b k).toNat = j := by
  simp [follow_append, Option.bind_eq_some_iff, follow_cons_eq_some]

/-! ### Nodes and their parents in a tree -/

theorem root_lt (htree : s.treeOk wa) : s.root.toNat < s.nnode.toNat := by
  obtain ⟨-, hroot, -⟩ := htree
  omega

theorem childCount_of_treeOk (htree : s.treeOk wa) {j : Nat} (hj : j < s.nnode.toNat) :
    s.childCount j = if j = s.root.toNat then 0 else 1 := by
  obtain ⟨-, -, -, -, hcounts⟩ := htree
  exact hcounts j hj

/-- A child that is a node of the tree is the child of an internal node, and comes before it. -/
theorem child_lt (htree : s.treeOk wa) {b : Bool} {i : Nat} (hi : i < s.nnode.toNat)
    (hj : s.child b i ≠ 0x1FF#9) : (s.nodeAt i).leaf = false ∧ (s.child b i).toNat < i := by
  obtain ⟨-, -, hleaves, hinternal, -⟩ := htree
  by_cases hin : i < s.nsfl.toNat
  · simp [State.Of.child, hleaves i hin] at hj
  · obtain ⟨hleaf, -, hl, hr, -⟩ := hinternal i hi (not_lt.1 hin)
    refine ⟨hleaf, ?_⟩
    cases b
    · exact hl
    · exact hr

/-- Nothing outside the tree is reached from inside it. -/
theorem follow_lt (htree : s.treeOk wa) {i j : Nat} {bits : BitString} (hi : i < s.nnode.toNat)
    (h : s.follow i bits = some j) : j < s.nnode.toNat := by
  induction bits generalizing i with
  | nil => exact Option.some.inj h ▸ hi
  | cons b bits ih =>
    obtain ⟨-, hnil, h⟩ := follow_cons_eq_some.1 h
    exact ih ((child_lt htree hi hnil).2.trans hi) h

theorem not_child_of_childCount_eq_zero {j : Nat} (h : s.childCount j = 0) {b : Bool} {i : Nat} (hi : i < s.nnode.toNat) :
    (s.child b i).toNat ≠ j := by
  simp only [State.Of.childCount, Nat.add_eq_zero_iff, List.countP_eq_zero, List.mem_range, beq_iff_eq] at h
  cases b
  · exact h.1 i hi
  · exact h.2 i hi

/-- The indices whose field selected by `b` is `j`. -/
def State.Of.parents (s : State.Of W) (b : Bool) (j : Nat) : List Nat :=
  (List.range s.nnode.toNat).filter (fun i => (s.child b i).toNat == j)

theorem mem_parents {b : Bool} {i j : Nat} : i ∈ s.parents b j ↔ i < s.nnode.toNat ∧ (s.child b i).toNat = j := by
  simp [State.Of.parents]

theorem childCount_eq_length_parents (s : State.Of W) (j : Nat) :
    s.childCount j = (s.parents false j).length + (s.parents true j).length := by
  simp [State.Of.childCount, State.Of.parents, State.Of.child, List.countP_eq_length_filter]

theorem existsUnique_parent {j : Nat} (h : s.childCount j = 1) :
    ∃ b i, (i < s.nnode.toNat ∧ (s.child b i).toNat = j) ∧
      ∀ b' i', i' < s.nnode.toNat → (s.child b' i').toNat = j → b' = b ∧ i' = i := by
  suffices hb : ∃ b i, s.parents b j = [i] ∧ s.parents (!b) j = [] by
    obtain ⟨b, i, hone, hnone⟩ := hb
    refine ⟨b, i, mem_parents.1 (hone ▸ List.mem_singleton_self i), fun b' i' hi' hj => ?_⟩
    have hmem : i' ∈ s.parents b' j := mem_parents.2 ⟨hi', hj⟩
    obtain rfl | rfl := Bool.eq_or_eq_not b' b
    · exact ⟨rfl, List.mem_singleton.1 (hone ▸ hmem)⟩
    · simp [hnone] at hmem
  rw [childCount_eq_length_parents] at h
  obtain ⟨h0, h1⟩ | ⟨h1, h0⟩ := Nat.add_eq_one_iff.1 h
  · obtain ⟨i, hi⟩ := List.length_eq_one_iff.1 h1
    exact ⟨true, i, hi, List.length_eq_zero_iff.1 h0⟩
  · obtain ⟨i, hi⟩ := List.length_eq_one_iff.1 h1
    exact ⟨false, i, hi, List.length_eq_zero_iff.1 h0⟩

/-! ### One path to every node -/

/-- By induction from ROOT down: the path to a node is the path to its one parent and one more move. -/
theorem existsUnique_path (htree : s.treeOk wa) (hnn : s.nnode.toNat ≤ 511) {j : Nat} (hj : j < s.nnode.toNat) :
    ∃! bits, s.follow s.root.toNat bits = some j := by
  have hroot := root_lt htree
  induction hm : s.nnode.toNat - j using Nat.strong_induction_on generalizing j with
  | _ m ih =>
  have hcount := childCount_of_treeOk htree hj
  split_ifs at hcount with hjr
  · refine ⟨[], congrArg some hjr.symm, fun bits hbits => ?_⟩
    obtain rfl | ⟨bits, b, rfl⟩ := bits.eq_nil_or_concat
    · rfl
    · rw [List.concat_eq_append] at hbits
      obtain ⟨k, hk, -, -, hkj⟩ := follow_concat_eq_some.1 hbits
      exact absurd hkj (not_child_of_childCount_eq_zero hcount (follow_lt htree hroot hk))
  · obtain ⟨b, i, ⟨hi, hij⟩, honly⟩ := existsUnique_parent hcount
    have hnil : s.child b i ≠ 0x1FF#9 := fun h => by
      have : j = 511 := hij.symm.trans (congrArg BitVec.toNat h)
      omega
    obtain ⟨hleaf, hlt⟩ := child_lt htree hi hnil
    obtain ⟨bits, hbits, hunique⟩ := ih _ (by omega) hi rfl
    refine ⟨bits ++ [b], follow_concat_eq_some.2 ⟨i, hbits, hleaf, hnil, hij⟩, fun bits' hbits' => ?_⟩
    obtain rfl | ⟨bits', b', rfl⟩ := bits'.eq_nil_or_concat
    · exact absurd (Option.some.inj hbits').symm hjr
    · rw [List.concat_eq_append] at hbits' ⊢
      obtain ⟨k, hk, -, -, hkj⟩ := follow_concat_eq_some.1 hbits'
      obtain ⟨rfl, rfl⟩ := honly b' k (follow_lt htree hroot hk) hkj
      rw [hunique bits' hk]

/-- In TREED and CODED there is a list, the tree over it, and the queues are done. -/
theorem tree_of_hasTree (hs : s.pipelineOk wa) (hp : s.phase ∈ [Phase.treed, .coded]) :
    s.listOk wa ∧ s.treeOk wa ∧ s.queuesDone := by
  obtain ⟨-, -, htreed, hcoded, -⟩ := hs
  simp only [List.mem_cons, List.not_mem_nil, or_false] at hp
  obtain hp | hp := hp
  · obtain ⟨hlist, htree, hqueues, -⟩ := htreed hp
    exact ⟨hlist, htree, hqueues⟩
  · obtain ⟨hlist, htree, hqueues, -⟩ := hcoded hp
    exact ⟨hlist, htree, hqueues⟩

/-- A list of at most 256 entries has a tree of at most 511 nodes. -/
theorem nnode_le (hlist : s.listOk wa) (htree : s.treeOk wa) : s.nnode.toNat ≤ 511 := by
  obtain ⟨⟨-, hmax, -⟩, -, -⟩ := hlist
  obtain ⟨hnn, -⟩ := htree
  omega

/-- Settles O50, by induction from ROOT down to the node. -/
theorem everyNodeHasExactlyOnePath : Obligations.EveryNodeHasExactlyOnePath := by
  rintro W _ _ wa s ⟨-, -, hpipe⟩ hp
  obtain ⟨hlist, htree, -⟩ := tree_of_hasTree hpipe hp
  exact ⟨fun j hj => existsUnique_path htree (nnode_le hlist htree) hj, fun bits j h => follow_lt htree (root_lt htree) h⟩

end Sys2Proof.Machine
end

section
/-! PROOFS. TB.RUN (42_tree_builder.md): each iteration of the merge loop takes two nodes and pushes one, so the loop ends with one
node left (R154); and what it pushes is a tree (R156). -/

namespace Sys2Proof.Machine

variable {W : Type} [Inhabited W]

/-! ### The two queues -/

/-- Node `j` has been taken from its queue; `n` is the end of `source` and the start of `target` (R150). -/
abbrev TreeQueues.taken (n : Nat) (q : TreeQueues W) (j : Nat) : Prop := j < q.srch ∨ n ≤ j ∧ j < q.tgth

/-- The queue pointers after any number of iterations: every push has cost two pops, and the last push left `target` non-empty. -/
structure TreeQueues.Counted (n : Nat) (q : TreeQueues W) : Prop where
  srch_le : q.srch ≤ n
  le_tgth : n ≤ q.tgth
  tgth_le : q.tgth ≤ q.tgtt
  pops : q.srch + q.tgth + n = 2 * q.tgtt
  nonempty : q.tgtt = n ∨ q.tgth < q.tgtt

/-- The queue pointers after the last iteration (R154). -/
structure TreeQueues.Finished (n : Nat) (q : TreeQueues W) : Prop where
  srch_eq : q.srch = n
  tgth_eq : q.tgth + 2 = 2 * n
  tgtt_eq : q.tgtt + 1 = 2 * n

/-- `q'` is `q` after one `popmin()` that took node `r`. -/
structure Pops (n : Nat) (q : TreeQueues W) (r : Nat) (q' : TreeQueues W) : Prop where
  node_eq : q'.node = q.node
  tgtt_eq : q'.tgtt = q.tgtt
  srch_le : q'.srch ≤ n
  le_tgth : n ≤ q'.tgth
  tgth_le : q'.tgth ≤ q'.tgtt
  pops : q'.srch + q'.tgth = q.srch + q.tgth + 1
  lt : r < q.tgtt
  fresh : ¬ q.taken n r
  taken_iff : ∀ j, q'.taken n j ↔ q.taken n j ∨ j = r

theorem popMin_pops {wa : WArith W} {n r : Nat} {q q' : TreeQueues W} (hs : q.srch ≤ n) (ht : n ≤ q.tgth)
    (hg : q.tgth ≤ q.tgtt) (h : popMin wa n q = some (r, q')) : Pops n q r q' := by
  obtain ⟨hlt, rfl, rfl⟩ | ⟨hlt, rfl, rfl⟩ := popMin_some h
  · exact
      { node_eq := rfl, tgtt_eq := rfl, srch_le := hlt, le_tgth := ht, tgth_le := hg
        pops := by simp only; omega
        lt := by omega
        fresh := by omega
        taken_iff := fun j => by simp only [TreeQueues.taken]; omega }
  · exact
      { node_eq := rfl, tgtt_eq := rfl, srch_le := hs, le_tgth := by simp only; omega, tgth_le := hlt
        pops := by simp only; omega
        lt := hlt
        fresh := by omega
        taken_iff := fun j => by simp only [TreeQueues.taken]; omega }

theorem exists_popMin {wa : WArith W} {n : Nat} {q : TreeQueues W} (h : q.srch < n ∨ q.tgth < q.tgtt) :
    ∃ r q', popMin wa n q = some (r, q') := by
  cases hpop : popMin wa n q with
  | none =>
    obtain ⟨hs, ht⟩ := popMin_none hpop
    omega
  | some x => exact ⟨x.1, x.2, rfl⟩

/-! ### One iteration -/

variable [DecidableEq W]

/-- `q'` is `q` after one iteration, which took `a` and `b` and pushed the internal node over them. -/
structure Merges (wa : WArith W) (n : Nat) (q : TreeQueues W) (a b : Nat) (q' : TreeQueues W) : Prop where
  node_eq : q'.node = Memory.write unlistedNode q.node q.tgtt (internalOf wa q a b)
  tgtt_eq : q'.tgtt = q.tgtt + 1
  room : q.tgtt + 2 ≤ 2 * n
  lt_left : a < q.tgtt
  lt_right : b < q.tgtt
  ne : a ≠ b
  fresh_left : ¬ q.taken n a
  fresh_right : ¬ q.taken n b
  taken_iff : ∀ j, q'.taken n j ↔ q.taken n j ∨ j = a ∨ j = b

omit [Inhabited W] [DecidableEq W] in
theorem moreToMerge_iff {n : Nat} {q : TreeQueues W} : moreToMerge n q = true ↔ q.srch < n ∨ q.tgth + 1 < q.tgtt := by
  simp only [moreToMerge, Bool.or_eq_true, decide_eq_true_eq]
  omega

/-- An iteration that starts with two nodes in the queues completes. -/
theorem mergeOnce_merges (wa : WArith W) {n : Nat} {q : TreeQueues W} (hn : 2 ≤ n) (hq : q.Counted n)
    (hmore : moreToMerge n q = true) : ∃ a b q', mergeOnce wa n q = .ok q' ∧ Merges wa n q a b q' ∧ q'.Counted n := by
  obtain ⟨hs, ht, hg, hsum, hne⟩ := hq
  rw [moreToMerge_iff] at hmore
  obtain ⟨a, q1, h1⟩ := exists_popMin (wa := wa) (n := n) (q := q) (by omega)
  have p1 := popMin_pops hs ht hg h1
  have hsum1 := p1.pops
  have htgtt1 := p1.tgtt_eq
  obtain ⟨b, q2, h2⟩ := exists_popMin (wa := wa) (n := n) (q := q1) (by
    have := p1.srch_le
    have := p1.tgth_le
    omega)
  have p2 := popMin_pops p1.srch_le p1.le_tgth p1.tgth_le h2
  have hsum2 := p2.pops
  have htgtt2 := p2.tgtt_eq.trans htgtt1
  have hs2 := p2.srch_le
  have hg2 := p2.tgth_le
  have hfresh := p2.fresh
  rw [p1.taken_iff, not_or] at hfresh
  refine ⟨a, b, pushInternal wa q2 a b, by simp [mergeOnce, h1, h2], ?_, ?_⟩
  · exact
      { node_eq := by simp [pushInternal, internalOf, TreeQueues.at, p2.node_eq, p1.node_eq, htgtt2]
        tgtt_eq := by simp [pushInternal, htgtt2]
        room := by omega
        lt_left := p1.lt
        lt_right := htgtt1 ▸ p2.lt
        ne := fun h => hfresh.2 h.symm
        fresh_left := p1.fresh
        fresh_right := hfresh.1
        taken_iff := fun j => (p2.taken_iff j).trans (by rw [p1.taken_iff, or_assoc]) }
  · exact
      { srch_le := hs2
        le_tgth := p2.le_tgth
        tgth_le := hg2.trans (Nat.le_succ _)
        pops := by simp only [pushInternal]; omega
        nonempty := .inr (Nat.lt_succ_of_le hg2) }

/-! ### The loop -/

/-- The loop ends with one node, and keeps whatever every iteration keeps. `P` is a property of the queues. -/
theorem mergeLoop_completes {wa : WArith W} {n : Nat} (hn : 2 ≤ n) {P : TreeQueues W → Prop}
    (hP : ∀ q a b q', Merges wa n q a b q' → P q → P q') (fuel : Nat) {q : TreeQueues W} (hq : q.Counted n) (h : P q)
    (hfuel : 2 * n ≤ q.tgtt + fuel) : ∃ q', mergeLoop wa n fuel q = .ok q' ∧ q'.Finished n ∧ P q' := by
  induction fuel generalizing q with
  | zero =>
    obtain ⟨hs, ht, hg, hsum, hne⟩ := hq
    omega
  | succ fuel ih =>
    rw [mergeLoop]
    split_ifs with hmore
    · obtain ⟨a, b, q', hq', hm, hc⟩ := mergeOnce_merges wa hn hq hmore
      rw [hq']
      exact ih hc (hP q a b q' hm h) (by rw [hm.tgtt_eq]; omega)
    · obtain ⟨hs, ht, hg, hsum, hne⟩ := hq
      rw [moreToMerge_iff] at hmore
      exact ⟨q, rfl, ⟨by omega, by omega, by omega⟩, h⟩

theorem counted_loadLeaves (node : Memory (Node.Of W)) (entries : List (Entry.Of W)) :
    (loadLeaves node entries).Counted entries.length :=
  ⟨Nat.zero_le _, le_refl _, le_refl _, by simp only [loadLeaves]; omega, .inl rfl⟩

/-- TB.RUN's loop completes on every list of two or more entries (R154). -/
theorem mergeAll_completes {wa : WArith W} {entries : List (Entry.Of W)} (hn : 2 ≤ entries.length)
    {P : TreeQueues W → Prop} (hP : ∀ q a b q', Merges wa entries.length q a b q' → P q → P q')
    {node : Memory (Node.Of W)} (h : P (loadLeaves node entries)) :
    ∃ q, mergeAll wa entries.length (loadLeaves node entries) = .ok q ∧ q.Finished entries.length ∧ P q := by
  obtain ⟨q, hq, hfin, hPq⟩ := mergeLoop_completes hn hP entries.length (counted_loadLeaves node entries) h
    (by simp only [loadLeaves]; omega)
  have hone : q.tgtt - q.tgth = 1 := by
    have := hfin.tgth_eq
    have := hfin.tgtt_eq
    omega
  exact ⟨q, by simp [mergeAll, hq, hone], hfin, hPq⟩

/-- On a shorter list it fails with the leaves loaded and the queues empty (R155). -/
theorem mergeAll_fails (wa : WArith W) {entries : List (Entry.Of W)} (hn : entries.length < 2) (node : Memory (Node.Of W)) :
    mergeAll wa entries.length (loadLeaves node entries) =
      .error { loadLeaves node entries with srch := entries.length } := by
  obtain h | h : entries.length = 0 ∨ entries.length = 1 := by omega
  · simp [mergeAll, mergeLoop, loadLeaves, h]
  · simp [mergeAll, mergeLoop, moreToMerge, mergeOnce, popMin, loadLeaves, h]

/-! ### What the loop builds -/

/-- R36, R153: node `i` is internal over two different earlier nodes and weighs their sum. -/
abbrev TreeQueues.internalAt (wa : WArith W) (q : TreeQueues W) (i : Nat) : Prop :=
  (q.at i).leaf = false ∧ (q.at i).sym = 0#8 ∧
  (q.at i).left.toNat < i ∧ (q.at i).right.toNat < i ∧ (q.at i).left ≠ (q.at i).right ∧
  (q.at i).w = wa.wadd (q.at (q.at i).left.toNat).w (q.at (q.at i).right.toNat).w

/-- How often `j` is a left or right field among the first `m` nodes. -/
def TreeQueues.childCount (q : TreeQueues W) (m j : Nat) : Nat :=
  (List.range m).countP (fun i => (q.at i).left.toNat == j) + (List.range m).countP (fun i => (q.at i).right.toNat == j)

/-- The invariant of the loop: a forest over the entries, whose roots are the nodes not taken yet. -/
structure TreeQueues.Forest (wa : WArith W) (entries : List (Entry.Of W)) (q : TreeQueues W) : Prop where
  wf : Memory.wf unlistedNode Config.nodeMax q.node
  leaf : ∀ i (h : i < entries.length), q.at i = leafOf entries[i]
  internal : ∀ i, entries.length ≤ i → i < q.tgtt → q.internalAt wa i
  le_tgtt : entries.length ≤ q.tgtt
  count : ∀ j < Config.nodeMax, q.childCount q.tgtt j = if q.taken entries.length j then 1 else 0

theorem at_loadLeaves {node : Memory (Node.Of W)} (hwf : Memory.wf unlistedNode Config.nodeMax node)
    {entries : List (Entry.Of W)} (hlen : entries.length ≤ 256) {i : Nat} (hi : i < entries.length) :
    (loadLeaves node entries).at i = leafOf entries[i] := by
  have hlen' : 0 + (entries.map leafOf).length ≤ Config.nodeMax := by
    simp only [List.length_map, Config.nodeMax]
    omega
  simp [TreeQueues.at, loadLeaves, Memory.read_writeFrom hwf hlen', hi]

theorem wf_loadLeaves {node : Memory (Node.Of W)} (hwf : Memory.wf unlistedNode Config.nodeMax node)
    {entries : List (Entry.Of W)} (hlen : entries.length ≤ 256) :
    Memory.wf unlistedNode Config.nodeMax (loadLeaves node entries).node :=
  Memory.writeFrom_wf hwf (by simp only [List.length_map, Config.nodeMax]; omega)

theorem forest_loadLeaves (wa : WArith W) {node : Memory (Node.Of W)}
    (hwf : Memory.wf unlistedNode Config.nodeMax node) {entries : List (Entry.Of W)} (hlen : entries.length ≤ 256) :
    (loadLeaves node entries).Forest wa entries where
  wf := wf_loadLeaves hwf hlen
  leaf i hi := at_loadLeaves hwf hlen hi
  internal i hi hi' := absurd hi' (not_lt.2 hi)
  le_tgtt := le_refl _
  count j hj := by
    have hnone : ¬ (loadLeaves node entries).taken entries.length j := by
      simp only [TreeQueues.taken, loadLeaves]
      omega
    have hnil : Config.nil.toNat ≠ j := by
      simp only [Config.nodeMax] at hj
      simp only [Config.nil, BitVec.reduceToNat]
      omega
    rw [if_neg hnone, TreeQueues.childCount, Nat.add_eq_zero_iff, List.countP_eq_zero, List.countP_eq_zero]
    constructor <;> intro i hi <;> rw [at_loadLeaves hwf hlen (List.mem_range.1 hi)] <;> simpa [leafOf] using hnil

section
variable {wa : WArith W} {n a b : Nat} {q q' : TreeQueues W} (hm : Merges wa n q a b q')
include hm

theorem Merges.toNat_left (hn : n ≤ 256) : (internalOf wa q a b).left.toNat = a := by
  have := hm.room
  have := hm.lt_left
  simp only [internalOf, BitVec.toNat_ofNat]
  omega

theorem Merges.toNat_right (hn : n ≤ 256) : (internalOf wa q a b).right.toNat = b := by
  have := hm.room
  have := hm.lt_right
  simp only [internalOf, BitVec.toNat_ofNat]
  omega

variable (hwf : Memory.wf unlistedNode Config.nodeMax q.node)
include hwf

theorem Merges.at_push : q'.at q.tgtt = internalOf wa q a b := by
  rw [TreeQueues.at, hm.node_eq, Memory.read_write_same hwf]

theorem Merges.at_below {i : Nat} (hi : i < q.tgtt) : q'.at i = q.at i := by
  rw [TreeQueues.at, hm.node_eq, Memory.read_write_other hwf hi.ne]
  rfl

theorem Merges.internalAt_below {i : Nat} (hi : i < q.tgtt) (h : q.internalAt wa i) : q'.internalAt wa i := by
  obtain ⟨hleaf, hsym, hl, hr, hne, hw⟩ := h
  simp only [TreeQueues.internalAt, hm.at_below hwf hi, hm.at_below hwf (hl.trans hi), hm.at_below hwf (hr.trans hi)]
  exact ⟨hleaf, hsym, hl, hr, hne, hw⟩

variable (hn : n ≤ 256)
include hn

theorem Merges.internalAt_push : q'.internalAt wa q.tgtt := by
  have hleft := hm.toNat_left hn
  have hright := hm.toNat_right hn
  rw [TreeQueues.internalAt, hm.at_push hwf, hleft, hright, hm.at_below hwf hm.lt_left, hm.at_below hwf hm.lt_right]
  refine ⟨rfl, rfl, hm.lt_left, hm.lt_right, fun h => hm.ne ?_, rfl⟩
  rw [← hleft, h, hright]

theorem Merges.childCount_push (j : Nat) :
    q'.childCount q'.tgtt j = q.childCount q.tgtt j + ((if a = j then 1 else 0) + if b = j then 1 else 0) := by
  have hbelow : ∀ f : Node.Of W → BitVec 9,
      (List.range q.tgtt).countP (fun i => (f (q'.at i)).toNat == j) =
        (List.range q.tgtt).countP (fun i => (f (q.at i)).toNat == j) := fun f =>
    List.countP_congr fun i hi => by rw [hm.at_below hwf (List.mem_range.1 hi)]
  simp only [TreeQueues.childCount, hm.tgtt_eq, List.range_succ, List.countP_append, List.countP_singleton,
    hbelow (·.left), hbelow (·.right), hm.at_push hwf, hm.toNat_left hn, hm.toNat_right hn, beq_iff_eq]
  omega

end

/-- Every iteration keeps the forest. -/
theorem Merges.forest {wa : WArith W} {entries : List (Entry.Of W)} {q q' : TreeQueues W} {a b : Nat}
    (hlen : entries.length ≤ 256) (hm : Merges wa entries.length q a b q') (h : q.Forest wa entries) : q'.Forest wa entries where
  wf := by
    have := hm.room
    exact hm.node_eq ▸ Memory.write_wf h.wf (by simp only [Config.nodeMax]; omega) _
  leaf i hi := (hm.at_below h.wf (hi.trans_le h.le_tgtt)).trans (h.leaf i hi)
  internal i hi hi' := by
    rw [hm.tgtt_eq] at hi'
    obtain rfl | hlt := Nat.eq_or_lt_of_le (Nat.le_of_lt_succ hi')
    · exact hm.internalAt_push h.wf hlen
    · exact hm.internalAt_below h.wf hlt (h.internal i hi hlt)
  le_tgtt := by
    rw [hm.tgtt_eq]
    exact Nat.le_succ_of_le h.le_tgtt
  count j hj := by
    have hne := hm.ne
    have hl := hm.fresh_left
    have hr := hm.fresh_right
    rw [hm.childCount_push h.wf hlen, h.count j hj]
    simp only [hm.taken_iff]
    by_cases hja : a = j
    · subst hja
      simp [hl, hne.symm]
    · by_cases hjb : b = j
      · subst hjb
        simp [hr, hne]
      · simp [hja, hjb, Ne.symm hja, Ne.symm hjb]

/-- TB.RUN's loop builds one tree over the entries, in every canonical node memory. -/
theorem mergeAll_forest (wa : WArith W) (node : Memory (Node.Of W)) {entries : List (Entry.Of W)} (hn : 2 ≤ entries.length)
    (hlen : entries.length ≤ 256) :
    ∃ q, mergeAll wa entries.length (loadLeaves node entries) = .ok q ∧ q.Finished entries.length ∧
      (Memory.wf unlistedNode Config.nodeMax node → q.Forest wa entries) :=
  mergeAll_completes hn (fun _ _ _ _ hm h hwf => hm.forest hlen (h hwf)) (fun hwf => forest_loadLeaves wa hwf hlen)

/-! ### The state TB.RUN leaves -/

section
variable {s : State.Of W}

omit [DecidableEq W] in
@[simp] theorem length_sflList (s : State.Of W) : s.sflList.length = s.nsfl.toNat := Memory.length_first _ _

omit [DecidableEq W] in
theorem getElem_sflList {i : Nat} (hi : i < s.sflList.length) : s.sflList[i] = s.sflAt i := by
  simp [State.Of.sflList, Memory.first, State.Of.sflAt]

theorem mergeAll_sflList (wa : WArith W) (s : State.Of W) (hn : 2 ≤ s.nsfl.toNat) (hlen : s.nsfl.toNat ≤ 256) :
    ∃ q, mergeAll wa s.nsfl.toNat (loadLeaves s.node s.sflList) = .ok q ∧ q.Finished s.nsfl.toNat ∧
      (Memory.wf unlistedNode Config.nodeMax s.node → q.Forest wa s.sflList) := by
  have h := mergeAll_forest wa s.node (entries := s.sflList) (by rwa [length_sflList]) (by rwa [length_sflList])
  rwa [length_sflList] at h

theorem mergeAll_sflList_of_lt (wa : WArith W) (s : State.Of W) (hn : s.nsfl.toNat < 2) :
    mergeAll wa s.nsfl.toNat (loadLeaves s.node s.sflList) =
      .error { loadLeaves s.node s.sflList with srch := s.nsfl.toNat } := by
  have h := mergeAll_fails wa (entries := s.sflList) (by rwa [length_sflList]) s.node
  rwa [length_sflList] at h

/-- What a successful loop says of the list and of the queues. -/
theorem of_mergeAll_eq_ok {wa : WArith W} {q : TreeQueues W} (hlen : s.nsfl.toNat ≤ 256)
    (h : mergeAll wa s.nsfl.toNat (loadLeaves s.node s.sflList) = .ok q) :
    2 ≤ s.nsfl.toNat ∧ q.Finished s.nsfl.toNat ∧
      (Memory.wf unlistedNode Config.nodeMax s.node → q.Forest wa s.sflList) := by
  have hn : 2 ≤ s.nsfl.toNat := by
    by_contra hn
    rw [mergeAll_sflList_of_lt wa s (not_le.1 hn)] at h
    cases h
  obtain ⟨q', hq', hfin, hforest⟩ := mergeAll_sflList wa s hn hlen
  obtain rfl : q' = q := Except.ok.inj (hq'.symm.trans h)
  exact ⟨hn, hfin, hforest⟩

/-- What a failed loop says of the list and of the queues. -/
theorem of_mergeAll_eq_error {wa : WArith W} {q : TreeQueues W} (hlen : s.nsfl.toNat ≤ 256)
    (h : mergeAll wa s.nsfl.toNat (loadLeaves s.node s.sflList) = .error q) :
    s.nsfl.toNat < 2 ∧ q = { loadLeaves s.node s.sflList with srch := s.nsfl.toNat } := by
  have hn : s.nsfl.toNat < 2 := by
    by_contra hn
    obtain ⟨q', hq', -, -⟩ := mergeAll_sflList wa s (not_lt.1 hn) hlen
    cases hq'.symm.trans h
  exact ⟨hn, Except.error.inj (h.symm.trans (mergeAll_sflList_of_lt wa s hn))⟩

omit [Inhabited W] [DecidableEq W] in
/-- The final registers of TB.RUN (R154), for a list of at most 256 entries. -/
theorem TreeQueues.Finished.registers {q : TreeQueues W} (hfin : q.Finished s.nsfl.toNat) (hlen : s.nsfl.toNat ≤ 256) :
    (s.treeBuilt q).srch.toNat = s.nsfl.toNat ∧ (s.treeBuilt q).tgth.toNat + 2 = 2 * s.nsfl.toNat ∧
    (s.treeBuilt q).tgtt.toNat + 1 = 2 * s.nsfl.toNat ∧ (s.treeBuilt q).nnode.toNat + 1 = 2 * s.nsfl.toNat ∧
    (s.treeBuilt q).root.toNat + 2 = 2 * s.nsfl.toNat := by
  obtain ⟨hs, hh, ht⟩ := hfin
  simp only [State.Of.treeBuilt_srch, State.Of.treeBuilt_tgth, State.Of.treeBuilt_tgtt, State.Of.treeBuilt_nnode,
    State.Of.treeBuilt_root, BitVec.toNat_ofNat]
  omega

omit [DecidableEq W] in
/-- A finished forest is the tree of R36 and R41(b). -/
theorem treeOk_treeBuilt {wa : WArith W} {q : TreeQueues W} (hfin : q.Finished s.nsfl.toNat)
    (hforest : q.Forest wa s.sflList) (hn : 2 ≤ s.nsfl.toNat) (hlen : s.nsfl.toNat ≤ 256) : (s.treeBuilt q).treeOk wa := by
  obtain ⟨-, -, -, hnn, hroot⟩ := hfin.registers hlen
  have htgtt : (s.treeBuilt q).nnode.toNat = q.tgtt := by
    have := hfin.tgtt_eq
    omega
  refine ⟨by simp only [State.Of.treeBuilt_nsfl]; omega, by omega, fun i hi => ?_, fun i hi hni => ?_, fun j hj => ?_⟩
  · have hi' : i < s.sflList.length := by simpa using hi
    exact (hforest.leaf i hi').trans (by rw [getElem_sflList]; rfl)
  · exact hforest.internal i (by simpa using hni) (htgtt ▸ hi)
  · have htaken : q.taken s.nsfl.toNat j ↔ j ≠ (s.treeBuilt q).root.toNat := by
      have := hfin.srch_eq
      have := hfin.tgth_eq
      rw [ne_eq, TreeQueues.taken]
      omega
    have hcount := hforest.count j (by simp only [Config.nodeMax]; omega)
    rw [← htgtt, length_sflList] at hcount
    refine hcount.trans ?_
    simp only [htaken, ite_not]

/-- TB.RUN completes on every list of 2 to 256 entries (R154), with the tree that the loop builds. -/
theorem execTbRunWith_completes (wa : WArith W) (hwf : Memory.wf unlistedNode Config.nodeMax s.node)
    (hp : s.phase ∈ [Phase.listed, .treed, .coded]) (hn : 2 ≤ s.nsfl.toNat) (hlen : s.nsfl.toNat ≤ 256) :
    ∃ q, execTbRunWith wa s = respond (s.treeBuilt q).root.toNat (s.treeBuilt q) ∧ q.Finished s.nsfl.toNat ∧
      q.Forest wa s.sflList := by
  obtain ⟨q, hq, hfin, hforest⟩ := mergeAll_sflList wa s hn hlen
  refine ⟨q, ?_, hfin, hforest hwf⟩
  rw [execTbRunWith, whenLegal_of_legal (i := .tbRun) _ (Phase.hasList_iff.2 hp), withElements_of_le (sp := .sfl) _ hlen, hq]

theorem execWith_tbRun_builds_tree (wa : WArith W) (hwf : Memory.wf unlistedNode Config.nodeMax s.node)
    (hp : s.phase ∈ [Phase.listed, .treed, .coded]) (hn : 2 ≤ s.nsfl.toNat) (hlen : s.nsfl.toNat ≤ 256) :
    ∃ t, execWith wa .tbRun s = .next t ∧ t.treeOk wa := by
  obtain ⟨q, hq, hfin, hforest⟩ := execTbRunWith_completes wa hwf hp hn hlen
  exact ⟨_, hq, treeOk_treeBuilt hfin hforest hn hlen⟩

end

/-- Settles O42: the loop's forest is one tree when one node is left. -/
theorem tbRunBuildsATreeForEveryArithmetic : Obligations.TbRunBuildsATreeForEveryArithmetic := by
  refine ⟨fun s hcan hp hn hlen => ?_, fun W _ _ wa s hcan hp hn hlen => ?_⟩
  · obtain ⟨-, -, -, -, hnode, -⟩ := hcan
    obtain ⟨t, ht, htree⟩ := execWith_tbRun_builds_tree binary64 hnode hp hn hlen
    exact ⟨t, (execWith_binary64 _ s).symm.trans ht, htree⟩
  · obtain ⟨-, -, -, -, hnode, -⟩ := hcan
    exact execWith_tbRun_builds_tree wa hnode hp hn hlen

end Sys2Proof.Machine
end

section
/-! PROOFS. FA.RUN (41_frequency_analyzer.md): the tally counts, the entries are the symbols that occur, the edge case makes at least
two of them (R126), and the list is sorted by R127. -/

namespace Sys2Proof.Machine

variable {W : Type}

/-! ### The tally (R125) -/

theorem wf_countOne {cnt : Memory (BitVec 25)} (h : Memory.wf unlistedCount Config.alpha cnt) (b : Byte) :
    Memory.wf unlistedCount Config.alpha (countOne cnt b) :=
  Memory.write_wf h b.isLt _

theorem wf_tally {cnt : Memory (BitVec 25)} (h : Memory.wf unlistedCount Config.alpha cnt) (bytes : List Byte) :
    Memory.wf unlistedCount Config.alpha (tally cnt bytes) := by
  induction bytes generalizing cnt with
  | nil => exact h
  | cons b bytes ih => exact ih (wf_countOne h b)

theorem read_countOne {cnt : Memory (BitVec 25)} (h : Memory.wf unlistedCount Config.alpha cnt) (b sym : Byte) :
    Memory.read unlistedCount (countOne cnt b) sym.toNat =
      Memory.read unlistedCount cnt sym.toNat + if b = sym then 1#25 else 0#25 := by
  rw [countOne, Memory.read_write h]
  by_cases hb : b = sym
  · subst hb
    simp [BitVec.ofNat_add]
  · have hne : sym.toNat ≠ b.toNat := fun h => hb (BitVec.eq_of_toNat_eq h.symm)
    simp [hb, hne]

theorem read_tally {cnt : Memory (BitVec 25)} (h : Memory.wf unlistedCount Config.alpha cnt) (bytes : List Byte) (sym : Byte) :
    Memory.read unlistedCount (tally cnt bytes) sym.toNat =
      Memory.read unlistedCount cnt sym.toNat + BitVec.ofNat 25 (bytes.count sym) := by
  induction bytes generalizing cnt with
  | nil => simp [tally]
  | cons b bytes ih =>
    rw [show tally cnt (b :: bytes) = tally (countOne cnt b) bytes from rfl, ih (wf_countOne h b), read_countOne h,
      List.count_cons, add_assoc]
    by_cases hb : b = sym <;> simp [hb, BitVec.ofNat_add, BitVec.add_comm]

/-- From no counts, the tally counts, for every stream that fits in IB. -/
theorem toNat_read_tally {bytes : List Byte} (hlen : bytes.length < 2 ^ 25) (sym : Byte) :
    (Memory.read unlistedCount (tally [] bytes) sym.toNat).toNat = bytes.count sym := by
  have hcount := bytes.count_le_length (a := sym)
  rw [read_tally (Memory.wf_nil _), Memory.read_nil, unlistedCount, BitVec.zero_add, BitVec.toNat_ofNat]
  exact Nat.mod_eq_of_lt (by omega)

/-! ### The entries (R121, R126) -/

theorem talliedEntry_eq_some {wa : WArith W} {cnt : Memory (BitVec 25)} {total x : Nat} {e : Entry.Of W} (hx : x < 256) :
    talliedEntry wa cnt total x = some e ↔
      e.sym.toNat = x ∧ 0 < (Memory.read unlistedCount cnt x).toNat ∧
        e.prob = wa.wdiv (Memory.read unlistedCount cnt x).toNat total := by
  have hsym : BitVec.ofNat 8 x = e.sym ↔ e.sym.toNat = x := by
    rw [← BitVec.toNat_inj, BitVec.toNat_ofNat, Nat.mod_eq_of_lt hx, eq_comm]
  obtain ⟨sym, prob⟩ := e
  simp only [talliedEntry, Option.ite_none_right_eq_some, Option.some.injEq, Entry.Of.mk.injEq, hsym]
  tauto

theorem mem_talliedEntries {wa : WArith W} {cnt : Memory (BitVec 25)} {total : Nat} {e : Entry.Of W} :
    e ∈ talliedEntries wa cnt total ↔
      0 < (Memory.read unlistedCount cnt e.sym.toNat).toNat ∧
        e.prob = wa.wdiv (Memory.read unlistedCount cnt e.sym.toNat).toNat total := by
  simp only [talliedEntries, List.mem_filterMap, List.mem_range]
  constructor
  · rintro ⟨x, hx, he⟩
    obtain ⟨rfl, h⟩ := (talliedEntry_eq_some hx).1 he
    exact h
  · exact fun h => ⟨_, e.sym.isLt, (talliedEntry_eq_some e.sym.isLt).2 ⟨rfl, h⟩⟩

/-- The entries are by ascending symbol (R121). -/
theorem pairwise_talliedEntries (wa : WArith W) (cnt : Memory (BitVec 25)) (total : Nat) :
    (talliedEntries wa cnt total).Pairwise (fun a b => a.sym.toNat < b.sym.toNat) := by
  refine List.pairwise_filterMap.2 (List.pairwise_lt_range.imp_of_mem fun {x y} hx hy hxy a ha b hb => ?_)
  rw [((talliedEntry_eq_some (List.mem_range.1 hx)).1 ha).1, ((talliedEntry_eq_some (List.mem_range.1 hy)).1 hb).1]
  exact hxy

theorem nodup_syms_talliedEntries (wa : WArith W) (cnt : Memory (BitVec 25)) (total : Nat) :
    ((talliedEntries wa cnt total).map (·.sym)).Nodup :=
  List.pairwise_map.2 ((pairwise_talliedEntries wa cnt total).imp fun h heq => h.ne (congrArg _ heq))

theorem length_talliedEntries_le (wa : WArith W) (cnt : Memory (BitVec 25)) (total : Nat) :
    (talliedEntries wa cnt total).length ≤ 256 :=
  (List.length_filterMap_le _ _).trans_eq (List.length_range)

theorem length_withSynthetic (wa : WArith W) (es : List (Entry.Of W)) :
    (withSynthetic wa es).length = if es.length = 1 then 2 else es.length := by
  match es with
  | [] => rfl
  | [e] => rfl
  | e :: e' :: es => simp [withSynthetic]

theorem mem_withSynthetic {wa : WArith W} {es : List (Entry.Of W)} {e : Entry.Of W} (h : e ∈ withSynthetic wa es) :
    e ∈ es ∨ e.prob = wa.wzero := by
  match es with
  | [] => exact .inl h
  | [e'] =>
    obtain rfl | rfl : e = e' ∨ e = _ := by simpa [withSynthetic] using h
    · exact .inl (List.mem_singleton_self _)
    · exact .inr rfl
  | e' :: e'' :: es => exact .inl h

theorem nodup_syms_withSynthetic (wa : WArith W) {es : List (Entry.Of W)} (h : (es.map (·.sym)).Nodup) :
    ((withSynthetic wa es).map (·.sym)).Nodup := by
  match es with
  | [] => exact h
  | [e] =>
    have hne : e.sym ≠ BitVec.ofNat 8 ((e.sym.toNat + 1) % Config.alpha) := by
      simp only [Config.alpha]
      bv_omega
    simpa [withSynthetic] using hne
  | e :: e' :: es => exact h

/-! ### The order (R127) -/

/-- What sorting needs of a weight arithmetic: on the weights of a list the two comparisons make a total preorder. -/
structure WArith.Ordered (wa : WArith W) (valid : W → Prop) : Prop where
  valid_zero : valid wa.wzero
  valid_wdiv : ∀ c t, 1 ≤ c → c ≤ t → t ≤ 2 ^ 24 → valid (wa.wdiv c t)
  total : ∀ a b, valid a → valid b → wa.wlt a b = true ∨ wa.weq a b = true ∨ wa.wlt b a = true
  weq_symm : ∀ a b, valid a → valid b → wa.weq a b = true → wa.weq b a = true
  weq_trans : ∀ a b c, valid a → valid b → valid c → wa.weq a b = true → wa.weq b c = true → wa.weq a c = true
  weq_wlt : ∀ a b c, valid a → valid b → valid c → wa.weq a b = true → wa.wlt b c = true → wa.wlt a c = true
  wlt_weq : ∀ a b c, valid a → valid b → valid c → wa.wlt a b = true → wa.weq b c = true → wa.wlt a c = true
  wlt_trans : ∀ a b c, valid a → valid b → valid c → wa.wlt a b = true → wa.wlt b c = true → wa.wlt a c = true

/-- R123: a lawful arithmetic is ordered. -/
theorem WArith.Lawful.ordered {wa : WArith W} {valid : W → Prop} (h : wa.Lawful valid) : wa.Ordered valid where
  valid_zero := h.valid_zero
  valid_wdiv := h.valid_wdiv
  total := h.total
  weq_symm a b ha hb hab := (h.weq_iff b a hb ha).2 ((h.weq_iff a b ha hb).1 hab).symm
  weq_trans a b _ ha hb _ hab hbc := (h.weq_iff a b ha hb).1 hab ▸ hbc
  weq_wlt a b _ ha hb _ hab hbc := (h.weq_iff a b ha hb).1 hab ▸ hbc
  wlt_weq _ b c _ hb hc hab hbc := (h.weq_iff b c hb hc).1 hbc ▸ hab
  wlt_trans := h.trans

/-- Binary64 compares the values of all patterns. -/
theorem binary64_ordered : binary64.Ordered (fun _ => True) where
  valid_zero := trivial
  valid_wdiv _ _ _ _ _ := trivial
  total a b _ _ := by
    simp only [binary64, wlt, weq, decide_eq_true_eq, beq_iff_eq]
    omega
  weq_symm a b _ _ := by
    simp only [binary64, weq, beq_iff_eq]
    exact Eq.symm
  weq_trans a b c _ _ _ := by
    simp only [binary64, weq, beq_iff_eq]
    exact Eq.trans
  weq_wlt a b c _ _ _ := by
    simp only [binary64, wlt, weq, decide_eq_true_eq, beq_iff_eq]
    omega
  wlt_weq a b c _ _ _ := by
    simp only [binary64, wlt, weq, decide_eq_true_eq, beq_iff_eq]
    omega
  wlt_trans a b c _ _ _ := by
    simp only [binary64, wlt, decide_eq_true_eq]
    omega

theorem entryBefore_iff {wa : WArith W} {a b : Entry.Of W} : entryBefore wa a b = true ↔ comesBefore wa a b := by
  simp [entryBefore, comesBefore]

section
variable {wa : WArith W} {valid : W → Prop} (hwa : wa.Ordered valid)
include hwa

theorem comesBefore_trans {a b c : Entry.Of W} (ha : valid a.prob) (hb : valid b.prob) (hc : valid c.prob)
    (hab : comesBefore wa a b) (hbc : comesBefore wa b c) : comesBefore wa a c := by
  obtain hab | ⟨hab, hsab⟩ := hab <;> obtain hbc | ⟨hbc, hsbc⟩ := hbc
  · exact .inl (hwa.wlt_trans _ _ _ ha hb hc hab hbc)
  · exact .inl (hwa.wlt_weq _ _ _ ha hb hc hab hbc)
  · exact .inl (hwa.weq_wlt _ _ _ ha hb hc hab hbc)
  · exact .inr ⟨hwa.weq_trans _ _ _ ha hb hc hab hbc, hsab.trans hsbc⟩

theorem comesBefore_total {a b : Entry.Of W} (ha : valid a.prob) (hb : valid b.prob) (hne : a.sym ≠ b.sym) :
    comesBefore wa a b ∨ comesBefore wa b a := by
  obtain h | h | h := hwa.total _ _ ha hb
  · exact .inl (.inl h)
  · obtain hlt | hlt := Nat.lt_or_gt_of_ne (fun h => hne (BitVec.eq_of_toNat_eq h))
    · exact .inl (.inr ⟨h, hlt⟩)
    · exact .inr (.inr ⟨hwa.weq_symm _ _ ha hb h, hlt⟩)
  · exact .inr (.inl h)

end

/-! ### The sort (R127) -/

theorem insertEntry_eq_orderedInsert (wa : WArith W) (e : Entry.Of W) (es : List (Entry.Of W)) :
    insertEntry wa e es = es.orderedInsert (fun a b => entryBefore wa a b = true) e := by
  induction es with
  | nil => rfl
  | cons x es ih => rw [insertEntry, List.orderedInsert_cons, ih]

theorem sortEntries_eq_insertionSort (wa : WArith W) (es : List (Entry.Of W)) :
    sortEntries wa es = es.insertionSort (fun a b => entryBefore wa a b = true) := by
  induction es with
  | nil => rfl
  | cons e es ih => rw [List.insertionSort_cons, ← ih, ← insertEntry_eq_orderedInsert]; rfl

theorem perm_sortEntries (wa : WArith W) (es : List (Entry.Of W)) : (sortEntries wa es).Perm es :=
  sortEntries_eq_insertionSort wa es ▸ List.perm_insertionSort _ es

theorem mem_insertEntry {wa : WArith W} {e x : Entry.Of W} {es : List (Entry.Of W)} :
    x ∈ insertEntry wa e es ↔ x = e ∨ x ∈ es := by
  rw [insertEntry_eq_orderedInsert, List.mem_orderedInsert]

section
variable {wa : WArith W} {valid : W → Prop} (hwa : wa.Ordered valid)
include hwa

theorem pairwise_insertEntry {e : Entry.Of W} {es : List (Entry.Of W)} (hvalid : ∀ x ∈ e :: es, valid x.prob)
    (hsym : ∀ x ∈ es, e.sym ≠ x.sym) (hes : es.Pairwise (comesBefore wa)) :
    (insertEntry wa e es).Pairwise (comesBefore wa) := by
  induction es with
  | nil => exact List.pairwise_singleton _ _
  | cons x es ih =>
    rw [List.forall_mem_cons, List.forall_mem_cons] at hvalid
    obtain ⟨he, hx, hvalid⟩ := hvalid
    rw [List.forall_mem_cons] at hsym
    obtain ⟨hxs, hes'⟩ := List.pairwise_cons.1 hes
    rw [insertEntry]
    split_ifs with hbefore
    · rw [entryBefore_iff] at hbefore
      refine List.pairwise_cons.2 ⟨List.forall_mem_cons.2 ⟨hbefore, fun y hy => ?_⟩, hes⟩
      exact comesBefore_trans hwa he hx (hvalid y hy) hbefore (hxs y hy)
    · have hxe : comesBefore wa x e :=
        (comesBefore_total hwa he hx hsym.1).resolve_left fun h => hbefore (entryBefore_iff.2 h)
      refine List.pairwise_cons.2 ⟨fun y hy => ?_, ih (List.forall_mem_cons.2 ⟨he, hvalid⟩) hsym.2 hes'⟩
      obtain rfl | hy := mem_insertEntry.1 hy
      · exact hxe
      · exact hxs y hy

theorem pairwise_sortEntries {es : List (Entry.Of W)} (hvalid : ∀ x ∈ es, valid x.prob) (hnodup : (es.map (·.sym)).Nodup) :
    (sortEntries wa es).Pairwise (comesBefore wa) := by
  induction es with
  | nil => exact List.Pairwise.nil
  | cons e es ih =>
    rw [List.map_cons, List.nodup_cons] at hnodup
    rw [List.forall_mem_cons] at hvalid
    have hperm := perm_sortEntries wa es
    refine pairwise_insertEntry hwa (List.forall_mem_cons.2 ⟨hvalid.1, fun x hx => hvalid.2 x (hperm.mem_iff.1 hx)⟩)
      (fun x hx h => hnodup.1 ?_) (ih hvalid.2 hnodup.2)
    exact List.mem_map.2 ⟨x, hperm.mem_iff.1 hx, h.symm⟩

end

/-! ### The list of FA.RUN -/

/-- The list that FA.RUN makes of the bytes of IB (R121, R126, R127). -/
def State.Of.analyzedList (wa : WArith W) (s : State.Of W) : List (Entry.Of W) :=
  sortEntries wa (withSynthetic wa (talliedEntries wa (tally [] s.ibBytes) s.ilen.toNat))

section
variable {wa : WArith W} {s : State.Of W}

theorem length_ibBytes (s : State.Of W) : s.ibBytes.length = s.ilen.toNat := Memory.length_first _ _

theorem toNat_read_tally_ibBytes (s : State.Of W) (sym : Byte) :
    (Memory.read unlistedCount (tally [] s.ibBytes) sym.toNat).toNat = s.ibBytes.count sym :=
  toNat_read_tally (length_ibBytes s ▸ s.ilen.isLt) sym

theorem length_analyzedList (wa : WArith W) (s : State.Of W) (hpos : 0 < s.ilen.toNat) :
    2 ≤ (s.analyzedList wa).length ∧ (s.analyzedList wa).length ≤ 256 := by
  have hle := length_talliedEntries_le wa (tally [] s.ibBytes) s.ilen.toNat
  have hne : 0 < (talliedEntries wa (tally [] s.ibBytes) s.ilen.toNat).length := by
    obtain ⟨b, hb⟩ := List.exists_mem_of_length_pos (l := s.ibBytes) (by rwa [length_ibBytes])
    have hmem : ⟨b, wa.wdiv (s.ibBytes.count b) s.ilen.toNat⟩ ∈ talliedEntries wa (tally [] s.ibBytes) s.ilen.toNat := by
      rw [mem_talliedEntries, toNat_read_tally_ibBytes]
      exact ⟨List.count_pos_iff.2 hb, rfl⟩
    exact List.length_pos_of_mem hmem
  rw [State.Of.analyzedList, (perm_sortEntries wa _).length_eq, length_withSynthetic]
  split_ifs <;> omega

theorem nodup_syms_analyzedList (wa : WArith W) (s : State.Of W) : ((s.analyzedList wa).map (·.sym)).Nodup :=
  ((perm_sortEntries wa _).map _).nodup_iff.2 (nodup_syms_withSynthetic wa (nodup_syms_talliedEntries wa _ _))

theorem pairwise_analyzedList {valid : W → Prop} (hwa : wa.Ordered valid) (hcap : s.ilen.toNat ≤ 2 ^ 24) :
    (s.analyzedList wa).Pairwise (comesBefore wa) := by
  refine pairwise_sortEntries hwa (fun e he => ?_) (nodup_syms_withSynthetic wa (nodup_syms_talliedEntries wa _ _))
  obtain he | he := mem_withSynthetic he
  · obtain ⟨hpos, hprob⟩ := mem_talliedEntries.1 he
    have hcount := s.ibBytes.count_le_length (a := e.sym)
    rw [toNat_read_tally_ibBytes] at hpos hprob
    rw [length_ibBytes] at hcount
    exact hprob ▸ hwa.valid_wdiv _ _ hpos hcount hcap
  · exact he ▸ hwa.valid_zero

variable [Inhabited W] [DecidableEq W]

theorem sfl_analyzed (wa : WArith W) (s : State.Of W) :
    (s.discardList.analyzed wa).sfl = Memory.writeFrom unlistedEntry s.sfl 0 (s.analyzedList wa) := rfl

theorem toNat_nsfl_analyzed (wa : WArith W) (hpos : 0 < s.ilen.toNat) :
    (s.discardList.analyzed wa).nsfl.toNat = (s.analyzedList wa).length := by
  have := length_analyzedList wa s hpos
  rw [show (s.discardList.analyzed wa).nsfl = BitVec.ofNat 9 (s.analyzedList wa).length from rfl, BitVec.toNat_ofNat]
  omega

theorem sflList_analyzed (wa : WArith W) (hwf : Memory.wf unlistedEntry Config.alpha s.sfl) (hpos : 0 < s.ilen.toNat) :
    (s.discardList.analyzed wa).sflList = s.analyzedList wa := by
  rw [State.Of.sflList, toNat_nsfl_analyzed wa hpos, sfl_analyzed]
  exact Memory.first_writeFrom hwf (length_analyzedList wa s hpos).2

/-- FA.RUN leaves a list as R41(a) asks. -/
theorem listOk_analyzed {valid : W → Prop} (hwa : wa.Ordered valid) (hwf : Memory.wf unlistedEntry Config.alpha s.sfl)
    (hpos : 0 < s.ilen.toNat) (hcap : s.ilen.toNat ≤ 2 ^ 24) : (s.discardList.analyzed wa).listOk wa := by
  simp only [State.Of.listOk, State.Of.listShape, sflList_analyzed wa hwf hpos, toNat_nsfl_analyzed wa hpos]
  obtain ⟨hmin, hmax⟩ := length_analyzedList wa s hpos
  exact ⟨⟨hmin, hmax, nodup_syms_analyzedList wa s⟩, pairwise_analyzedList hwa hcap, hpos⟩

end

end Sys2Proof.Machine
end

section
/-! PROOFS. CG.RUN (43_code_generator.md): when it completes, each symbol of a leaf has the path of such a leaf, and no other symbol has
a code; on a tree this is R41(c). -/

namespace Sys2Proof.Machine

variable {W : Type} [Inhabited W] {s t : State.Of W}

/-! ### Paths and leaves -/

/-- What a path leads to is a matter of NODE alone. -/
theorem follow_congr (h : t.node = s.node) : t.follow = s.follow := by
  have hat : t.nodeAt = s.nodeAt := by
    funext i
    rw [State.Of.nodeAt, State.Of.nodeAt, h]
  funext i bits
  induction bits generalizing i with
  | nil => rfl
  | cons b bits ih => simp only [State.Of.follow, hat, ih]

/-- The bits lead from node `i` to a leaf with the symbol; `isPathOf` says it of ROOT. -/
def State.Of.leadsTo (s : State.Of W) (i : Nat) (bits : BitString) (sym : Byte) : Prop :=
  ∃ j, s.follow i bits = some j ∧ (s.nodeAt j).leaf = true ∧ (s.nodeAt j).sym = sym

theorem leadsTo_of_leaf {i : Nat} (hleaf : (s.nodeAt i).leaf = true) {bits : BitString} {sym : Byte} :
    s.leadsTo i bits sym ↔ bits = [] ∧ (s.nodeAt i).sym = sym := by
  cases bits with
  | nil => simp [State.Of.leadsTo, hleaf]
  | cons b bits => simp [State.Of.leadsTo, follow_cons_eq_some, hleaf]

theorem leadsTo_of_internal {i : Nat} (hleaf : (s.nodeAt i).leaf = false) {bits : BitString} {sym : Byte} :
    s.leadsTo i bits sym ↔
      ∃ b bits', bits = b :: bits' ∧ s.child b i ≠ 0x1FF#9 ∧ s.leadsTo (s.child b i).toNat bits' sym := by
  cases bits with
  | nil => simp [State.Of.leadsTo, hleaf]
  | cons b bits => simp [State.Of.leadsTo, follow_cons_eq_some, hleaf]; tauto

/-! ### The recursion (R181) -/

/-- What a completed visit has done: written a leaf's code, or visited both children. -/
theorem visit_eq_ok {frames i : Nat} {path : BitString} {code code' : Memory Code}
    (h : visit s.node (frames + 1) i path code = .ok code') :
    (s.nodeAt i).leaf = true ∧ code' = Memory.write unlistedCode code (s.nodeAt i).sym.toNat path ∨
      (s.nodeAt i).leaf = false ∧ ∃ mid, visit s.node frames (s.child false i).toNat (path ++ [false]) code = .ok mid ∧
        visit s.node frames (s.child true i).toNat (path ++ [true]) mid = .ok code' := by
  rw [visit] at h
  split at h
  · split at h
    · exact .inl ⟨‹_›, (Except.ok.inj h).symm⟩
    · split at h
      · cases h
      · exact .inr ⟨Bool.eq_false_iff.2 ‹_›, _, ‹_›, h⟩
  · cases h

theorem lt_of_visit_eq_ok {frames i : Nat} {path : BitString} {code code' : Memory Code}
    (h : visit s.node frames i path code = .ok code') : i < 511 := by
  cases frames with
  | zero => cases h
  | succ frames =>
    rw [visit] at h
    split at h
    · assumption
    · cases h

theorem wf_visit {frames i : Nat} {path : BitString} {code code' : Memory Code}
    (hwf : Memory.wf unlistedCode Config.alpha code) (h : visit s.node frames i path code = .ok code') :
    Memory.wf unlistedCode Config.alpha code' := by
  induction frames generalizing i path code code' with
  | zero => cases h
  | succ frames ih =>
    obtain ⟨-, rfl⟩ | ⟨-, mid, hl, hr⟩ := visit_eq_ok h
    · exact Memory.write_wf hwf (s.nodeAt i).sym.isLt path
    · exact ih (ih hwf hl) hr

/-- The codes after a visit of node `i`: a path to a leaf of the symbol below `i`, or the old code if there is none. -/
theorem read_visit {frames i : Nat} {path : BitString} {code code' : Memory Code}
    (hwf : Memory.wf unlistedCode Config.alpha code) (h : visit s.node frames i path code = .ok code') (sym : Byte) :
    (∃ bits, s.leadsTo i bits sym ∧ Memory.read unlistedCode code' sym.toNat = path ++ bits) ∨
      (∀ bits, ¬ s.leadsTo i bits sym) ∧ Memory.read unlistedCode code' sym.toNat = Memory.read unlistedCode code sym.toNat := by
  induction frames generalizing i path code code' with
  | zero => cases h
  | succ frames ih =>
    obtain ⟨hleaf, rfl⟩ | ⟨hleaf, mid, hl, hr⟩ := visit_eq_ok h
    · simp only [leadsTo_of_leaf hleaf]
      by_cases hsym : (s.nodeAt i).sym = sym
      · exact .inl ⟨[], ⟨rfl, hsym⟩, by rw [hsym, Memory.read_write_same hwf, List.append_nil]⟩
      · have hne : sym.toNat ≠ (s.nodeAt i).sym.toNat := fun h => hsym (BitVec.eq_of_toNat_eq h.symm)
        exact .inr ⟨fun _ h => hsym h.2, Memory.read_write_other hwf hne path⟩
    · have hnil : ∀ b, s.child b i ≠ 0x1FF#9 := fun b hb => by
        have hlt : (s.child b i).toNat < 511 := by
          cases b
          · exact lt_of_visit_eq_ok hl
          · exact lt_of_visit_eq_ok hr
        simp [hb] at hlt
      have hdown : ∀ {b bits}, s.leadsTo (s.child b i).toNat bits sym → s.leadsTo i (b :: bits) sym := fun hb =>
        (leadsTo_of_internal hleaf).2 ⟨_, _, rfl, hnil _, hb⟩
      obtain ⟨bits, hbits, hread⟩ | ⟨hnone, hread⟩ := ih (wf_visit hwf hl) hr
      · exact .inl ⟨true :: bits, hdown hbits, by simp [hread]⟩
      · obtain ⟨bits, hbits, hread'⟩ | ⟨hnone', hread'⟩ := ih hwf hl
        · exact .inl ⟨false :: bits, hdown hbits, by simp [hread, hread']⟩
        · refine .inr ⟨fun bits hbits => ?_, hread.trans hread'⟩
          obtain ⟨b, bits', -, -, hb⟩ := (leadsTo_of_internal hleaf).1 hbits
          cases b
          · exact hnone' _ hb
          · exact hnone _ hb

/-! ### The code table of a tree (R41(c)) -/

theorem nodeAt_leaf {wa : WArith W} (htree : s.treeOk wa) {i : Nat} (hi : i < s.nsfl.toNat) :
    s.nodeAt i = ⟨true, (s.sflAt i).sym, (s.sflAt i).prob, 0x1FF#9, 0x1FF#9⟩ := by
  obtain ⟨-, -, hleaves, -⟩ := htree
  exact hleaves i hi

/-- The leaves of a tree are the nodes of the list's entries. -/
theorem lt_nsfl_of_leaf {wa : WArith W} (htree : s.treeOk wa) {i : Nat} (hi : i < s.nnode.toNat)
    (hleaf : (s.nodeAt i).leaf = true) : i < s.nsfl.toNat := by
  obtain ⟨-, -, -, hinternal, -⟩ := htree
  by_contra hge
  obtain ⟨hleaf', -⟩ := hinternal i hi (not_lt.1 hge)
  simp [hleaf] at hleaf'

theorem map_sym_sflList (s : State.Of W) : s.sflList.map (·.sym) = (List.range s.nsfl.toNat).map (fun i => (s.sflAt i).sym) := by
  simp [State.Of.sflList, Memory.first, State.Of.sflAt]

theorem sym_sflAt_inj {wa : WArith W} (hlist : s.listOk wa) {i j : Nat} (hi : i < s.nsfl.toNat) (hj : j < s.nsfl.toNat)
    (h : (s.sflAt i).sym = (s.sflAt j).sym) : i = j := by
  obtain ⟨⟨-, -, hnodup⟩, -, -⟩ := hlist
  rw [map_sym_sflList] at hnodup
  exact List.inj_on_of_nodup_map hnodup (List.mem_range.2 hi) (List.mem_range.2 hj) h

/-- From ROOT of a tree exactly one bit string leads to a symbol of the list. -/
theorem leadsTo_root_iff {wa : WArith W} (hlist : s.listOk wa) (htree : s.treeOk wa) {i : Nat} (hi : i < s.nsfl.toNat)
    {bits : BitString} : s.leadsTo s.root.toNat bits (s.sflAt i).sym ↔ s.follow s.root.toNat bits = some i := by
  constructor
  · rintro ⟨j, hj, hleaf, hsym⟩
    have hjn := lt_nsfl_of_leaf htree (follow_lt htree (root_lt htree) hj) hleaf
    rw [nodeAt_leaf htree hjn] at hsym
    rwa [← sym_sflAt_inj hlist hjn hi hsym]
  · intro h
    exact ⟨i, h, by rw [nodeAt_leaf htree hi], by rw [nodeAt_leaf htree hi]⟩

theorem not_leadsTo_root {wa : WArith W} (htree : s.treeOk wa) {sym : Byte} (hsym : sym ∉ s.sflList.map (·.sym))
    (bits : BitString) : ¬ s.leadsTo s.root.toNat bits sym := by
  rintro ⟨j, hj, hleaf, rfl⟩
  have hjn := lt_nsfl_of_leaf htree (follow_lt htree (root_lt htree) hj) hleaf
  rw [nodeAt_leaf htree hjn, map_sym_sflList] at hsym
  exact hsym (List.mem_map.2 ⟨j, List.mem_range.2 hjn, rfl⟩)

/-- CG.RUN leaves the code table of R41(c). -/
theorem codesOk_codesWritten {wa : WArith W} (hlist : s.listOk wa) (htree : s.treeOk wa) {code : Memory Code}
    (hvisit : visit s.node Config.visitFrames s.root.toNat [] [] = .ok code) :
    ({ s with code := code, phase := .coded } : State.Of W).codesOk := by
  have hread := read_visit (Memory.wf_nil _) hvisit
  rw [State.Of.codesOk, follow_congr (s := s) (t := { s with code := code, phase := .coded }) rfl]
  refine ⟨fun i hi => ?_, fun sym hsym => ?_⟩
  · obtain ⟨bits, hbits, hcode⟩ | ⟨hnone, -⟩ := hread (s.sflAt i).sym
    · have hfollow := (leadsTo_root_iff hlist htree hi).1 hbits
      rw [← List.nil_append bits, ← hcode] at hfollow
      exact hfollow
    · have hi' : i < s.nnode.toNat := by
        obtain ⟨⟨hmin, -, -⟩, -, -⟩ := hlist
        obtain ⟨hnn, -⟩ := htree
        have hi : i < s.nsfl.toNat := hi
        omega
      obtain ⟨bits, hbits, -⟩ := existsUnique_path htree (nnode_le hlist htree) hi'
      exact absurd ((leadsTo_root_iff hlist htree hi).2 hbits) (hnone bits)
  · obtain ⟨bits, hbits, -⟩ | ⟨-, hcode⟩ := hread sym
    · exact absurd hbits (not_leadsTo_root htree hsym bits)
    · exact hcode

end Sys2Proof.Machine
end

section
/-! PROOFS. What every step keeps: the canonical memories, the ranges of the registers (10_state.md R22, R8) and the pipeline invariant
(R41, R25, R30). Each is a case analysis over `Effect`. -/

namespace Sys2Proof.Machine

variable {W : Type}

/-! ### Sizes -/

theorem toNat_ofNat_le (w n : Nat) : (BitVec.ofNat w n).toNat ≤ n := by
  rw [BitVec.toNat_ofNat]
  exact Nat.mod_le n _

theorem FaultKind.number_ne_zero (f : FaultKind) : f.number ≠ 0x00#8 := by cases f <;> decide

theorem FaultKind.toNat_number_le (f : FaultKind) : f.number.toNat ≤ 0x06 := by cases f <;> decide

theorem length_groupBytes : ∀ bits : BitString, (groupBytes bits).length = bits.length / 8
  | [] | [_] | [_, _] | [_, _, _] | [_, _, _, _] | [_, _, _, _, _] | [_, _, _, _, _, _] | [_, _, _, _, _, _, _] => by
    simp [groupBytes]
  | _ :: _ :: _ :: _ :: _ :: _ :: _ :: _ :: rest => by
    simp only [groupBytes, List.length_cons, length_groupBytes rest]
    omega

/-- The padded string is the next multiple of 8 (R202). -/
theorem length_padded_eq (bits : BitString) : (padded bits).length = 8 * (bits.length / 8 + 1) := by
  rw [length_padded, padding]
  omega

theorem length_streamBits (bytes : List Byte) : (streamBits bytes).length = 8 * bytes.length := by
  induction bytes with
  | nil => rfl
  | cons b bytes ih =>
    rw [streamBits, List.flatMap_cons, List.length_append, ← streamBits, ih, length_bitsOf, List.length_cons]
    omega

/-- R222: at least one bit and at most the first byte is discarded. -/
theorem discarded_bounds (bits : BitString) : 1 ≤ discarded bits ∧ discarded bits ≤ 8 := by
  unfold discarded
  split
  · rename_i i hi
    obtain ⟨hlt, -⟩ := List.findIdx?_eq_some_iff_getElem.1 hi
    rw [List.length_take] at hlt
    omega
  · omega

theorem length_payloadOf_lt {s : State.Of W} (hpos : 0 < s.ilen.toNat) : (payloadOf s).length < 8 * s.ilen.toNat := by
  have hdisc := discarded_bounds (streamBits s.ibBytes)
  rw [payloadOf, List.length_drop, length_streamBits, length_ibBytes]
  omega

variable [Inhabited W] [DecidableEq W] {wa : WArith W} {s t : State.Of W} {i : Instr}

/-! ### The memories stay canonical -/

theorem Effect.canonical (he : Effect wa s i t) (hs : s.canonical) : t.canonical := by
  have ⟨hib, hob, hcnt, hsfl, hnode, hcode⟩ := hs
  cases he with
  | rejected | answered | inputCleared | packFault => exact hs
  | cleared => exact canonical_fresh _ _
  | pushed b d hp hroom => exact ⟨Memory.write_wf hib hroom b, hob, hcnt, hsfl, hnode, hcode⟩
  | emptyInput => exact ⟨hib, hob, Memory.wf_nil _, hsfl, hnode, Memory.wf_nil _⟩
  | analyzed d hp hpos hcap =>
    refine ⟨hib, hob, wf_tally (Memory.wf_nil _) _, ?_, hnode, Memory.wf_nil _⟩
    exact Memory.writeFrom_wf hsfl ((Nat.zero_add _).trans_le (length_analyzedList wa s hpos).2)
  | treeBuilt q d hp hn hq =>
    obtain ⟨-, -, hforest⟩ := of_mergeAll_eq_ok hn hq
    exact ⟨hib, hob, hcnt, hsfl, (hforest hnode).wf, Memory.wf_nil _⟩
  | treeFailed q hp hn hq =>
    obtain ⟨-, rfl⟩ := of_mergeAll_eq_error hn hq
    exact ⟨hib, hob, hcnt, hsfl, wf_loadLeaves hnode ((length_sflList s).trans_le hn), Memory.wf_nil _⟩
  | codesWritten code d hp hvisit => exact ⟨hib, hob, hcnt, hsfl, hnode, wf_visit (Memory.wf_nil _) hvisit⟩
  | packed bits d hp hroom =>
    refine ⟨hib, Memory.writeFrom_wf hob ?_, hcnt, hsfl, hnode, hcode⟩
    rwa [Nat.zero_add, length_groupBytes]
  | decoded out cur d hp hpos hcap hout | decodeFault out f info hp hout =>
    exact ⟨hib, Memory.writeFrom_wf hob ((Nat.zero_add _).trans_le hout), hcnt, hsfl, hnode, hcode⟩

/-! ### The registers stay in range (R22) -/

theorem Effect.inRange (he : Effect wa s i t) (hs : s.inRange) : t.inRange := by
  have ⟨hib, hob, herr, hilen, holen, htotal, hnsfl, hnnode, hroot, hnbits, hpad, hsrch, htgth, htgtt⟩ := hs
  cases he with
  | rejected | answered => exact hs
  | cleared => exact inRange_fresh (W := W) hib hob
  | inputCleared =>
    exact ⟨hib, hob, herr, Nat.zero_le _, holen, htotal, hnsfl, hnnode, hroot, hnbits, hpad, hsrch, htgth, htgtt⟩
  | pushed b d hp hroom =>
    have hilen' := (toNat_ofNat_le 25 (s.ilen.toNat + 1)).trans hroom
    exact ⟨hib, hob, herr, hilen', holen, htotal, hnsfl, hnnode, hroot, hnbits, hpad, hsrch, htgth, htgtt⟩
  | emptyInput =>
    exact ⟨hib, hob, FaultKind.toNat_number_le _, hilen, Nat.zero_le _, Nat.zero_le _, .inl rfl, Nat.zero_le _, .inl rfl,
      Nat.zero_le _, Nat.zero_le _, Nat.zero_le _, Nat.zero_le _, Nat.zero_le _⟩
  | analyzed d hp hpos hcap =>
    have hnsfl' := length_analyzedList wa s hpos
    rw [← toNat_nsfl_analyzed wa hpos] at hnsfl'
    exact ⟨hib, hob, herr, hilen, holen, hilen, .inr hnsfl', Nat.zero_le _, .inl rfl, hnbits, hpad, Nat.zero_le _,
      Nat.zero_le _, Nat.zero_le _⟩
  | treeBuilt q d hp hn hq =>
    obtain ⟨hmin, hfin, -⟩ := of_mergeAll_eq_ok hn hq
    obtain ⟨hsrch', htgth', htgtt', hnnode', hroot'⟩ := hfin.registers hn
    refine ⟨hib, hob, herr, hilen, holen, htotal, hnsfl, ?_, .inr ⟨?_, ?_⟩, hnbits, hpad, ?_, ?_, ?_⟩ <;>
      simp only [State.Of.answer_nnode, State.Of.answer_root, State.Of.answer_srch, State.Of.answer_tgth,
        State.Of.answer_tgtt] <;> omega
  | treeFailed q hp hn hq =>
    obtain ⟨-, rfl⟩ := of_mergeAll_eq_error hn hq
    have hlen := (length_sflList s).trans_le hn
    exact ⟨hib, hob, FaultKind.toNat_number_le _, hilen, Nat.zero_le _, htotal, hnsfl, Nat.zero_le _, .inl rfl,
      Nat.zero_le _, Nat.zero_le _, (toNat_ofNat_le _ _).trans hn, (toNat_ofNat_le _ _).trans (hlen.trans (by decide)),
      (toNat_ofNat_le _ _).trans (hlen.trans (by decide))⟩
  | codesWritten => exact hs
  | packed bits d hp hroom =>
    have hlen := length_padded_eq bits
    have hnbits' := toNat_ofNat_le 32 bits.length
    have hpad' := (toNat_ofNat_le 4 (padding bits.length)).trans (padding_pos bits.length).2
    refine ⟨hib, hob, herr, hilen, (toNat_ofNat_le _ _).trans hroom, htotal, hnsfl, hnnode, hroot,
      hnbits'.trans ?_, hpad', hsrch, htgth, htgtt⟩
    omega
  | packFault f info =>
    exact ⟨hib, hob, f.toNat_number_le, hilen, Nat.zero_le _, htotal, hnsfl, hnnode, hroot, Nat.zero_le _, Nat.zero_le _,
      hsrch, htgth, htgtt⟩
  | decoded out cur d hp hpos hcap hout =>
    have hlen := length_payloadOf_lt hpos
    have hnbits' := toNat_ofNat_le 32 (payloadOf s).length
    have hpad' := (toNat_ofNat_le 4 _).trans (discarded_bounds (streamBits s.ibBytes)).2
    refine ⟨hib, hob, herr, hilen, (toNat_ofNat_le _ _).trans hout, htotal, hnsfl, hnnode, hroot,
      hnbits'.trans ?_, hpad', hsrch, htgth, htgtt⟩
    omega
  | decodeFault out f info =>
    exact ⟨hib, hob, f.toNat_number_le, hilen, Nat.zero_le _, htotal, hnsfl, hnnode, hroot, Nat.zero_le _, Nat.zero_le _,
      hsrch, htgth, htgtt⟩

theorem stepWith_keeps_inRange (hs : s.inRange) (h : stepWith wa s = .next t) : t.inRange :=
  stepWith_keeps (P := State.Of.inRange) (fun _ _ hu => hu) (fun _ _ _ hu => hu)
    (fun _ ⟨hib, hob, _⟩ => inRange_fresh (W := W) hib hob) (fun _ _ _ hu he => he.inRange hu) hs h

/-- Settles O22: each effect sets its registers to values in their ranges. -/
theorem stepKeepsRegistersInRange : Obligations.StepKeepsRegistersInRange :=
  ⟨fun s _ hs h => stepWith_keeps_inRange hs ((stepWith_binary64 s).trans h), fun _ _ _ _ _ _ hs h => stepWith_keeps_inRange hs h⟩

/-! ### The pipeline invariant (R41) -/

/-- What the pipeline invariant speaks of; everything else has its reset value. -/
def State.Of.pipelinePart (s : State.Of W) : State.Of W :=
  { (State.Of.fresh 0#25 0#25 : State.Of W) with
    phase := s.phase, err := s.err, errinfo := s.errinfo, total := s.total, nsfl := s.nsfl, nnode := s.nnode, root := s.root,
    srch := s.srch, tgth := s.tgth, tgtt := s.tgtt, sfl := s.sfl, node := s.node, code := s.code }

omit [DecidableEq W] in
theorem pipelineOk_pipelinePart : s.pipelinePart.pipelineOk wa ↔ s.pipelineOk wa := by
  simp only [State.Of.pipelineOk, State.Of.codesOk, follow_congr (t := s.pipelinePart) (s := s) rfl]
  exact Iff.rfl

omit [DecidableEq W] in
/-- A command that leaves the pipeline alone keeps its invariant. -/
theorem pipelineOk_of_pipelinePart_eq (hs : s.pipelineOk wa) (h : t.pipelinePart = s.pipelinePart) : t.pipelineOk wa := by
  rw [← pipelineOk_pipelinePart, h, pipelineOk_pipelinePart]
  exact hs

omit [DecidableEq W] in
/-- In FAULT the invariant is about ERR alone. -/
theorem pipelineOk_enterFault (wa : WArith W) (s : State.Of W) (f : FaultKind) (info : Nat) :
    (s.enterFault f info).pipelineOk wa :=
  ⟨nofun, nofun, nofun, nofun, ⟨fun _ => f.number_ne_zero, fun _ => rfl⟩, fun h => absurd h f.number_ne_zero⟩

omit [DecidableEq W] in
/-- Outside FAULT there is no error. -/
theorem err_eq_zero (hs : s.pipelineOk wa) (hp : s.phase ≠ .fault) : s.err = 0x00#8 ∧ s.errinfo = 0#32 := by
  obtain ⟨-, -, -, -, hfault, hinfo⟩ := hs
  have herr : s.err = 0x00#8 := by
    by_contra herr
    exact hp (hfault.2 herr)
  exact ⟨herr, hinfo herr⟩

omit [DecidableEq W] in
/-- In LISTED, TREED and CODED there is a list. -/
theorem listOk_of_hasList (hs : s.pipelineOk wa) (hp : s.phase ∈ [Phase.listed, .treed, .coded]) : s.listOk wa := by
  obtain ⟨-, hlisted, htreed, hcoded, -⟩ := hs
  simp only [List.mem_cons, List.not_mem_nil, or_false] at hp
  obtain hp | hp | hp := hp
  · exact (hlisted hp).1
  · exact (htreed hp).1
  · exact (hcoded hp).1

omit [DecidableEq W] in
theorem pipelineOk_codesWritten (hs : s.pipelineOk wa) (hp : s.phase ∈ [Phase.treed, .coded]) {code : Memory Code}
    (hvisit : visit s.node Config.visitFrames s.root.toNat [] [] = .ok code) :
    ({ s with code := code, phase := .coded } : State.Of W).pipelineOk wa := by
  obtain ⟨hlist, htree, hqueues⟩ := tree_of_hasTree hs hp
  obtain ⟨herr, hinfo⟩ := err_eq_zero hs (ne_fault_of_hasTree hp)
  exact ⟨nofun, nofun, nofun, fun _ => ⟨hlist, htree, hqueues, codesOk_codesWritten hlist htree hvisit⟩,
    ⟨nofun, fun h => absurd herr h⟩, fun _ => hinfo⟩

theorem pipelineOk_analyzed {valid : W → Prop} (hwa : wa.Ordered valid) (hs : s.inv wa) (hp : s.phase ≠ .fault)
    (hpos : 0 < s.ilen.toNat) : (s.discardList.analyzed wa).pipelineOk wa := by
  obtain ⟨⟨-, -, -, hsfl, -⟩, ⟨⟨-, hibcap⟩, -, -, hilen, -⟩, hpipe⟩ := hs
  obtain ⟨herr, hinfo⟩ := err_eq_zero hpipe hp
  exact ⟨nofun,
    fun _ => ⟨listOk_analyzed hwa hsfl hpos (hilen.trans hibcap), ⟨rfl, rfl, rfl, rfl, rfl⟩, fun _ => rfl⟩,
    nofun, nofun, ⟨nofun, fun h => absurd herr h⟩, fun _ => hinfo⟩

theorem pipelineOk_treeBuilt (hs : s.inv wa) (hp : s.phase ∈ [Phase.listed, .treed, .coded]) (hlen : s.nsfl.toNat ≤ 256)
    {q : TreeQueues W} (hq : mergeAll wa s.nsfl.toNat (loadLeaves s.node s.sflList) = .ok q) :
    (s.treeBuilt q).pipelineOk wa := by
  obtain ⟨⟨-, -, -, -, hnode, -⟩, -, hpipe⟩ := hs
  obtain ⟨herr, hinfo⟩ := err_eq_zero hpipe (ne_fault_of_hasList hp)
  obtain ⟨hmin, hfin, hforest⟩ := of_mergeAll_eq_ok hlen hq
  have hqueues : (s.treeBuilt q).queuesDone := by
    obtain ⟨hsrch, htgth, htgtt, hnnode, hroot⟩ := hfin.registers hlen
    exact ⟨hsrch, by omega, by omega⟩
  exact ⟨nofun, nofun,
    fun _ => ⟨listOk_of_hasList (s := s) hpipe hp, treeOk_treeBuilt hfin (hforest hnode) hmin hlen, hqueues, fun _ => rfl⟩,
    nofun, ⟨nofun, fun h => absurd herr h⟩, fun _ => hinfo⟩

theorem Effect.pipelineOk {valid : W → Prop} (hwa : wa.Ordered valid) (he : Effect wa s i t) (hs : s.inv wa) :
    t.pipelineOk wa := by
  have ⟨_, _, hpipe⟩ := hs
  cases he with
  | rejected | answered | inputCleared | pushed | packed | decoded => exact pipelineOk_of_pipelinePart_eq hpipe rfl
  | cleared => exact pipelineOk_fresh wa s.ibcap s.obcap
  | emptyInput | treeFailed | packFault | decodeFault => exact pipelineOk_enterFault wa _ _ _
  | analyzed d hp hpos hcap => exact pipelineOk_of_pipelinePart_eq (pipelineOk_analyzed hwa hs hp hpos) rfl
  | treeBuilt q d hp hn hq => exact pipelineOk_of_pipelinePart_eq (pipelineOk_treeBuilt hs hp hn hq) rfl
  | codesWritten code d hp hvisit => exact pipelineOk_of_pipelinePart_eq (pipelineOk_codesWritten hpipe hp hvisit) rfl

/-- The whole invariant is kept under every arithmetic whose comparisons sort a list. -/
theorem stepWith_keeps_inv {valid : W → Prop} (hwa : wa.Ordered valid) (hs : s.inv wa) (h : stepWith wa s = .next t) :
    t.inv wa := by
  refine stepWith_keeps (P := State.Of.inv wa) (fun u rest hu => ?_) (fun u c d hu => ?_) (fun u hu => ?_)
    (fun _ u v hu he => ?_) hs h
  · obtain ⟨hcan, hrange, hpipe⟩ := hu
    exact ⟨hcan, hrange, pipelineOk_of_pipelinePart_eq hpipe rfl⟩
  · obtain ⟨hcan, hrange, hpipe⟩ := hu
    exact ⟨hcan, hrange, pipelineOk_of_pipelinePart_eq hpipe rfl⟩
  · obtain ⟨-, ⟨hib, hob, -⟩, -⟩ := hu
    exact inv_fresh wa hib hob
  · have ⟨hcan, hrange, _⟩ := hu
    exact ⟨he.canonical hcan, he.inRange hrange, he.pipelineOk hwa hu⟩

/-- Settles O23: FA.RUN sorts, TB.RUN builds a tree, CG.RUN writes its paths, and every other effect leaves the pipeline alone,
faults or clears. -/
theorem stepKeepsThePipelineInvariant : Obligations.StepKeepsThePipelineInvariant :=
  ⟨fun s _ hs h => stepWith_keeps_inv binary64_ordered hs ((stepWith_binary64 s).trans h),
    fun _ _ _ _ _ hwa _ _ hs h => stepWith_keeps_inv hwa.ordered hs h⟩

end Sys2Proof.Machine
end

section
/-! PROOFS. The command port and the memories (20_memory.md): a step runs the decoded command (R60), the memories stay canonical
(R50), reads have no side effect (R55), and no access is past the end (R56). -/

namespace Sys2Proof.Machine

variable {W : Type}

/-! ### The decoded command (R60) -/

theorem stepBy_of_command (run : Instr → State.Of W → Result W) {s : State.Of W} {w : Word} {rest : List HostInput}
    {i : Instr} (hport : s.port = .command w :: rest) (hdec : decode w = .ok i) : stepBy run s = run i { s with port := rest } := by
  simp only [stepBy, fetch_of_cons hport, hdec]

/-- Settles O5: both steps are `stepBy`, each with its meanings. -/
theorem stepExecutesDecodedCommand : Obligations.StepExecutesDecodedCommand :=
  ⟨fun _ _ _ _ hport hdec => stepBy_of_command exec hport hdec,
    fun _ _ _ wa _ _ _ _ hport hdec => stepBy_of_command (execWith wa) hport hdec, stepWith_binary64, execWith_binary64⟩

/-! ### The canonical form (R50) -/

theorem stepWith_keeps_canonical [Inhabited W] [DecidableEq W] {wa : WArith W} {s t : State.Of W} (hs : s.canonical)
    (h : stepWith wa s = .next t) : t.canonical :=
  stepWith_keeps (P := State.Of.canonical) (fun _ _ hu => hu) (fun _ _ _ hu => hu) (fun _ _ => canonical_fresh _ _)
    (fun _ _ _ hu he => he.canonical hu) hs h

/-- Settles O21: each effect writes inside its memories (`Effect.canonical`), and a reset empties them. -/
theorem stepKeepsMemoriesCanonical : Obligations.StepKeepsMemoriesCanonical :=
  ⟨fun s _ hs h => stepWith_keeps_canonical hs ((stepWith_binary64 s).trans h),
    fun _ _ _ _ _ _ hs h => stepWith_keeps_canonical hs h⟩

/-! ### Reads (R55) -/

/-- Settles O17: a read command only puts an answer on the port. -/
theorem readCommandsHaveNoSideEffect : Obligations.ReadCommandsHaveNoSideEffect := by
  intro i s t hi h
  obtain ⟨c, d, rfl, -⟩ := exec_read_next hi h
  rfl

/-! ### Past the end (R56, R259) -/

theorem readElement_of_le (sp : Space) {valid idx : Nat} (value : Nat) (s : State.Of W) (h : valid ≤ idx) :
    readElement sp valid idx value s = .next (s.answer 0x82#8 0#64) := if_pos h

/-- A read command whose body is an indexed read is RangeError past the valid elements, in every phase. -/
theorem whenLegal_readElement_of_le (i : Instr) (s : State.Of W) {sp : Space} {valid idx value : Nat}
    (hi : isReadCommand i = true) (h : valid ≤ idx) :
    whenLegal i s (readElement sp valid idx value s) = .next (s.answer 0x82#8 0#64) :=
  (whenLegal_read s _ hi).trans (readElement_of_le sp value s h)

/-- R22: the last register index is 16. -/
theorem readReg_of_lt {r : Nat} (s : State.Of W) (h : 16 < r) : readReg s r = none := by
  match r, h with
  | _ + 17, _ => rfl

theorem execRdReg_of_lt {r : Nat} (s : State.Of W) (h : 16 < r) : execRdReg r s = .next (s.answer 0x82#8 0#64) := by
  rw [execRdReg, readReg_of_lt s h, whenLegal_read s _ rfl]
  rfl

/-- Settles O10: eight of the commands are indexed reads, and RD.REG finds no register above 16. -/
theorem indexPastTheRangeIsRangeError : Obligations.IndexPastTheRangeIsRangeError :=
  fun s idx =>
    ⟨whenLegal_readElement_of_le (.ibRd idx) s rfl,
      whenLegal_readElement_of_le (.obRd idx) s rfl,
      execRdReg_of_lt s,
      fun h =>
        ⟨whenLegal_readElement_of_le (.rdSfls idx) s rfl h, whenLegal_readElement_of_le (.rdSflp idx) s rfl h⟩,
      fun h =>
        ⟨whenLegal_readElement_of_le (.rdNk idx) s rfl h, whenLegal_readElement_of_le (.rdNw idx) s rfl h,
          whenLegal_readElement_of_le (.rdNl idx) s rfl h, whenLegal_readElement_of_le (.rdNr idx) s rfl h⟩⟩

/-- R104: the room check of IB.PUSH, once the phase allows the command. -/
theorem execIbPush_of_le {s : State.Of W} (b : Byte) (hp : s.phase ≠ .fault) (h : s.ibcap.toNat ≤ s.ilen.toNat) :
    execIbPush b s = .next (s.answer 0x83#8 0#64) :=
  (whenLegal_of_legal (i := .ibPush b) _ (Phase.notFault_iff.2 hp)).trans (if_pos h)

/-- Settles O11: a full buffer has no room. -/
theorem pushIntoFullBufferIsBufferFull : Obligations.PushIntoFullBufferIsBufferFull :=
  fun _ b hp hfull => execIbPush_of_le b hp (congrArg BitVec.toNat hfull).ge

end Sys2Proof.Machine
end

section
/-! PROOFS. The command words (30_encoding.md R70, R71, R76, R80): decoding and encoding are inverse to each other between the words
that are not illegal and the well-formed commands. -/

namespace Sys2Proof

open Machine
open Laws.OpcodeField (opField_encode immField_encode)

/-! ### The two fields of a word (R70) -/

theorem opField_eq (w : Word) : opField w = w.toNat / 2 ^ 24 := by
  rw [opField, BitVec.extractLsb'_toNat, Nat.shiftRight_eq_div_pow, Nat.mod_eq_of_lt (by omega)]

theorem immField_eq (w : Word) : immField w = w.toNat % 2 ^ 24 := by
  rw [immField, BitVec.extractLsb'_toNat, Nat.shiftRight_zero]

theorem immField_lt (w : Word) : immField w < 2 ^ 24 := BitVec.isLt _

/-- A word is its two fields, so none of its bits is outside them. -/
theorem append_opField_immField (w : Word) : BitVec.ofNat 8 (opField w) ++ BitVec.ofNat 24 (immField w) = w := by
  rw [opField, immField, BitVec.ofNat_toNat, BitVec.ofNat_toNat, BitVec.setWidth_eq, BitVec.setWidth_eq,
    BitVec.extractLsb'_append_extractLsb'_eq_extractLsb' (by rfl)]
  exact BitVec.extractLsb'_eq_self

/-! ### The formats (R70): what each accepts -/

theorem formatN_eq_ok_iff {op imm : Nat} {i j : Instr} : formatN op imm i = .ok j ↔ imm = 0 ∧ i = j := by
  unfold formatN
  split <;> simp_all

theorem formatB_eq_ok_iff {op imm : Nat} {f : Nat → Instr} {j : Instr} :
    formatB op imm f = .ok j ↔ imm < 2 ^ 8 ∧ f imm = j := by
  by_cases hlt : imm < 2 ^ 8
  · rw [formatB, if_pos (by omega), Nat.mod_eq_of_lt hlt, Except.ok.injEq, and_iff_right hlt]
  · rw [formatB, if_neg (by omega)]
    exact iff_of_false nofun fun h => hlt h.1

theorem formatC_eq_ok_iff {op imm : Nat} {f : Nat → Nat → Instr} {j : Instr} :
    formatC op imm f = .ok j ↔ imm < 2 ^ 10 ∧ f (imm % 2 ^ 8) (imm / 2 ^ 8) = j := by
  by_cases hlt : imm < 2 ^ 10
  · have hchunk : imm / 2 ^ 8 < 2 ^ 2 := by omega
    rw [formatC, if_pos (by omega), Nat.mod_eq_of_lt hchunk, Except.ok.injEq, and_iff_right hlt]
  · rw [formatC, if_neg (by omega)]
    exact iff_of_false nofun fun h => hlt h.1

/-! ### The opcode map (R71) -/

theorem decodeFields_fields {i : Instr} (hi : i.wellFormed = true) : decodeFields (opcodeOf i) (operandOf i) = .ok i := by
  cases i with
  | nop | clr | ibClr | faRun | tbRun | cgRun | bpRun | decRun => rfl
  | ibRd | obRd | rdSfls | rdSflp | rdNk | rdNw | rdNl | rdNr => rfl
  | ibPush b | rdCnt b | rdClen b =>
    simp only [opcodeOf, operandOf, decodeFields, formatB_eq_ok_iff, BitVec.ofNat_toNat, BitVec.setWidth_eq, and_true]
    exact b.isLt
  | rdReg r => exact formatB_eq_ok_iff.2 ⟨of_decide_eq_true hi, rfl⟩
  | rdCbits sym k =>
    have hk : k < 2 ^ 2 := of_decide_eq_true hi
    have hsym := sym.isLt
    have hlow : (k * 256 + sym.toNat) % 2 ^ 8 = sym.toNat := by omega
    have hhigh : (k * 256 + sym.toNat) / 2 ^ 8 = k := by omega
    simp only [opcodeOf, operandOf, decodeFields, formatC_eq_ok_iff, hlow, hhigh, BitVec.ofNat_toNat, BitVec.setWidth_eq,
      and_true]
    omega

/-- A command that two fields decode to has these fields. -/
theorem fields_of_decodeFields_eq_ok {op imm : Nat} {i : Instr} (himm : imm < 2 ^ 24) (h : decodeFields op imm = .ok i) :
    i.wellFormed = true ∧ opcodeOf i = op ∧ operandOf i = imm := by
  unfold decodeFields at h
  split at h
  -- format N
  case h_1 | h_2 | h_3 | h_7 | h_8 | h_9 | h_10 | h_11 =>
    obtain ⟨rfl, rfl⟩ := formatN_eq_ok_iff.1 h
    exact ⟨rfl, rfl, rfl⟩
  -- format B with a byte
  case h_4 | h_13 | h_20 =>
    obtain ⟨hlt, rfl⟩ := formatB_eq_ok_iff.1 h
    exact ⟨rfl, rfl, (BitVec.toNat_ofNat _ _).trans (Nat.mod_eq_of_lt hlt)⟩
  -- format B with a register index
  case h_12 =>
    obtain ⟨hlt, rfl⟩ := formatB_eq_ok_iff.1 h
    exact ⟨decide_eq_true hlt, rfl, rfl⟩
  -- format C
  case h_21 =>
    obtain ⟨hlt, rfl⟩ := formatC_eq_ok_iff.1 h
    refine ⟨decide_eq_true (by omega), rfl, ?_⟩
    simp only [operandOf, BitVec.toNat_ofNat]
    omega
  case h_22 => cases h
  -- format X
  all_goals
    obtain rfl := Except.ok.inj h
    exact ⟨decide_eq_true himm, rfl, rfl⟩

/-- Settles O1: the fields of the word are the command's (R70, R71), and the opcode map reads them back. -/
theorem encodeThenDecodeIsIdentity : Obligations.EncodeThenDecodeIsIdentity := by
  intro i hi
  rw [decode, opField_encode, immField_encode i hi, decodeFields_fields hi]

/-- Settles O2: the command has the fields of the word, and the word is its two fields. -/
theorem decodedWordIsItsEncoding : Obligations.DecodedWordIsItsEncoding := by
  intro w i h
  obtain ⟨hi, hop, himm⟩ := fields_of_decodeFields_eq_ok (immField_lt w) h
  exact ⟨hi, by rw [encode, hop, himm, append_opField_immField]⟩

/-- Settles O3: the opcode map on each of the words. -/
theorem specWordsDecode : Obligations.SpecWordsDecode :=
  ⟨rfl, rfl, rfl, rfl, rfl, rfl, rfl, rfl, rfl, rfl, rfl, rfl, rfl, rfl, rfl, rfl⟩

/-! ### The illegal words (R80) -/

/-- A format refuses a word exactly when its "must be 0" bits are not. -/
theorem exists_ite_eq_error_iff {reserved : Nat} {i : Instr} {r : IllegalWord} :
    (∃ e, (if reserved = 0 then Except.ok i else .error r) = .error e) ↔ reserved ≠ 0 := by
  split <;> simp_all

theorem formatN_isError_iff {op imm : Nat} {i : Instr} : (∃ e, formatN op imm i = .error e) ↔ imm ≠ 0 :=
  exists_ite_eq_error_iff

theorem formatB_isError_iff {op imm : Nat} {f : Nat → Instr} : (∃ e, formatB op imm f = .error e) ↔ imm / 2 ^ 8 ≠ 0 :=
  exists_ite_eq_error_iff

theorem formatC_isError_iff {op imm : Nat} {f : Nat → Nat → Instr} :
    (∃ e, formatC op imm f = .error e) ↔ imm / 2 ^ 10 ≠ 0 := exists_ite_eq_error_iff

/-- The illegal words in terms of their fields. -/
theorem illegalWord_iff (w : Word) :
    illegalWord w = true ↔
      opField w ∉ opcodesN ++ opcodesB ++ opcodesX ++ opcodesC ∨ opField w ∈ opcodesN ∧ immField w ≠ 0 ∨
        opField w ∈ opcodesB ∧ immField w / 2 ^ 8 ≠ 0 ∨ opField w ∈ opcodesC ∧ immField w / 2 ^ 10 ≠ 0 := by
  simp [illegalWord, opField_eq, immField_eq, or_assoc]

theorem decodeFields_isError_iff (op imm : Nat) :
    (∃ e, decodeFields op imm = .error e) ↔
      op ∉ opcodesN ++ opcodesB ++ opcodesX ++ opcodesC ∨ op ∈ opcodesN ∧ imm ≠ 0 ∨
        op ∈ opcodesB ∧ imm / 2 ^ 8 ≠ 0 ∨ op ∈ opcodesC ∧ imm / 2 ^ 10 ≠ 0 := by
  unfold decodeFields
  split
  -- no opcode of the map
  case h_22 => simp_all [opcodesN, opcodesB, opcodesX, opcodesC]
  all_goals simp [formatN_isError_iff, formatB_isError_iff, formatC_isError_iff, opcodesN, opcodesB, opcodesX, opcodesC]

/-- The decoder refuses exactly the illegal words. -/
theorem illegalWord_iff_decode (w : Word) : illegalWord w = true ↔ ∃ e, decode w = .error e :=
  (illegalWord_iff w).trans (decodeFields_isError_iff _ _).symm

theorem stepBy_of_illegal {W : Type} (run : Instr → State.Of W → Result W) {s : State.Of W} {w : Word}
    {rest : List HostInput} {e : IllegalWord} (hport : s.port = .command w :: rest) (hdec : decode w = .error e) :
    stepBy run s = .next (({ s with port := rest } : State.Of W).answer 0x80#8 0#64) := by
  simp only [stepBy, fetch_of_cons hport, hdec, illegalCommand, reject_eq, Rejection.number]

/-- Settles O4: opcode by opcode the decoder and the formats' lists agree, and the step rejects what the decoder refuses. -/
theorem illegalWordsAreRejected : Obligations.IllegalWordsAreRejected := by
  refine ⟨illegalWord_iff_decode, fun s w rest hport hw => ?_⟩
  obtain ⟨e, hdec⟩ := (illegalWord_iff_decode w).1 hw
  exact stepBy_of_illegal exec hport hdec

end Sys2Proof
end

section
/-! PROOFS. The phase check and the response codes (30_encoding.md R78, R81, R82): every meaning stands behind check 3, which alone
answers SequenceError. -/

namespace Sys2Proof.Machine

variable {W : Type}

/-! ### The legality table (R82) -/

/-- The table read as the legal phases and read as the rejecting ones is one table. -/
theorem legal_eq (i : Instr) (p : Phase) : legal i p = !(sequenceErrorPhases i).contains p := by
  cases i <;> cases p <;> rfl

theorem legal_iff {i : Instr} {p : Phase} : legal i p = true ↔ p ∉ sequenceErrorPhases i := by
  simp [legal_eq]

theorem legal_eq_false_iff {i : Instr} {p : Phase} : legal i p = false ↔ p ∈ sequenceErrorPhases i := by
  simp [legal_eq]

theorem enterFault_rsp_ne_sequenceError (s : State.Of W) (f : FaultKind) (info : Nat) (d : Data) :
    (s.enterFault f info).rsp ≠ some ⟨0x81#8, d⟩ := by
  cases f <;> simp [FaultKind.number]

section
variable [Inhabited W] [DecidableEq W] {wa : WArith W} {i : Instr} {s t : State.Of W}

/-- Every meaning stands behind check 3 of R81. -/
theorem execWith_eq_whenLegal (wa : WArith W) (i : Instr) (s : State.Of W) : ∃ k, execWith wa i s = whenLegal i s k := by
  cases i <;> exact ⟨_, rfl⟩

theorem execWith_of_not_legal (hl : legal i s.phase = false) : execWith wa i s = .next (s.answer 0x81#8 0#64) := by
  obtain ⟨k, hk⟩ := execWith_eq_whenLegal wa i s
  exact hk.trans (whenLegal_of_not k hl)

/-- No meaning answers SequenceError behind check 3. -/
theorem rsp_ne_sequenceError_of_legal (hl : legal i s.phase = true) (h : execWith wa i s = .next t) (d : Data) :
    t.rsp ≠ some ⟨0x81#8, d⟩ := by
  by_cases hread : isReadCommand i = true
  · obtain ⟨c, d', rfl, rfl | ⟨rfl, -⟩⟩ := execWith_read_next hread h <;> simp
  cases i <;> simp only [isReadCommand, not_true_eq_false] at hread
  case nop => simp [execNop_next h]
  case clr => simp [execClr_next h]
  case ibClr =>
    obtain ⟨-, rfl⟩ | ⟨hp, -⟩ := execIbClr_next h
    · simp
    · exact absurd hp (Phase.notFault_iff.1 hl)
  case ibPush b =>
    obtain ⟨hp, -⟩ | ⟨-, -, rfl⟩ | ⟨-, -, rfl⟩ := execIbPush_next h
    · exact absurd hp (Phase.notFault_iff.1 hl)
    · simp
    · simp
  case faRun =>
    obtain ⟨hp, -⟩ | ⟨-, -, rfl⟩ | ⟨-, -, -, rfl⟩ := execFaRunWith_next h
    · exact absurd hp (Phase.notFault_iff.1 hl)
    · exact enterFault_rsp_ne_sequenceError _ _ _ d
    · simp
  case tbRun =>
    obtain ⟨hp, -⟩ | ⟨-, -, ⟨q, -, rfl⟩ | ⟨q, -, rfl⟩⟩ := execTbRunWith_next h
    · exact absurd (Phase.hasList_iff.1 hl) hp
    · simp
    · exact enterFault_rsp_ne_sequenceError _ _ _ d
  case cgRun =>
    obtain ⟨hp, -⟩ | ⟨-, code, -, rfl⟩ := execCgRun_next h
    · exact absurd (Phase.hasTree_iff.1 hl) hp
    · simp
  case bpRun =>
    obtain ⟨hp, -⟩ | ⟨-, -, ⟨j, sym, -, rfl⟩ | ⟨j, -, rfl⟩ | ⟨bits, -, -, rfl⟩⟩ := execBpRun_next h
    · exact absurd (Phase.hasCodes_iff.1 hl) hp
    · exact enterFault_rsp_ne_sequenceError _ _ _ d
    · exact enterFault_rsp_ne_sequenceError _ _ _ d
    · simp
  case decRun =>
    obtain ⟨hp, -⟩ | ⟨-, -, rfl⟩ | ⟨-, -, -, ⟨out, cur, -, rfl⟩ | ⟨out, p, -, rfl⟩ | ⟨out, p, -, rfl⟩⟩ := execDecRun_next h
    · exact absurd (Phase.hasTree_iff.1 hl) hp
    · exact enterFault_rsp_ne_sequenceError _ _ _ d
    · simp
    · exact enterFault_rsp_ne_sequenceError _ _ _ d
    · exact enterFault_rsp_ne_sequenceError _ _ _ d

end

/-- Settles O9: check 3 reads the table, and no other check or meaning answers SequenceError. -/
theorem sequenceErrorExactlyInTheTable : Obligations.SequenceErrorExactlyInTheTable := by
  intro i s
  rw [← execWith_binary64]
  exact ⟨fun hp => execWith_of_not_legal (legal_eq_false_iff.2 hp),
    fun hp t d h => rsp_ne_sequenceError_of_legal (legal_iff.2 hp) h d⟩

/-! ### The response codes (R77, R78) -/

/-- Every effect has a response: OK, a fault or a rejection. -/
theorem Effect.response [Inhabited W] [DecidableEq W] {wa : WArith W} {i : Instr} {s t : State.Of W} (he : Effect wa s i t) :
    ∃ r, t.rsp = some r ∧ (r.code = 0x00#8 ∨ (∃ f : FaultKind, r.code = f.number) ∨ ∃ rej : Rejection, r.code = rej.number) := by
  cases he with
  | rejected i rej => exact ⟨_, rfl, .inr (.inr ⟨rej, rfl⟩)⟩
  | answered | cleared | inputCleared | pushed | analyzed | treeBuilt | codesWritten | packed | decoded =>
    exact ⟨_, rfl, .inl rfl⟩
  | emptyInput => exact ⟨_, rfl, .inr (.inl ⟨.emptyInput, rfl⟩)⟩
  | treeFailed => exact ⟨_, rfl, .inr (.inl ⟨.invalidTreeState, rfl⟩)⟩
  | packFault f | decodeFault out f => exact ⟨_, rfl, .inr (.inl ⟨f, rfl⟩)⟩

/-- Settles O13: the six fault numbers, the four rejection numbers and OK are the eleven codes. -/
theorem everyCommandHasOneOfTheElevenCodes : Obligations.EveryCommandHasOneOfTheElevenCodes := by
  intro i s t h
  obtain ⟨r, hr, hcode⟩ := (effect_of_exec h).response
  refine ⟨r, hr, ?_⟩
  obtain hok | ⟨f, hf⟩ | ⟨rej, hrej⟩ := hcode
  · simp [hok]
  · rw [hf]
    cases f <;> decide
  · rw [hrej]
    cases rej <;> decide

end Sys2Proof.Machine
end

section
/-! PROOFS. The system and buffer commands (40_system_buffer.md R101 to R107): what each one answers when it completes, and the
state it leaves. -/

namespace Sys2Proof.Machine

variable {W : Type}

/-! ### NOP and CLR (R101, R102) -/

theorem execNop_eq (s : State.Of W) : execNop s = .next (s.answer 0x00#8 0#64) :=
  whenLegal_of_legal (i := .nop) _ rfl

theorem execClr_eq (s : State.Of W) : execClr s = .next (s.cleared.answer 0x00#8 0#64) :=
  whenLegal_of_legal (i := .clr) _ rfl

/-- Settles O26: both commands are legal in every phase, and CLR leaves the reset state of R40. -/
theorem nopAndClrComplete : Obligations.NopAndClrComplete :=
  fun s => ⟨execNop_eq s, _, execClr_eq s, atReset_fresh (W := Weight) s.ibcap s.obcap, rfl, rfl, rfl, rfl⟩

/-! ### IB.CLR and IB.PUSH (R103, R104) -/

theorem execIbClr_of_ne_fault {s : State.Of W} (hp : s.phase ≠ .fault) :
    execIbClr s = .next (({ s with ilen := 0#25 } : State.Of W).answer 0x00#8 0#64) :=
  whenLegal_of_legal (i := .ibClr) _ (Phase.notFault_iff.2 hp)

/-- Settles O27: outside FAULT the phase check lets IB.CLR through to its one write. -/
theorem ibClrCompletes : Obligations.IbClrCompletes :=
  fun _ hp => execIbClr_of_ne_fault hp

/-- R104: with room in IB, once the phase allows the command, the byte is pushed. -/
theorem execIbPush_of_lt {s : State.Of W} (b : Byte) (hp : s.phase ≠ .fault) (hroom : s.ilen.toNat < s.ibcap.toNat) :
    execIbPush b s = .next ((s.pushed b).answer 0x00#8 ((s.pushed b).ilen.setWidth 64)) := by
  rw [execIbPush, whenLegal_of_legal (i := .ibPush b) _ (Phase.notFault_iff.2 hp), if_neg (Nat.not_le.2 hroom), respond_eq,
    BitVec.ofNat_toNat]

/-- While there is room, ILEN does not wrap. -/
theorem toNat_ilen_pushed {s : State.Of W} (b : Byte) (hroom : s.ilen.toNat < s.ibcap.toNat) :
    (s.pushed b).ilen.toNat = s.ilen.toNat + 1 := by
  rw [State.Of.pushed_ilen, BitVec.toNat_ofNat]
  have hcap := s.ibcap.isLt
  omega

theorem ibAt_pushed {s : State.Of W} {n : Nat} (hwf : Memory.wf unlistedByte n s.ib) (b : Byte) (a : Nat) :
    (s.pushed b).ibAt a = if a = s.ilen.toNat then b else s.ibAt a :=
  Memory.read_write hwf s.ilen.toNat a b

/-- Settles O28: the response carries the new ILEN, and IB differs at the old ILEN only (`ibAt_pushed`). -/
theorem ibPushCompletes : Obligations.IbPushCompletes := by
  intro s b ⟨hib, _⟩ hp hroom
  refine ⟨_, execIbPush_of_lt b hp hroom, rfl, toNat_ilen_pushed b hroom, ?_, fun a ha => ?_⟩
  · rw [State.Of.ibAt_answer, ibAt_pushed hib, if_pos rfl]
  · rw [State.Of.ibAt_answer, ibAt_pushed hib, if_neg ha]

/-! ### IB.RD and OB.RD (R105, R106) -/

/-- An indexed read below the valid elements answers the value, when the memory has that many elements. -/
theorem readElement_of_lt {sp : Space} {valid idx : Nat} (value : Nat) {s : State.Of W} (hidx : idx < valid)
    (hvalid : valid ≤ sp.size s) : readElement sp valid idx value s = .next (s.answer 0x00#8 (BitVec.ofNat 64 value)) := by
  rw [readElement, if_neg (Nat.not_le.2 hidx), withElement_of_lt _ (hidx.trans_le hvalid), respond_eq]

/-- A read command whose body is an indexed read answers the element, zero-extended, in every phase. -/
theorem whenLegal_readElement_of_lt {w : Nat} (i : Instr) {s : State.Of W} {sp : Space} {valid idx : Nat} (x : BitVec w)
    (hi : isReadCommand i = true) (hidx : idx < valid) (hvalid : valid ≤ sp.size s) :
    whenLegal i s (readElement sp valid idx x.toNat s) = .next (s.answer 0x00#8 (x.setWidth 64)) := by
  rw [whenLegal_read s _ hi, readElement_of_lt _ hidx hvalid, BitVec.ofNat_toNat]

/-- Settles O29: R22 keeps ILEN and OLEN within the buffers, so an index below them names an element. -/
theorem bufferReadsComplete : Obligations.BufferReadsComplete := by
  intro s idx hrange
  obtain ⟨-, -, -, hilen, holen, -⟩ := hrange
  exact ⟨fun hidx => whenLegal_readElement_of_lt (.ibRd idx) (s.ibAt idx) rfl hidx hilen,
    fun hidx => whenLegal_readElement_of_lt (.obRd idx) (s.obAt idx) rfl hidx holen⟩

/-! ### RD.REG (R107) -/

/-- RD.REG answers a register of the register file zero-extended, in every phase. -/
theorem execRdReg_of_readReg {w : Nat} {s : State.Of W} {r : Nat} (x : BitVec w) (hr : readReg s r = some x.toNat) :
    execRdReg r s = .next (s.answer 0x00#8 (x.setWidth 64)) := by
  rw [execRdReg, hr, whenLegal_read s _ rfl, ← BitVec.ofNat_toNat]
  rfl

theorem Phase.number_lt (p : Phase) : p.number < 8 := by cases p <;> decide

theorem flagBit_le (b : Bool) : flagBit b ≤ 1 := by cases b <;> decide

theorem decide_flagBit_eq_one (b : Bool) : decide (flagBit b = 1) = b := by cases b <;> rfl

/-- R24: STATUS as a number; its three fields do not overlap. -/
theorem toNat_statusWord (s : State.Of W) :
    (statusWord s).toNat = flagBit s.synth * 16 + flagBit s.mid * 8 + s.phase.number := by
  have hphase := s.phase.number_lt
  have hmid := flagBit_le s.mid
  have hsynth := flagBit_le s.synth
  rw [statusWord, BitVec.toNat_ofNat]
  omega

/-- R24: STATUS read back through RD.REG has PHASE in bits 2:0, MID in bit 3, SYNTH in bit 4, and zeros above. -/
theorem statusWord_fields (s : State.Of W) :
    (((statusWord s).setWidth 64).extractLsb' 0 3).toNat = s.phase.number ∧
      ((statusWord s).setWidth 64).getLsbD 3 = s.mid ∧ ((statusWord s).setWidth 64).getLsbD 4 = s.synth ∧
      ((statusWord s).setWidth 64).toNat < 2 ^ 5 := by
  have hphase := s.phase.number_lt
  have hmid := flagBit_le s.mid
  have hsynth := flagBit_le s.synth
  have hword : ((statusWord s).setWidth 64).toNat = flagBit s.synth * 16 + flagBit s.mid * 8 + s.phase.number := by
    rw [BitVec.toNat_setWidth_of_le (by decide), toNat_statusWord]
  refine ⟨?_, ?_, ?_, ?_⟩
  · rw [BitVec.extractLsb'_toNat, hword, Nat.shiftRight_zero]
    omega
  · rw [← BitVec.testBit_toNat, hword, Nat.testBit_eq_decide_div_mod_eq]
    refine (decide_eq_decide.2 ?_).trans (decide_flagBit_eq_one s.mid)
    omega
  · rw [← BitVec.testBit_toNat, hword, Nat.testBit_eq_decide_div_mod_eq]
    refine (decide_eq_decide.2 ?_).trans (decide_flagBit_eq_one s.synth)
    omega
  · omega

/-- Settles O30: the register file has all 17 registers, and STATUS has the fields of R24 (`statusWord_fields`). -/
theorem rdRegCompletes : Obligations.RdRegCompletes := by
  intro s
  exact ⟨execRdReg_of_readReg Config.idValue rfl, ⟨_, execRdReg_of_readReg (statusWord s) rfl, statusWord_fields s⟩,
    execRdReg_of_readReg s.err rfl, execRdReg_of_readReg s.errinfo rfl, execRdReg_of_readReg s.ilen rfl,
    execRdReg_of_readReg s.olen rfl, execRdReg_of_readReg s.total rfl, execRdReg_of_readReg s.nsfl rfl,
    execRdReg_of_readReg s.nnode rfl, execRdReg_of_readReg s.root rfl, execRdReg_of_readReg s.nbits rfl,
    execRdReg_of_readReg s.pad rfl, execRdReg_of_readReg s.srch rfl, execRdReg_of_readReg s.tgth rfl,
    execRdReg_of_readReg s.tgtt rfl, execRdReg_of_readReg s.ibcap rfl, execRdReg_of_readReg s.obcap rfl⟩

end Sys2Proof.Machine
end

section
/-! PROOFS. The weight arithmetic (41_frequency_analyzer.md R122 to R124): a pattern is an exponent and a significand, both of which
`rne` finds, so that patterns are ordered as their values and rounding is monotone and exact on values. -/

namespace Sys2Proof.Machine

/-! ### The nearest integer -/

/-- R122: the result is within half of 1 of `n / d`, and even when it is exactly half of 1 away. -/
theorem nearestEven_spec (n : Nat) {d : Nat} (hd : 0 < d) :
    2 * n ≤ 2 * nearestEven n d * d + d ∧ 2 * nearestEven n d * d ≤ 2 * n + d ∧
      (2 * n = 2 * nearestEven n d * d + d ∨ 2 * nearestEven n d * d = 2 * n + d → nearestEven n d % 2 = 0) := by
  have hdiv := Nat.div_add_mod n d
  have hmod := Nat.mod_lt n hd
  have hdown : 2 * (n / d) * d = 2 * (d * (n / d)) := by ring
  have hup : 2 * (n / d + 1) * d = 2 * (d * (n / d)) + 2 * d := by ring
  unfold nearestEven
  split_ifs with hlow hhigh heven
  · rw [hdown]; omega
  · rw [hup]; omega
  · rw [hdown]; omega
  · rw [hup]; omega

theorem nearestEven_mul (m : Nat) {d : Nat} (hd : 0 < d) : nearestEven (m * d) d = m := by
  rw [nearestEven, Nat.mul_mod_left, Nat.mul_div_cancel m hd, if_pos (by omega)]

theorem nearestEven_mono {n n' : Nat} (h : n ≤ n') (d : Nat) : nearestEven n d ≤ nearestEven n' d := by
  have hdiv := Nat.div_add_mod n d
  have hdiv' := Nat.div_add_mod n' d
  obtain hlt | heq := (Nat.div_le_div_right (c := d) h).lt_or_eq
  · unfold nearestEven
    split_ifs <;> omega
  · rw [← heq] at hdiv'
    unfold nearestEven
    rw [← heq]
    split_ifs <;> omega

/-! ### The exponent -/

/-- The last place is as coarse as it must be for 53 bits. -/
theorem ulpExponent_le_iff {n d k : Nat} (hd : 0 < d) : ulpExponent n d ≤ k ↔ n < 2 ^ (k + 53) * d := by
  rw [← Nat.div_lt_iff_lt_mul hd]
  by_cases h0 : n / d = 0
  · simp [ulpExponent, h0]
  · rw [← Nat.log2_lt h0, ulpExponent]
    omega

theorem lt_two_pow_ulpExponent (n : Nat) {d : Nat} (hd : 0 < d) : n < 2 ^ 53 * (d * 2 ^ ulpExponent n d) := by
  have h := (ulpExponent_le_iff (n := n) hd).1 le_rfl
  rwa [show 2 ^ 53 * (d * 2 ^ ulpExponent n d) = 2 ^ (ulpExponent n d + 53) * d by ring]

theorem two_pow_le_of_ulpExponent_pos {n d : Nat} (hd : 0 < d) (h : ulpExponent n d ≠ 0) :
    2 ^ 52 * (d * 2 ^ ulpExponent n d) ≤ n := by
  obtain ⟨k, hk⟩ := Nat.exists_eq_succ_of_ne_zero h
  have hle := mt (ulpExponent_le_iff (n := n) (k := k) hd).2 (by omega)
  rw [hk, show 2 ^ 52 * (d * 2 ^ k.succ) = 2 ^ (k + 53) * d by rw [Nat.succ_eq_add_one]; ring]
  exact not_lt.1 hle

/-- R122's `e - 52`, in units. -/
theorem ulpExponent_eq {n d u : Nat} (hd : 0 < d) (hu : 52 ≤ u) (hlow : 2 ^ u * d ≤ n) (hhigh : n < 2 ^ (u + 1) * d) :
    ulpExponent n d = u - 52 := by
  refine le_antisymm ((ulpExponent_le_iff hd).2 ?_) (not_lt.1 fun hlt => ?_)
  · rwa [show u - 52 + 53 = u + 1 by omega]
  · have h := (ulpExponent_le_iff (n := n) (k := u - 53) hd).1 (by omega)
    rw [show u - 53 + 53 = u by omega] at h
    omega

theorem ulpExponent_mono {n n' d : Nat} (hd : 0 < d) (h : n ≤ n') : ulpExponent n d ≤ ulpExponent n' d :=
  (ulpExponent_le_iff hd).2 (h.trans_lt ((ulpExponent_le_iff hd).1 le_rfl))

/-! ### Patterns -/

/-- `m` is a significand for the exponent `e`: the leading bit is there but for the smallest exponent. `2 ^ 53` is the carry of a
rounding. -/
abbrev Significand (e m : Nat) : Prop := m ≤ 2 ^ 53 ∧ (e = 0 ∨ 2 ^ 52 ≤ m)

/-- The value of a pattern that is put together from exponent and significand, carry included. -/
theorem wval_of_toNat_eq {a : Weight} {e m : Nat} (hm : Significand e m) (ha : a.toNat = e * 2 ^ 52 + m) :
    wval a = m * 2 ^ e := by
  obtain ⟨hmax, hmin⟩ := hm
  unfold wval
  rw [ha]
  by_cases hsub : m < 2 ^ 52
  · obtain rfl : e = 0 := by omega
    rw [if_pos (by omega)]
    omega
  rw [if_neg (by omega)]
  obtain rfl | hlt := hmax.eq_or_lt
  · rw [show (e * 2 ^ 52 + 2 ^ 53) / 2 ^ 52 - 1 = e + 1 by omega, show (e * 2 ^ 52 + 2 ^ 53) % 2 ^ 52 = 0 by omega]
    ring
  · rw [show (e * 2 ^ 52 + m) / 2 ^ 52 - 1 = e by omega, show 2 ^ 52 + (e * 2 ^ 52 + m) % 2 ^ 52 = m by omega]

/-- Every pattern is put together so, without carry. -/
theorem exists_significand (a : Weight) : ∃ e m, Significand e m ∧ m < 2 ^ 53 ∧ a.toNat = e * 2 ^ 52 + m := by
  by_cases h : a.toNat < 2 ^ 52
  · exact ⟨0, a.toNat, by omega, by omega, by omega⟩
  · exact ⟨a.toNat / 2 ^ 52 - 1, 2 ^ 52 + a.toNat % 2 ^ 52, by omega, by omega, by omega⟩

theorem wval_lt_of_toNat_lt {a b : Weight} (h : a.toNat < b.toNat) : wval a < wval b := by
  obtain ⟨e, m, hm, hmlt, ha⟩ := exists_significand a
  obtain ⟨e', m', hm', -, hb⟩ := exists_significand b
  rw [wval_of_toNat_eq hm ha, wval_of_toNat_eq hm' hb]
  obtain rfl | hlt : e = e' ∨ e < e' := by omega
  · exact Nat.mul_lt_mul_of_pos_right (by omega) (Nat.two_pow_pos e)
  · calc m * 2 ^ e < 2 ^ 53 * 2 ^ e := Nat.mul_lt_mul_of_pos_right hmlt (Nat.two_pow_pos e)
      _ = 2 ^ 52 * 2 ^ (e + 1) := by ring
      _ ≤ m' * 2 ^ e' := Nat.mul_le_mul (by omega) (Nat.pow_le_pow_right (by omega) hlt)

/-- Patterns are ordered as their values. -/
theorem wval_lt_iff {a b : Weight} : wval a < wval b ↔ a.toNat < b.toNat := by
  refine ⟨fun h => not_le.1 fun hle => ?_, wval_lt_of_toNat_lt⟩
  obtain hlt | heq := hle.lt_or_eq
  · exact h.asymm (wval_lt_of_toNat_lt hlt)
  · exact h.ne' (congrArg wval (BitVec.eq_of_toNat_eq heq))

theorem wval_le_iff {a b : Weight} : wval a ≤ wval b ↔ a.toNat ≤ b.toNat := by
  rw [← not_lt, wval_lt_iff, not_lt]

theorem wval_inj {a b : Weight} : wval a = wval b ↔ a = b := by
  rw [← BitVec.toNat_inj, le_antisymm_iff, le_antisymm_iff, wval_le_iff, wval_le_iff]

theorem wlt_iff {a b : Weight} : wlt a b = true ↔ a.toNat < b.toNat := decide_eq_true_iff.trans wval_lt_iff

theorem wlt_eq_false_iff {a b : Weight} : wlt a b = false ↔ b.toNat ≤ a.toNat := by
  rw [Bool.eq_false_iff, ne_eq, wlt_iff, not_lt]

theorem weq_iff {a b : Weight} : weq a b = true ↔ a = b := beq_iff_eq.trans wval_inj

/-! ### Rounding (R122) -/

theorem significand_nearestEven (n : Nat) {d : Nat} (hd : 0 < d) :
    Significand (ulpExponent n d) (nearestEven n (d * 2 ^ ulpExponent n d)) := by
  have hpos : 0 < d * 2 ^ ulpExponent n d := Nat.mul_pos hd (Nat.two_pow_pos _)
  constructor
  · exact (nearestEven_mono (lt_two_pow_ulpExponent n hd).le _).trans_eq (nearestEven_mul _ hpos)
  · by_cases h : ulpExponent n d = 0
    · exact .inl h
    · exact .inr ((nearestEven_mul _ hpos).symm.trans_le (nearestEven_mono (two_pow_le_of_ulpExponent_pos hd h) _))

/-- A result in the range of R122's RNE has the exponent and the significand as computed. -/
theorem toNat_rne {n d : Nat} (hd : 0 < d) (he : ulpExponent n d ≤ 2045) :
    (rne n d).toNat = ulpExponent n d * 2 ^ 52 + nearestEven n (d * 2 ^ ulpExponent n d) := by
  have hm := significand_nearestEven n hd
  rw [rne, BitVec.toNat_ofNat]
  omega

theorem wval_rne {n d : Nat} (hd : 0 < d) (he : ulpExponent n d ≤ 2045) :
    wval (rne n d) = nearestEven n (d * 2 ^ ulpExponent n d) * 2 ^ ulpExponent n d :=
  wval_of_toNat_eq (significand_nearestEven n hd) (toNat_rne hd he)

theorem isRounded_rne (n : Nat) {d : Nat} (hd : 0 < d) : isRounded n d (rne n d) := by
  intro u hu humax hlow hhigh
  have he := ulpExponent_eq hd hu hlow hhigh
  have hval := wval_rne (n := n) hd (by omega)
  rw [he] at hval
  rw [Nat.mul_comm (2 ^ (u - 52)) d]
  exact ⟨_, hval, nearestEven_spec n (Nat.mul_pos hd (Nat.two_pow_pos _))⟩

theorem toNat_rne_mono {n n' d : Nat} (hd : 0 < d) (h : n ≤ n') (he : ulpExponent n' d ≤ 2045) :
    (rne n d).toNat ≤ (rne n' d).toNat := by
  have hmono := ulpExponent_mono hd h
  have hm := significand_nearestEven n hd
  have hm' := significand_nearestEven n' hd
  rw [toNat_rne hd he, toNat_rne hd (hmono.trans he)]
  obtain heq | hlt := hmono.eq_or_lt
  · have := nearestEven_mono h (d * 2 ^ ulpExponent n' d)
    rw [heq]
    omega
  · omega

/-- Rounding a value gives its pattern. -/
theorem rne_wval (a : Weight) : rne (wval a) 1 = a := by
  obtain ⟨e, m, hm, hmlt, ha⟩ := exists_significand a
  have hval := wval_of_toNat_eq hm ha
  have he : ulpExponent (wval a) 1 = e := by
    rw [hval]
    obtain rfl | hmin := hm.2
    · exact Nat.le_zero.1 ((ulpExponent_le_iff Nat.one_pos).2 (by omega))
    · refine (ulpExponent_eq (u := e + 52) Nat.one_pos (by omega) ?_ ?_).trans (by omega)
      · calc 2 ^ (e + 52) * 1 = 2 ^ 52 * 2 ^ e := by ring
          _ ≤ m * 2 ^ e := Nat.mul_le_mul_right _ hmin
      · calc m * 2 ^ e < 2 ^ 53 * 2 ^ e := Nat.mul_lt_mul_of_pos_right hmlt (Nat.two_pow_pos e)
          _ = 2 ^ (e + 52 + 1) * 1 := by ring
  rw [rne, he, hval, one_mul, nearestEven_mul m (Nat.two_pow_pos e), ← ha, BitVec.ofNat_toNat, BitVec.setWidth_eq]

/-! ### Quotients -/

theorem unitsPerOne_eq : unitsPerOne = 2 ^ 52 * 2 ^ 1022 := by rw [unitsPerOne, ← pow_add]

/-- A quotient of at most 1 has a last place of at most 2^-52. -/
theorem ulpExponent_quotient_le {c t : Nat} (ht : 0 < t) (h : c ≤ t) : ulpExponent (c * unitsPerOne) t ≤ 1022 := by
  have hunits : unitsPerOne < 2 ^ (1022 + 53) := by
    rw [unitsPerOne, Nat.pow_lt_pow_iff_right one_lt_two]
    decide
  refine (ulpExponent_le_iff ht).2 ?_
  calc c * unitsPerOne ≤ t * unitsPerOne := Nat.mul_le_mul_right _ h
    _ < t * 2 ^ (1022 + 53) := Nat.mul_lt_mul_of_pos_left hunits ht
    _ = 2 ^ (1022 + 53) * t := Nat.mul_comm _ _

theorem wval_wdiv {c t : Nat} (ht : 0 < t) (h : c ≤ t) :
    wval (wdiv c t) =
      nearestEven (c * unitsPerOne) (t * 2 ^ ulpExponent (c * unitsPerOne) t) * 2 ^ ulpExponent (c * unitsPerOne) t :=
  wval_rne ht ((ulpExponent_quotient_le ht h).trans (by decide))

/-- R124(c): the rounding moves a quotient of at most 1 by at most 2^-53. -/
theorem wval_wdiv_near {c t : Nat} (ht : 0 < t) (h : c ≤ t) :
    c * unitsPerOne ≤ wval (wdiv c t) * t + 2 ^ 1021 * t ∧ wval (wdiv c t) * t ≤ c * unitsPerOne + 2 ^ 1021 * t := by
  have hulp : t * 2 ^ ulpExponent (c * unitsPerOne) t ≤ t * (2 * 2 ^ 1021) := by
    rw [← pow_succ']
    gcongr
    · exact one_le_two
    · exact ulpExponent_quotient_le ht h
  obtain ⟨hlow, hhigh, -⟩ :=
    nearestEven_spec (c * unitsPerOne) (Nat.mul_pos ht (Nat.two_pow_pos (ulpExponent (c * unitsPerOne) t)))
  rw [wval_wdiv ht h]
  generalize ulpExponent (c * unitsPerOne) t = e at *
  generalize nearestEven (c * unitsPerOne) (t * 2 ^ e) = m at *
  generalize 2 ^ 1021 = half at *
  constructor <;> linarith

/-- R124(e): `wdiv(t, t)` is 1.0. -/
theorem wdiv_self {t : Nat} (ht : 0 < t) : wdiv t t = 0x3FF0000000000000#64 := by
  have hunits : t * unitsPerOne = 2 ^ 52 * (t * 2 ^ 1022) := by
    rw [unitsPerOne_eq, Nat.mul_left_comm]
  have he : ulpExponent (t * unitsPerOne) t = 1022 := by
    refine ulpExponent_eq (u := 1074) ht (by decide) (Nat.mul_comm _ _).le ?_
    rw [unitsPerOne, Nat.mul_comm]
    gcongr <;> decide
  rw [wdiv, rne, he, hunits, nearestEven_mul _ (Nat.mul_pos ht (Nat.two_pow_pos _))]
  rfl

/-- Settles O36: `wdiv` is `rne` of the quotient. -/
theorem wdivIsTheQuotientRoundedOnce : Obligations.WdivIsTheQuotientRoundedOnce :=
  fun _ _ hc hct _ => isRounded_rne _ (hc.trans hct)

/-- Settles O37: `wadd` is `rne` of the sum, and a sum of zero is in no range of R122's RNE. -/
theorem waddIsTheSumRoundedOnce : Obligations.WaddIsTheSumRoundedOnce := by
  intro a b _ _
  unfold wadd
  split_ifs with h0
  · exact ⟨fun u _ _ hlow _ => absurd hlow (by simp [h0]), fun _ => rfl⟩
  · exact ⟨isRounded_rne _ Nat.one_pos, fun h => absurd h h0⟩

/-- Settles O39: seven closed patterns, and `wdiv_self`. -/
theorem referencePatterns : Obligations.ReferencePatterns :=
  ⟨by decide +kernel, by decide +kernel, by decide +kernel, by decide +kernel, by decide +kernel, by decide +kernel,
    by decide +kernel, fun _ ht _ => wdiv_self ht⟩

/-! ### The laws (R123) -/

theorem rne_zero (d : Nat) : rne 0 d = wzero := by simp [rne, ulpExponent, nearestEven, wzero]

theorem wdiv_zero (t : Nat) : wdiv 0 t = wzero := by rw [wdiv, Nat.zero_mul, rne_zero]

/-- The case distinction of R122 is only about what RNE is defined for. -/
theorem wadd_eq_rne (a b : Weight) : wadd a b = rne (wval a + wval b) 1 := by
  unfold wadd
  split_ifs with h0
  · rw [h0, rne_zero]
  · rfl

/-- A sum of two small weights is finite. -/
theorem ulpExponent_add_le {a b : Weight} (ha : smallWeight a) (hb : smallWeight b) :
    ulpExponent (wval a + wval b) 1 ≤ 2045 := by
  have hval : ∀ {c : Weight}, smallWeight c → wval c < 2 ^ 2097 := fun {c} hc => by
    obtain ⟨e, m, hm, hmlt, hc'⟩ := exists_significand c
    have he : e ≤ 2044 := by rw [smallWeight] at hc; omega
    calc wval c = m * 2 ^ e := wval_of_toNat_eq hm hc'
      _ < 2 ^ 53 * 2 ^ e := Nat.mul_lt_mul_of_pos_right hmlt (Nat.two_pow_pos e)
      _ ≤ 2 ^ 53 * 2 ^ 2044 := by gcongr; exact one_le_two
      _ = 2 ^ 2097 := by rw [← pow_add]
  refine (ulpExponent_le_iff Nat.one_pos).2 ?_
  calc wval a + wval b < 2 ^ 2097 + 2 ^ 2097 := Nat.add_lt_add (hval ha) (hval hb)
    _ = 2 ^ (2045 + 53) * 1 := by rw [← two_mul, ← pow_succ', mul_one]

/-- L2 on patterns. -/
theorem toNat_wadd_mono {a1 a2 b1 b2 : Weight} (ha2 : smallWeight a2) (hb2 : smallWeight b2) (ha : a1.toNat ≤ a2.toNat)
    (hb : b1.toNat ≤ b2.toNat) : (wadd a1 b1).toNat ≤ (wadd a2 b2).toNat := by
  rw [wadd_eq_rne, wadd_eq_rne]
  exact toNat_rne_mono Nat.one_pos (Nat.add_le_add (wval_le_iff.2 ha) (wval_le_iff.2 hb)) (ulpExponent_add_le ha2 hb2)

theorem wadd_wzero (a : Weight) : wadd a wzero = a := by rw [wadd_eq_rne, wzero, wval_zero, add_zero, rne_wval]

theorem wadd_comm (a b : Weight) : wadd a b = wadd b a := by rw [wadd_eq_rne, wadd_eq_rne, add_comm]

/-- L3 on patterns: adding zero changes nothing, and adding more is no less. -/
theorem toNat_le_toNat_wadd {a b : Weight} (ha : smallWeight a) (hb : smallWeight b) : a.toNat ≤ (wadd a b).toNat := by
  have h := toNat_wadd_mono ha hb le_rfl (show wzero.toNat ≤ b.toNat from Nat.zero_le _)
  rwa [wadd_wzero] at h

/-- L4, and with `c1 = 0` L5: the exact quotients differ by more than the roundings can move them (R124(c)). -/
theorem wdiv_strict {c1 c2 t : Nat} (hc : c1 < c2) (hct : c2 ≤ t) (ht : t ≤ 2 ^ 24) :
    (wdiv c1 t).toNat < (wdiv c2 t).toNat := by
  rw [← wval_lt_iff]
  have hpos : 0 < t := by omega
  obtain ⟨-, h1⟩ := wval_wdiv_near hpos (hc.le.trans hct)
  obtain ⟨h2, -⟩ := wval_wdiv_near hpos hct
  have hunits : unitsPerOne = 2 ^ 53 * 2 ^ 1021 := by rw [unitsPerOne, ← pow_add]
  have hgap : 2 ^ 1021 * t ≤ 2 ^ 1021 * 2 ^ 24 := Nat.mul_le_mul_left _ ht
  have hstep : (c1 + 1) * unitsPerOne ≤ c2 * unitsPerOne := Nat.mul_le_mul_right _ hc
  have hhalf : 0 < 2 ^ 1021 := by positivity
  rw [hunits] at h1 h2 hstep
  generalize 2 ^ 1021 = half at *
  refine lt_of_mul_lt_mul_right (a := t) ?_ t.zero_le
  linarith

theorem smallWeight_wdiv {c t : Nat} (ht : 0 < t) (h : c ≤ t) : smallWeight (wdiv c t) := by
  have he := ulpExponent_quotient_le ht h
  have hm := significand_nearestEven (c * unitsPerOne) ht
  rw [smallWeight, wdiv, toNat_rne ht (he.trans (by decide))]
  omega

/-- Settles O38: patterns are ordered as their values, so the comparisons are those of numbers, and rounding is monotone. -/
theorem binary64ObeysTheLaws : Obligations.Binary64ObeysTheLaws where
  valid_zero := show wzero.toNat < 0x7FE0000000000000 by decide
  valid_wdiv _ _ hc hct _ := smallWeight_wdiv (hc.trans hct) hct
  weq_iff _ _ _ _ := weq_iff
  total a b _ _ := by
    simp only [binary64, wlt_iff, weq_iff, ← BitVec.toNat_inj]
    omega
  asymm a b _ _ := by
    simp only [binary64, wlt_iff, Bool.eq_false_iff, ne_eq, weq_iff, ← BitVec.toNat_inj]
    omega
  trans a b c _ _ _ := by
    simp only [binary64, wlt_iff]
    exact lt_trans
  mono a1 a2 b1 b2 _ ha2 _ hb2 := by
    simp only [binary64, wlt_eq_false_iff]
    exact toNat_wadd_mono ha2 hb2
  part a b ha hb := by
    simp only [binary64, wlt_eq_false_iff]
    exact ⟨toNat_le_toNat_wadd ha hb, wadd_comm b a ▸ toNat_le_toNat_wadd hb ha⟩
  strict _ _ _ _ hc hct ht := wlt_iff.2 (wdiv_strict hc hct ht)
  zero_lt c t hc hct ht := wlt_iff.2 ((congrArg _ (wdiv_zero t)).symm.trans_lt (wdiv_strict hc hct ht))
  not_lt_zero a _ := wlt_eq_false_iff.2 (show wzero.toNat ≤ a.toNat from Nat.zero_le _)

end Sys2Proof.Machine
end

section
/-! PROOFS. What FA.RUN and the read commands of the tables answer (41_frequency_analyzer.md R121 to R133): the fault on an empty IB,
the counts, the list and the sum of its probabilities. -/

namespace Sys2Proof.Machine

variable {W : Type}

/-! ### The table reads (R129 to R131, R157 to R160, R185) -/

/-- R157: the kind of a node is its leaf flag in bit 8 over its symbol. -/
theorem ofNat_nodeKind (leaf : Bool) (sym : Byte) :
    BitVec.ofNat 64 (flagBit leaf * 256 + sym.toNat) = if leaf then 0x100#64 + sym.setWidth 64 else sym.setWidth 64 := by
  cases leaf
  · simp [flagBit, BitVec.ofNat_toNat]
  · simp [flagBit, BitVec.ofNat_add, BitVec.ofNat_toNat]

section
variable {s : State.Of W}

theorem nsfl_le_of_inRange (hs : s.inRange) : s.nsfl.toNat ≤ Space.size s .sfl := by
  obtain ⟨-, -, -, -, -, -, hnsfl, -⟩ := hs
  show _ ≤ 256
  omega

theorem nnode_le_of_inRange (hs : s.inRange) : s.nnode.toNat ≤ Space.size s .node := by
  obtain ⟨-, -, -, -, -, -, -, hnnode, -⟩ := hs
  exact hnnode

variable [Inhabited W] {idx : Nat}

theorem execRdSflpWith_of_lt (wa : WArith W) (hs : s.inRange) (hidx : idx < s.nsfl.toNat) :
    execRdSflpWith wa idx s = .next (s.answer 0x00#8 (wa.wbits (s.sflAt idx).prob)) := by
  rw [execRdSflpWith, whenLegal_readElement_of_lt (.rdSflp idx) _ rfl hidx (nsfl_le_of_inRange hs), BitVec.setWidth_eq]

theorem execRdNwWith_of_lt (wa : WArith W) (hs : s.inRange) (hidx : idx < s.nnode.toNat) :
    execRdNwWith wa idx s = .next (s.answer 0x00#8 (wa.wbits (s.nodeAt idx).w)) := by
  rw [execRdNwWith, whenLegal_readElement_of_lt (.rdNw idx) _ rfl hidx (nnode_le_of_inRange hs), BitVec.setWidth_eq]

theorem execRdNk_of_lt (hs : s.inRange) (hidx : idx < s.nnode.toNat) :
    execRdNk idx s = .next (s.answer 0x00#8
      (if (s.nodeAt idx).leaf then 0x100#64 + (s.nodeAt idx).sym.setWidth 64 else (s.nodeAt idx).sym.setWidth 64)) := by
  rw [execRdNk, whenLegal_read s _ rfl, readElement_of_lt _ hidx (nnode_le_of_inRange hs), ofNat_nodeKind]

end

theorem execRdCnt_eq (sym : Byte) (s : State.Of W) :
    execRdCnt sym s = .next (s.answer 0x00#8 ((s.cntAt sym).setWidth 64)) := by
  rw [execRdCnt, whenLegal_read s _ rfl, respond_eq, BitVec.ofNat_toNat]

theorem execRdClen_eq (sym : Byte) (s : State.Of W) :
    execRdClen sym s = .next (s.answer 0x00#8 (BitVec.ofNat 64 (s.codeAt sym).length)) := by
  rw [execRdClen, whenLegal_read s _ rfl, respond_eq]

/-- Settles O31: RD.CNT and RD.CLEN read an element that exists, and the others an element below NSFL or NNODE, which R22 bounds. -/
theorem tableReadsComplete : Obligations.TableReadsComplete := by
  refine ⟨fun s sym idx hs => ⟨execRdCnt_eq sym s, fun hidx => ?_, fun hidx => ?_, execRdClen_eq sym s⟩,
    fun W _ _ wa s idx hs => ⟨execRdSflpWith_of_lt wa hs, execRdNwWith_of_lt wa hs⟩⟩
  · have hsize := nsfl_le_of_inRange hs
    exact ⟨whenLegal_readElement_of_lt (.rdSfls idx) (s.sflAt idx).sym rfl hidx hsize, execRdSflpWith_of_lt binary64 hs hidx⟩
  · have hsize := nnode_le_of_inRange hs
    exact ⟨execRdNk_of_lt hs hidx, execRdNwWith_of_lt binary64 hs hidx,
      whenLegal_readElement_of_lt (.rdNl idx) (s.nodeAt idx).left rfl hidx hsize,
      whenLegal_readElement_of_lt (.rdNr idx) (s.nodeAt idx).right rfl hidx hsize⟩

/-! ### FA.RUN completes or faults (R121, R125, R128) -/

section
variable [Inhabited W] [DecidableEq W] {s : State.Of W}

theorem execFaRunWith_of_empty (wa : WArith W) (hp : s.phase ≠ .fault) (hempty : s.ilen.toNat = 0) :
    execFaRunWith wa s = .next (s.discardList.enterFault .emptyInput 0) := by
  rw [execFaRunWith, whenLegal_of_legal (i := .faRun) _ (Phase.notFault_iff.2 hp), if_pos hempty, raise_eq]

theorem execFaRunWith_of_loaded (wa : WArith W) (hp : s.phase ≠ .fault) (hpos : 0 < s.ilen.toNat)
    (hcap : s.ilen.toNat ≤ s.ibcap.toNat) :
    execFaRunWith wa s = .next ((s.discardList.analyzed wa).answer 0x00#8 ((s.discardList.analyzed wa).nsfl.setWidth 64)) := by
  rw [execFaRunWith, whenLegal_of_legal (i := .faRun) _ (Phase.notFault_iff.2 hp), if_neg hpos.ne',
    withElements_of_le (sp := .ib) _ hcap, respond_eq, BitVec.ofNat_toNat]

/-- The count of a symbol after FA.RUN (R125). -/
theorem toNat_cntAt_analyzed (wa : WArith W) (s : State.Of W) (sym : Byte) :
    ((s.discardList.analyzed wa).cntAt sym).toNat = s.ibBytes.count sym :=
  toNat_read_tally_ibBytes s sym

end

/-- Settles O33: without a byte in IB the phase check is the only one before the fault, and no other case of FA.RUN faults. -/
theorem faRunOnEmptyInputFaults : Obligations.FaRunOnEmptyInputFaults := by
  refine ⟨fun s hp hempty => ⟨_, execFaRunWith_of_empty binary64 hp (by rw [hempty]; rfl), rfl, fun _ => rfl, fun _ => rfl⟩,
    fun s t h hfault => ?_⟩
  obtain ⟨-, rfl⟩ | ⟨-, hempty, rfl⟩ | ⟨-, -, -, rfl⟩ := execFaRunWith_next (wa := binary64) h
  · cases hfault
  · exact ⟨BitVec.eq_of_toNat_eq hempty, rfl⟩
  · cases hfault

theorem nodup_symbols : ((List.range 256).map (BitVec.ofNat 8)).Nodup :=
  List.Nodup.map_on (fun x hx y hy h => by
    have hnat := congrArg BitVec.toNat h
    rwa [BitVec.toNat_ofNat, BitVec.toNat_ofNat, Nat.mod_eq_of_lt (List.mem_range.1 hx),
      Nat.mod_eq_of_lt (List.mem_range.1 hy)] at hnat) List.nodup_range

theorem mem_symbols (b : Byte) : b ∈ (List.range 256).map (BitVec.ofNat 8) :=
  List.mem_map.2 ⟨b.toNat, List.mem_range.2 b.isLt, by rw [BitVec.ofNat_toNat, BitVec.setWidth_eq]⟩

/-- Every byte of a stream is one of the 256 symbols, so the counts sum to its length. -/
theorem sum_count_symbols (bytes : List Byte) :
    ((List.range 256).map (fun x => bytes.count (BitVec.ofNat 8 x))).sum = bytes.length := by
  have hall : ∀ b ∈ (bytes : Multiset Byte), b ∈ ((List.range 256).map (BitVec.ofNat 8)).toFinset :=
    fun b _ => List.mem_toFinset.2 (mem_symbols b)
  have hsum := Multiset.sum_count_eq_card hall
  rw [List.sum_toFinset _ nodup_symbols, List.map_map, Multiset.coe_card] at hsum
  simpa only [Function.comp_def, Multiset.coe_count] using hsum
/-- Settles O34: the tally counts (R125), and every byte of IB is counted once. -/
theorem faRunTalliesTheInput : Obligations.FaRunTalliesTheInput := by
  intro s hp hpos hcap
  refine ⟨_, execFaRunWith_of_loaded binary64 hp hpos hcap, rfl, toNat_cntAt_analyzed binary64 s, ?_, fun _ => rfl⟩
  simp only [State.Of.cntAt_answer, toNat_cntAt_analyzed]
  rw [sum_count_symbols, length_ibBytes]

/-! ### The list (R126, R127) -/

/-- The entry of a symbol that occurs (R121). -/
def State.Of.entryFor (wa : WArith W) (s : State.Of W) (sym : Byte) : Entry.Of W :=
  ⟨sym, wa.wdiv (s.ibBytes.count sym) s.ilen.toNat⟩

theorem mem_map_entryFor {wa : WArith W} {s : State.Of W} {e : Entry.Of W} :
    e ∈ s.ibBytes.dedup.map (s.entryFor wa) ↔
      e.sym ∈ s.ibBytes ∧ e.prob = wa.wdiv (s.ibBytes.count e.sym) s.ilen.toNat := by
  rw [List.mem_map]
  constructor
  · rintro ⟨sym, hmem, rfl⟩
    exact ⟨List.mem_dedup.1 hmem, rfl⟩
  · obtain ⟨sym, prob⟩ := e
    rintro ⟨hmem, hprob⟩
    exact ⟨sym, List.mem_dedup.2 hmem, congrArg (Entry.Of.mk sym) hprob.symm⟩

/-- The entries before the edge case are those of the symbols that occur, each once. -/
theorem perm_talliedEntries (wa : WArith W) (s : State.Of W) :
    (talliedEntries wa (tally [] s.ibBytes) s.ilen.toNat).Perm (s.ibBytes.dedup.map (s.entryFor wa)) := by
  have hinj : Function.Injective (s.entryFor wa) := fun _ _ h => congrArg Entry.Of.sym h
  refine (List.perm_ext_iff_of_nodup (nodup_syms_talliedEntries wa _ _).of_map
    (s.ibBytes.nodup_dedup.map hinj)).2 fun e => ?_
  rw [mem_talliedEntries, toNat_read_tally_ibBytes, List.count_pos_iff, mem_map_entryFor]

theorem length_dedup_le (bytes : List Byte) : bytes.dedup.length ≤ 256 := by
  have hsub := bytes.nodup_dedup.subperm fun b _ => mem_symbols b
  simpa only [List.length_map, List.length_range] using hsub.length_le

theorem withSynthetic_of_length_ne_one (wa : WArith W) {es : List (Entry.Of W)} (h : es.length ≠ 1) :
    withSynthetic wa es = es := by
  match es with
  | [] => rfl
  | [e] => exact absurd rfl h
  | e :: e' :: es => rfl

/-- With two different symbols there is no synthetic entry. -/
theorem perm_analyzedList_of_length_ne_one (wa : WArith W) {s : State.Of W} (h : s.ibBytes.dedup.length ≠ 1) :
    (s.analyzedList wa).Perm (s.ibBytes.dedup.map (s.entryFor wa)) := by
  have hperm := perm_talliedEntries wa s
  refine (perm_sortEntries wa _).trans ?_
  rwa [withSynthetic_of_length_ne_one wa (by rwa [hperm.length_eq, List.length_map])]

theorem length_dedup_ne_one {bytes : List Byte} {a b : Byte} (ha : a ∈ bytes) (hb : b ∈ bytes) (hne : a ≠ b) :
    bytes.dedup.length ≠ 1 := by
  intro h
  obtain ⟨c, hc⟩ := List.length_eq_one_iff.1 h
  have hall : ∀ x ∈ bytes, x = c := fun x hx => List.mem_singleton.1 (hc ▸ List.mem_dedup.2 hx)
  exact hne ((hall a ha).trans (hall b hb).symm)

theorem dedup_of_single {s : State.Of W} (hpos : 0 < s.ilen.toNat) {sym : Byte} (h : ∀ a ∈ s.ibBytes, a = sym) :
    s.ibBytes = List.replicate s.ilen.toNat sym ∧ s.ibBytes.dedup = [sym] := by
  have hbytes : s.ibBytes = List.replicate s.ilen.toNat sym := List.eq_replicate_iff.2 ⟨length_ibBytes s, h⟩
  exact ⟨hbytes, by rw [hbytes, List.replicate_dedup hpos.ne']⟩

/-- A stream of one symbol has that symbol's entry, with all of the probability. -/
theorem talliedEntries_of_single (wa : WArith W) {s : State.Of W} (hpos : 0 < s.ilen.toNat) {sym : Byte}
    (h : ∀ a ∈ s.ibBytes, a = sym) :
    talliedEntries wa (tally [] s.ibBytes) s.ilen.toNat = [⟨sym, wa.wdiv s.ilen.toNat s.ilen.toNat⟩] := by
  obtain ⟨hbytes, hdedup⟩ := dedup_of_single hpos h
  have hperm := perm_talliedEntries wa s
  rw [hdedup, List.map_singleton, List.perm_singleton, State.Of.entryFor] at hperm
  rw [hperm, hbytes, List.count_replicate_self]

/-- R126: the synthetic entry comes first, because nothing is less than or equal to zero but zero. -/
theorem sortEntries_withSynthetic_single {e : Entry} (h : e.prob ≠ wzero) :
    sortEntries binary64 (withSynthetic binary64 [e]) = [⟨e.sym + 1#8, wzero⟩, e] := by
  have hsym : BitVec.ofNat 8 ((e.sym.toNat + 1) % Config.alpha) = e.sym + 1#8 := by
    simp only [Config.alpha]
    bv_omega
  have hafter : entryBefore binary64 e ⟨e.sym + 1#8, wzero⟩ = false := by
    rw [Bool.eq_false_iff, ne_eq, entryBefore_iff]
    rintro (hlt | ⟨heq, -⟩)
    · exact absurd (wlt_iff.1 hlt) (Nat.not_lt_zero _)
    · exact h (weq_iff.1 heq)
  simp only [withSynthetic, hsym, sortEntries, List.foldr_cons, List.foldr_nil, insertEntry]
  exact if_neg (Bool.eq_false_iff.1 hafter)

theorem analyzedList_of_single {s : State} (hpos : 0 < s.ilen.toNat) {sym : Byte} (h : ∀ a ∈ s.ibBytes, a = sym) :
    s.analyzedList binary64 = [⟨sym + 1#8, wzero⟩, ⟨sym, 0x3FF0000000000000#64⟩] := by
  have hone : binary64.wdiv s.ilen.toNat s.ilen.toNat = 0x3FF0000000000000#64 := wdiv_self hpos
  have hne : 0x3FF0000000000000#64 ≠ wzero := by decide
  rw [State.Of.analyzedList, talliedEntries_of_single binary64 hpos h, hone]
  exact sortEntries_withSynthetic_single hne

/-- SYNTH says whether one symbol occurs alone (R126). -/
theorem synth_analyzed [Inhabited W] [DecidableEq W] (wa : WArith W) (s : State.Of W) :
    (s.discardList.analyzed wa).synth = (s.ibBytes.dedup.length == 1) := by
  show synthFlag (talliedEntries wa (tally [] s.ibBytes) s.ilen.toNat) = _
  rw [synthFlag, (perm_talliedEntries wa s).length_eq, List.length_map]

/-- Past the list SFL is as it was. -/
theorem sflAt_analyzed_of_le [Inhabited W] [DecidableEq W] (wa : WArith W) {s : State.Of W}
    (hwf : Memory.wf unlistedEntry Config.alpha s.sfl) (hpos : 0 < s.ilen.toNat) {i : Nat}
    (hi : (s.discardList.analyzed wa).nsfl.toNat ≤ i) : (s.discardList.analyzed wa).sflAt i = s.sflAt i := by
  obtain ⟨-, hmax⟩ := length_analyzedList wa s hpos
  rw [toNat_nsfl_analyzed wa hpos] at hi
  rw [State.Of.sflAt, sfl_analyzed, Memory.read_writeFrom hwf ((Nat.zero_add _).trans_le hmax), if_neg (by omega)]
  rfl

/-- FA.RUN answers OK only when it has made the list. -/
theorem eq_answer_of_execFaRun_ok {s t : State} (h : exec .faRun s = .next t) (hok : t.answeredOk = true) :
    0 < s.ilen.toNat ∧ ∃ d, t = (s.discardList.analyzed binary64).answer 0x00#8 d := by
  obtain ⟨-, rfl⟩ | ⟨-, -, rfl⟩ | ⟨-, hpos, -, rfl⟩ := execFaRunWith_next (wa := binary64) h
  · cases hok
  · cases hok
  · exact ⟨hpos, _, rfl⟩

/-- Settles O35: the list is sorted and has no symbol twice whatever IB holds, and it is the entries of the symbols that occur, or
the one entry and the synthetic one. -/
theorem faRunListsTheSymbolsInOrder : Obligations.FaRunListsTheSymbolsInOrder := by
  intro s t ⟨_, _, _, hwf, _⟩ _ h hok
  obtain ⟨hpos, d, rfl⟩ := eq_answer_of_execFaRun_ok h hok
  have hlist := sflList_analyzed binary64 hwf hpos
  have hlen := length_analyzedList binary64 s hpos
  simp only [State.Of.sflList_answer, State.Of.sflAt_answer, State.Of.answer_nsfl, State.Of.answer_synth,
    State.Of.cntAt_answer, hlist, synth_analyzed]
  refine ⟨?_, nodup_syms_analyzedList binary64 s, fun i hi => sflAt_analyzed_of_le binary64 hwf hpos hi, ?_, ?_⟩
  · exact pairwise_sortEntries binary64_ordered (fun _ _ => trivial)
      (nodup_syms_withSynthetic binary64 (nodup_syms_talliedEntries binary64 _ _))
  · rintro ⟨a, ha, b, hb, hne⟩
    have hone := length_dedup_ne_one ha hb hne
    have hsorted := perm_analyzedList_of_length_ne_one binary64 hone
    rw [toNat_nsfl_analyzed binary64 hpos]
    refine ⟨?_, hlen.1, hlen.2, hsorted.length_eq.trans (List.length_map _), fun e => ?_⟩
    · exact beq_false_of_ne hone
    · rw [hsorted.mem_iff, mem_map_entryFor]
      rfl
  · intro sym hall
    rw [toNat_nsfl_analyzed binary64 hpos, analyzedList_of_single hpos hall]
    refine ⟨?_, rfl, BitVec.eq_of_toNat_eq ?_, rfl⟩
    · rw [(dedup_of_single hpos hall).2]
      rfl
    · rw [toNat_cntAt_analyzed]
      exact List.count_eq_zero.2 fun hmem => absurd (hall _ hmem) (by bv_omega)

/-! ### The sum of the probabilities (R133) -/

/-- Each rounding adds at most 2^-53 to the distance of the sum of the quotients from the quotient of the sum. -/
theorem sum_wval_wdiv_near {cs : List Nat} {t : Nat} (ht : 0 < t) (h : ∀ c ∈ cs, c ≤ t) :
    cs.sum * unitsPerOne ≤ (cs.map (fun c => wval (wdiv c t))).sum * t + cs.length * (2 ^ 1021 * t) ∧
      (cs.map (fun c => wval (wdiv c t))).sum * t ≤ cs.sum * unitsPerOne + cs.length * (2 ^ 1021 * t) := by
  induction cs with
  | nil => simp only [List.map_nil, List.sum_nil, Nat.zero_mul, Nat.zero_le, and_self]
  | cons c cs ih =>
    rw [List.forall_mem_cons] at h
    obtain ⟨hlow, hhigh⟩ := wval_wdiv_near ht h.1
    obtain ⟨hlow', hhigh'⟩ := ih h.2
    rw [List.sum_cons, List.map_cons, List.sum_cons, List.length_cons]
    generalize 2 ^ 1021 = half at *
    constructor <;> linarith

/-- The synthetic entry weighs nothing. -/
theorem sum_wval_withSynthetic (es : List Entry) :
    ((withSynthetic binary64 es).map (fun e => wval e.prob)).sum = (es.map (fun e => wval e.prob)).sum := by
  match es with
  | [] => rfl
  | [e] => simp [withSynthetic, binary64, wzero, wval_zero]
  | e :: e' :: es => rfl

theorem sum_wval_analyzedList (s : State) :
    ((s.analyzedList binary64).map (fun e => wval e.prob)).sum =
      ((s.ibBytes.dedup.map s.ibBytes.count).map (fun c => wval (wdiv c s.ilen.toNat))).sum := by
  rw [State.Of.analyzedList, ((perm_sortEntries binary64 _).map _).sum_eq, sum_wval_withSynthetic,
    ((perm_talliedEntries binary64 s).map _).sum_eq, List.map_map, List.map_map]
  rfl

/-- Settles O40: the counts sum to TOTAL, and at most 256 quotients are rounded. -/
theorem probabilitiesSumToOne : Obligations.ProbabilitiesSumToOne := by
  intro s t ⟨_, _, _, hwf, _⟩ _ h hok
  obtain ⟨hpos, d, rfl⟩ := eq_answer_of_execFaRun_ok h hok
  have hsum : (s.ibBytes.dedup.map s.ibBytes.count).sum = s.ilen.toNat :=
    (List.sum_map_count_dedup_eq_length _).trans (length_ibBytes s)
  have hle : ∀ c ∈ s.ibBytes.dedup.map s.ibBytes.count, c ≤ s.ilen.toNat := fun c hc => by
    obtain ⟨b, -, rfl⟩ := List.mem_map.1 hc
    exact List.count_le_length.trans_eq (length_ibBytes s)
  obtain ⟨hlow, hhigh⟩ := sum_wval_wdiv_near hpos hle
  have hlen := Nat.mul_le_mul_right (2 ^ 1021 * s.ilen.toNat) (length_dedup_le s.ibBytes)
  have hbound : 2 ^ 1029 = 256 * 2 ^ 1021 := by rw [show 256 = 2 ^ 8 from rfl, ← pow_add]
  rw [hsum, List.length_map] at hlow hhigh
  rw [State.Of.sflList_answer, sflList_analyzed binary64 hwf hpos, sum_wval_analyzedList, hbound, ← unitsPerOne]
  generalize 2 ^ 1021 = half at *
  constructor
  · exact le_of_mul_le_mul_right (by linarith) hpos
  · exact le_of_mul_le_mul_right (by linarith) hpos

end Sys2Proof.Machine
end

section
/-! PROOFS. What TB.RUN answers (42_tree_builder.md): the node that pop-min takes (R152), the merge step (R153), the final registers
(R154) and the fault (R155). -/

namespace Sys2Proof.Machine

variable {W : Type} [Inhabited W] {wa : WArith W} {n : Nat}

/-! ### Pop-min (R152) and the merge step (R153) -/

/-- The front of `target` goes before the front of `source`. -/
abbrev TreeQueues.targetFirst (wa : WArith W) (q : TreeQueues W) : Bool := wa.wlt (q.at q.tgth).w (q.at q.srch).w

theorem popMin_of_target {q : TreeQueues W} (ht : q.tgth < q.tgtt) (h : n ≤ q.srch ∨ q.targetFirst wa = true) :
    popMin wa n q = some (q.tgth, { q with tgth := q.tgth + 1 }) := by
  by_cases hs : q.srch < n
  · simp [popMin, hs, ht, h.resolve_left (Nat.not_le.2 hs)]
  · simp [popMin, hs, ht]

theorem popMin_of_source {q : TreeQueues W} (hs : q.srch < n) (h : q.tgtt ≤ q.tgth ∨ q.targetFirst wa = false) :
    popMin wa n q = some (q.srch, { q with srch := q.srch + 1 }) := by
  by_cases ht : q.tgth < q.tgtt
  · simp [popMin, hs, ht, h.resolve_left (Nat.not_le.2 ht)]
  · simp [popMin, hs, ht]

theorem popMin_of_empty {q : TreeQueues W} (hs : n ≤ q.srch) (ht : q.tgtt ≤ q.tgth) : popMin wa n q = none := by
  simp [popMin, Nat.not_lt.2 hs, Nat.not_lt.2 ht]

/-- `popMin_some` with the reason for the choice. -/
theorem popMin_cases {q q' : TreeQueues W} {r : Nat} (h : popMin wa n q = some (r, q')) :
    (q.srch < n ∧ (q.tgtt ≤ q.tgth ∨ q.targetFirst wa = false)) ∧ r = q.srch ∧ q' = { q with srch := q.srch + 1 } ∨
      (q.tgth < q.tgtt ∧ (n ≤ q.srch ∨ q.targetFirst wa = true)) ∧ r = q.tgth ∧ q' = { q with tgth := q.tgth + 1 } := by
  by_cases htarget : q.tgth < q.tgtt ∧ (n ≤ q.srch ∨ q.targetFirst wa = true)
  · obtain ⟨rfl, rfl⟩ := Prod.mk.inj (Option.some.inj ((popMin_of_target htarget.1 htarget.2).symm.trans h))
    exact .inr ⟨htarget, rfl, rfl⟩
  have hfirst : q.tgtt ≤ q.tgth ∨ q.targetFirst wa = false := by
    by_cases ht : q.tgth < q.tgtt
    · exact .inr (Bool.eq_false_iff.2 fun hf => htarget ⟨ht, .inr hf⟩)
    · exact .inl (Nat.not_lt.1 ht)
  by_cases hs : q.srch < n
  · obtain ⟨rfl, rfl⟩ := Prod.mk.inj (Option.some.inj ((popMin_of_source hs hfirst).symm.trans h))
    exact .inl ⟨⟨hs, hfirst⟩, rfl, rfl⟩
  · rw [popMin_of_empty (Nat.not_lt.1 hs) (Nat.not_lt.1 fun ht => htarget ⟨ht, .inl (Nat.not_lt.1 hs)⟩)] at h
    cases h

theorem popMin_eq_target_iff {q : TreeQueues W} :
    popMin wa n q = some (q.tgth, { q with tgth := q.tgth + 1 }) ↔
      ¬ q.tgtt ≤ q.tgth ∧ (n ≤ q.srch ∨ q.targetFirst wa = true) := by
  refine ⟨fun h => ?_, fun ⟨ht, h⟩ => popMin_of_target (Nat.not_le.1 ht) h⟩
  obtain ⟨-, -, hq⟩ | ⟨⟨ht, hfirst⟩, -, -⟩ := popMin_cases h
  · exact absurd (congrArg TreeQueues.tgth hq) (Nat.succ_ne_self _)
  · exact ⟨Nat.not_le.2 ht, hfirst⟩

theorem popMin_eq_none_iff {q : TreeQueues W} : popMin wa n q = none ↔ n ≤ q.srch ∧ q.tgtt ≤ q.tgth :=
  ⟨popMin_none, fun ⟨hs, ht⟩ => popMin_of_empty hs ht⟩

theorem mergeOnce_of_popMin [DecidableEq W] {q q1 q2 : TreeQueues W} {a b : Nat} (h1 : popMin wa n q = some (a, q1))
    (h2 : popMin wa n q1 = some (b, q2)) : mergeOnce wa n q = .ok (pushInternal wa q2 a b) := by
  simp only [mergeOnce, h1, h2]

/-- Settles O44: the branches of pop-min, and a merge step is two of them and a push. -/
theorem popMinAndTheMergeStep : Obligations.PopMinAndTheMergeStep :=
  fun _ _ _ _ _ _ => ⟨popMin_eq_target_iff, fun hs h => popMin_of_source (Nat.not_le.1 hs) h, popMin_eq_none_iff,
    fun _ _ _ _ h1 h2 => mergeOnce_of_popMin h1 h2⟩

/-! ### TB.RUN completes or faults (R154, R155) -/

variable [DecidableEq W] {s : State.Of W} {q : TreeQueues W}

theorem execTbRunWith_of_ok (hp : s.phase ∈ [Phase.listed, .treed, .coded]) (hlen : s.nsfl.toNat ≤ 256)
    (h : mergeAll wa s.nsfl.toNat (loadLeaves s.node s.sflList) = .ok q) :
    execTbRunWith wa s = .next ((s.treeBuilt q).answer 0x00#8 ((s.treeBuilt q).root.setWidth 64)) := by
  rw [execTbRunWith, whenLegal_of_legal (i := .tbRun) _ (Phase.hasList_iff.2 hp), withElements_of_le (sp := .sfl) _ hlen, h]
  simp only [respond_eq, BitVec.ofNat_toNat]

theorem execTbRunWith_of_error (hp : s.phase ∈ [Phase.listed, .treed, .coded]) (hlen : s.nsfl.toNat ≤ 256)
    (h : mergeAll wa s.nsfl.toNat (loadLeaves s.node s.sflList) = .error q) :
    execTbRunWith wa s = .next ((s.treeFailed q).enterFault .invalidTreeState 0) := by
  rw [execTbRunWith, whenLegal_of_legal (i := .tbRun) _ (Phase.hasList_iff.2 hp), withElements_of_le (sp := .sfl) _ hlen, h]
  rfl

/-- Loading the leaves leaves the rest of NODE alone. -/
theorem at_loadLeaves_of_le {node : Memory (Node.Of W)} (hwf : Memory.wf unlistedNode Config.nodeMax node)
    {entries : List (Entry.Of W)} (hlen : entries.length ≤ 256) {i : Nat} (hi : entries.length ≤ i) :
    (loadLeaves node entries).at i = Memory.read unlistedNode node i := by
  rw [TreeQueues.at, loadLeaves, Memory.read_writeFrom hwf (by simp only [List.length_map, Config.nodeMax]; omega),
    List.length_map, if_neg (by omega)]

/-- An iteration pushes below NODE[2n - 1]. -/
theorem Merges.at_of_le {a b i : Nat} {q' : TreeQueues W} (hm : Merges wa n q a b q')
    (hwf : Memory.wf unlistedNode Config.nodeMax q.node) (hi : 2 * n - 1 ≤ i) : q'.at i = q.at i := by
  have hroom := hm.room
  rw [TreeQueues.at, hm.node_eq, Memory.read_write_other hwf (by omega)]
  rfl

/-- The loop writes NODE[0..2n - 2] only. -/
theorem at_mergeAll_of_le {node : Memory (Node.Of W)} (hwf : Memory.wf unlistedNode Config.nodeMax node)
    {entries : List (Entry.Of W)} (hn : 2 ≤ entries.length) (hlen : entries.length ≤ 256)
    (h : mergeAll wa entries.length (loadLeaves node entries) = .ok q) {i : Nat} (hi : 2 * entries.length - 1 ≤ i) :
    q.at i = Memory.read unlistedNode node i := by
  obtain ⟨q', hq', -, -, hat⟩ := mergeAll_completes (wa := wa) hn
    (P := fun u => u.Forest wa entries ∧ u.at i = Memory.read unlistedNode node i)
    (fun _ _ _ _ hm ⟨hforest, hat⟩ => ⟨hm.forest hlen hforest, (hm.at_of_le hforest.wf hi).trans hat⟩)
    ⟨forest_loadLeaves wa hwf hlen, at_loadLeaves_of_le hwf hlen (by omega)⟩
  obtain rfl : q' = q := Except.ok.inj (hq'.symm.trans h)
  exact hat

theorem nodeAt_treeBuilt_of_le (hwf : Memory.wf unlistedNode Config.nodeMax s.node) (hn : 2 ≤ s.nsfl.toNat)
    (hlen : s.nsfl.toNat ≤ 256) (h : mergeAll wa s.nsfl.toNat (loadLeaves s.node s.sflList) = .ok q) {i : Nat}
    (hi : 2 * s.nsfl.toNat - 1 ≤ i) : (s.treeBuilt q).nodeAt i = s.nodeAt i := by
  rw [← length_sflList] at hn hlen h hi
  exact at_mergeAll_of_le hwf hn hlen h hi

/-- Settles O41: the loop ends with the registers of R154, and writes NODE[0..2n - 2] only. -/
theorem tbRunCompletes : Obligations.TbRunCompletes := by
  intro s ⟨_, _, _, _, hwf, _⟩ hp hn hlen
  obtain ⟨q, hq, hfin, -⟩ := mergeAll_sflList binary64 s hn hlen
  obtain ⟨-, htgth, htgtt, hnnode, hroot⟩ := hfin.registers hlen
  refine ⟨_, execTbRunWith_of_ok hp hlen hq, ?_, ?_, ?_, ?_, ?_, fun _ => rfl, fun i hi => ?_⟩
  · simp only [State.Of.answer, State.Of.treeBuilt, State.Of.withQueues, hfin.srch_eq, BitVec.ofNat_toNat, BitVec.setWidth_eq]
  · simp only [State.Of.answer_nnode]; omega
  · simp only [State.Of.answer_root]; omega
  · simp only [State.Of.answer_tgth]; omega
  · simp only [State.Of.answer_tgtt]; omega
  · exact nodeAt_treeBuilt_of_le hwf hn hlen hq hi

/-- Settles O43: with fewer than two leaves the loop fails, with two or more it does not, and the invariant asks for two. -/
theorem tbRunOnTooShortAListFaults : Obligations.TbRunOnTooShortAListFaults := by
  refine ⟨fun s ⟨_, _, _, _, hwf, _⟩ hp hn => ?_, fun s t h hfault => ?_, fun s t ⟨_, _, hpipe⟩ h => ?_⟩
  · have hlen : s.nsfl.toNat ≤ 256 := by omega
    refine ⟨_, execTbRunWith_of_error hp hlen (mergeAll_sflList_of_lt binary64 s hn), rfl, ?_, ?_, ?_, fun _ => rfl,
      fun i hi => ?_⟩
    · simp only [State.Of.enterFault_srch, State.Of.treeFailed_srch, BitVec.ofNat_toNat, BitVec.setWidth_eq]
    · simp only [State.Of.enterFault_tgth, State.Of.treeFailed_tgth, loadLeaves, length_sflList, BitVec.toNat_ofNat]
      omega
    · simp only [State.Of.enterFault_tgtt, State.Of.treeFailed_tgtt, loadLeaves, length_sflList, BitVec.toNat_ofNat]
      omega
    · exact at_loadLeaves_of_le hwf (by rwa [length_sflList]) (by rwa [length_sflList])
  · obtain ⟨-, rfl⟩ | ⟨-, -, ⟨q, -, rfl⟩ | ⟨q, -, rfl⟩⟩ := execTbRunWith_next (wa := binary64) h
    · cases hfault
    · cases hfault
    · rfl
  · obtain ⟨-, rfl⟩ | ⟨hp, hlen, ⟨q, -, rfl⟩ | ⟨q, hq, rfl⟩⟩ := execTbRunWith_next (wa := binary64) h
    · rfl
    · rfl
    · obtain ⟨⟨hn, -, -⟩, -, -⟩ := listOk_of_hasList hpipe hp
      exact absurd (of_mergeAll_eq_error hlen hq).1 (Nat.not_lt.2 hn)

/-- What a completed TB.RUN has done. -/
theorem eq_answer_of_execTbRunWith_ok {t : State.Of W} (h : execTbRunWith wa s = .next t) (hok : t.answeredOk = true) :
    s.nsfl.toNat ≤ 256 ∧ ∃ q d, mergeAll wa s.nsfl.toNat (loadLeaves s.node s.sflList) = .ok q ∧
      t = (s.treeBuilt q).answer 0x00#8 d := by
  obtain ⟨-, rfl⟩ | ⟨-, hlen, ⟨q, hq, rfl⟩ | ⟨q, -, rfl⟩⟩ := execTbRunWith_next h
  · cases hok
  · exact ⟨hlen, q, _, hq, rfl⟩
  · cases hok

/-! ### The loop, from its result -/

/-- An iteration has room in NODE (R7). -/
theorem Merges.tgtt_lt_nodeMax {q' : TreeQueues W} {a b : Nat} (hm : Merges wa n q a b q') (hn : n ≤ 256) :
    q.tgtt < Config.nodeMax := by
  have hroom := hm.room
  simp only [Config.nodeMax]
  omega

/-- What every iteration keeps, given how the queues stand and that the iteration completes, the loop keeps. -/
theorem mergeLoop_keeps (hn : 2 ≤ n) {P : TreeQueues W → Prop}
    (hP : ∀ q a b q', q.Counted n → mergeOnce wa n q = .ok q' → Merges wa n q a b q' → P q → P q') {fuel : Nat}
    {q q' : TreeQueues W} (hq : q.Counted n) (h : mergeLoop wa n fuel q = .ok q') (hPq : P q) : P q' := by
  induction fuel generalizing q with
  | zero => exact Except.ok.inj h ▸ hPq
  | succ fuel ih =>
    rw [mergeLoop] at h
    split_ifs at h with hmore
    · obtain ⟨a, b, q1, h1, hm, hq1⟩ := mergeOnce_merges wa hn hq hmore
      rw [h1] at h
      exact ih hq1 h (hP q a b q1 hq h1 hm hPq)
    · exact Except.ok.inj h ▸ hPq

/-- The test after the loop only lets it pass. -/
theorem mergeLoop_of_mergeAll {q0 : TreeQueues W} (h : mergeAll wa n q0 = .ok q) : mergeLoop wa n n q0 = .ok q := by
  unfold mergeAll at h
  split at h
  · cases h
  · split_ifs at h
    rwa [← Except.ok.inj h]

end Sys2Proof.Machine
end

section
/-! PROOFS. The same list gives the same tree (42_tree_builder.md R156(e)): two loops over the same list go side by side, whatever
was in NODE before. -/

namespace Sys2Proof.Machine

variable {W : Type} [Inhabited W] {wa : WArith W} {n : Nat}

/-- The same queues over the same nodes; past the back of `target` the node memories may differ. -/
structure TreeQueues.Agrees (p q : TreeQueues W) : Prop where
  wf_left : Memory.wf unlistedNode Config.nodeMax p.node
  wf_right : Memory.wf unlistedNode Config.nodeMax q.node
  srch_eq : q.srch = p.srch
  tgth_eq : q.tgth = p.tgth
  tgtt_eq : q.tgtt = p.tgtt
  at_eq : ∀ i < p.tgtt, q.at i = p.at i

/-- Pop-min looks at the two fronts only. -/
theorem exists_popMin_of_agrees {p p' q : TreeQueues W} {r : Nat} (hpq : p.Agrees q) (hn : n ≤ p.tgtt)
    (h : popMin wa n p = some (r, p')) : ∃ q', popMin wa n q = some (r, q') ∧ p'.Agrees q' := by
  obtain ⟨hwf, hwf', hsrch, htgth, htgtt, hat⟩ := hpq
  have hfirst (hs : p.srch < n) (ht : p.tgth < p.tgtt) : q.targetFirst wa = p.targetFirst wa := by
    simp only [TreeQueues.targetFirst, hsrch, htgth, hat _ ht, hat _ (hs.trans_le hn)]
  obtain ⟨⟨hs, hf⟩, rfl, rfl⟩ | ⟨⟨ht, hf⟩, rfl, rfl⟩ := popMin_cases h
  · refine ⟨{ q with srch := q.srch + 1 }, ?_, hwf, hwf', congrArg (· + 1) hsrch, htgth, htgtt, hat⟩
    rw [← hsrch]
    refine popMin_of_source (hsrch.trans_lt hs) ?_
    by_cases ht : p.tgth < p.tgtt
    · exact .inr ((hfirst hs ht).trans (hf.resolve_left (Nat.not_le.2 ht)))
    · exact .inl (by omega)
  · refine ⟨{ q with tgth := q.tgth + 1 }, ?_, hwf, hwf', hsrch, congrArg (· + 1) htgth, htgtt, hat⟩
    rw [← htgth]
    refine popMin_of_target (by omega) ?_
    by_cases hs : p.srch < n
    · exact .inr ((hfirst hs ht).trans (hf.resolve_left (Nat.not_le.2 hs)))
    · exact .inl (by omega)

variable [DecidableEq W]

/-- The same node goes to the same place. -/
theorem agrees_pushInternal {p q : TreeQueues W} {a b : Nat} (hpq : p.Agrees q) (ha : a < p.tgtt) (hb : b < p.tgtt)
    (hroom : p.tgtt < Config.nodeMax) : (pushInternal wa p a b).Agrees (pushInternal wa q a b) := by
  obtain ⟨hwf, hwf', hsrch, htgth, htgtt, hat⟩ := hpq
  have hnode : internalOf wa q a b = internalOf wa p a b := by simp only [internalOf, hat a ha, hat b hb]
  refine ⟨Memory.write_wf hwf hroom _, Memory.write_wf hwf' (htgtt ▸ hroom) _, hsrch, htgth, congrArg (· + 1) htgtt,
    fun i hi => ?_⟩
  simp only [TreeQueues.at, pushInternal, Memory.read_write hwf, Memory.read_write hwf', htgtt, hnode]
  split_ifs with hit
  · rfl
  · exact hat i (Nat.lt_of_le_of_ne (Nat.le_of_lt_succ hi) hit)

theorem exists_mergeOnce_of_agrees {p p' q : TreeQueues W} (hpq : p.Agrees q) (hp : p.Counted n)
    (hroom : p.tgtt < Config.nodeMax) (h : mergeOnce wa n p = .ok p') :
    ∃ q', mergeOnce wa n q = .ok q' ∧ p'.Agrees q' := by
  obtain ⟨hs, ht, hg, -, -⟩ := hp
  obtain ⟨a, b, p1, p2, h1, h2, rfl⟩ := mergeOnce_ok h
  have hpop1 := popMin_pops hs ht hg h1
  have hpop2 := popMin_pops hpop1.srch_le hpop1.le_tgth hpop1.tgth_le h2
  obtain ⟨q1, hq1, hpq1⟩ := exists_popMin_of_agrees hpq (ht.trans hg) h1
  obtain ⟨q2, hq2, hpq2⟩ := exists_popMin_of_agrees hpq1 (hpop1.le_tgth.trans hpop1.tgth_le) h2
  have htgtt : p2.tgtt = p.tgtt := hpop2.tgtt_eq.trans hpop1.tgtt_eq
  exact ⟨_, mergeOnce_of_popMin hq1 hq2,
    agrees_pushInternal hpq2 (htgtt ▸ hpop1.lt) (hpop2.tgtt_eq ▸ hpop2.lt) (htgtt ▸ hroom)⟩

theorem exists_mergeLoop_of_agrees {fuel : Nat} {p p' q : TreeQueues W} (hpq : p.Agrees q) (hp : p.Counted n) (hn : 2 ≤ n)
    (hlen : n ≤ 256) (h : mergeLoop wa n fuel p = .ok p') : ∃ q', mergeLoop wa n fuel q = .ok q' ∧ p'.Agrees q' := by
  induction fuel generalizing p q with
  | zero => exact ⟨q, rfl, Except.ok.inj h ▸ hpq⟩
  | succ fuel ih =>
    have hmore : moreToMerge n q = moreToMerge n p := by simp only [moreToMerge, hpq.srch_eq, hpq.tgth_eq, hpq.tgtt_eq]
    rw [mergeLoop] at h ⊢
    rw [hmore]
    split_ifs at h ⊢ with hm
    · obtain ⟨a, b, p1, h1, hmerges, hp1⟩ := mergeOnce_merges wa hn hp hm
      obtain ⟨q1, hq1, hpq1⟩ := exists_mergeOnce_of_agrees hpq hp (hmerges.tgtt_lt_nodeMax hlen) h1
      rw [h1] at h
      rw [hq1]
      exact ih hpq1 hp1 h
    · exact ⟨q, rfl, Except.ok.inj h ▸ hpq⟩

theorem agrees_loadLeaves {node node' : Memory (Node.Of W)} (hwf : Memory.wf unlistedNode Config.nodeMax node)
    (hwf' : Memory.wf unlistedNode Config.nodeMax node') {entries : List (Entry.Of W)} (hlen : entries.length ≤ 256) :
    (loadLeaves node entries).Agrees (loadLeaves node' entries) :=
  ⟨wf_loadLeaves hwf hlen, wf_loadLeaves hwf' hlen, rfl, rfl, rfl,
    fun i (hi : i < entries.length) => (at_loadLeaves hwf' hlen hi).trans (at_loadLeaves hwf hlen hi).symm⟩

/-- The whole loop over one list, from two node memories. -/
theorem agrees_of_mergeAll {node node' : Memory (Node.Of W)} (hwf : Memory.wf unlistedNode Config.nodeMax node)
    (hwf' : Memory.wf unlistedNode Config.nodeMax node') {entries : List (Entry.Of W)} (hn : 2 ≤ entries.length)
    (hlen : entries.length ≤ 256) {p q : TreeQueues W} (hp : mergeAll wa entries.length (loadLeaves node entries) = .ok p)
    (hq : mergeAll wa entries.length (loadLeaves node' entries) = .ok q) : p.Agrees q := by
  obtain ⟨q', hq', hpq⟩ := exists_mergeLoop_of_agrees (agrees_loadLeaves hwf hwf' hlen)
    (counted_loadLeaves node entries) hn hlen (mergeLoop_of_mergeAll hp)
  obtain rfl : q' = q := Except.ok.inj (hq'.symm.trans (mergeLoop_of_mergeAll hq))
  exact hpq

/-- Settles O45: both loops run over one list, so they end with the same queues over the same nodes. -/
theorem tbRunDependsOnTheListAlone : Obligations.TbRunDependsOnTheListAlone := by
  intro W _ _ wa s1 s2 t1 t2 ⟨_, _, _, _, hwf1, _⟩ ⟨_, _, _, _, hwf2, _⟩ hnsfl hlist h1 h2 hok1 hok2
  obtain ⟨hlen, p, d1, hp, rfl⟩ := eq_answer_of_execTbRunWith_ok h1 hok1
  obtain ⟨-, q, d2, hq, rfl⟩ := eq_answer_of_execTbRunWith_ok h2 hok2
  obtain ⟨hn, hfin, -⟩ := of_mergeAll_eq_ok hlen hp
  obtain ⟨-, -, -, hnnode, -⟩ := hfin.registers hlen
  have htgtt := hfin.tgtt_eq
  rw [← hnsfl, ← hlist] at hq
  rw [← length_sflList] at hp hq hn hlen
  have hpq := agrees_of_mergeAll hwf1 hwf2 hn hlen hp hq
  refine ⟨?_, ?_, ?_, ?_, ?_, fun i hi => (hpq.at_eq i ?_).symm⟩
  · simp only [State.Of.answer_root, State.Of.treeBuilt_root, hpq.tgth_eq]
  · simp only [State.Of.answer_nnode, State.Of.treeBuilt_nnode, hpq.tgtt_eq]
  · simp only [State.Of.answer_srch, State.Of.treeBuilt_srch, hpq.srch_eq]
  · simp only [State.Of.answer_tgth, State.Of.treeBuilt_tgth, hpq.tgth_eq]
  · simp only [State.Of.answer_tgtt, State.Of.treeBuilt_tgtt, hpq.tgtt_eq]
  · simp only [State.Of.answer_nnode] at hi
    omega

end Sys2Proof.Machine
end

section
/-! PROOFS. The order of the weights (42_tree_builder.md R156(a)): what has been taken from the queues weighs no more than what is
still in them, so each new internal node weighs no less than the ones before it. -/

namespace Sys2Proof.Machine

variable {n : Nat}

/-! ### Sums on the values of weights (R123) -/

theorem wval_two_pow {k : Nat} (hk : k ≤ 2045) : wval (BitVec.ofNat 64 (k * 2 ^ 52 + 2 ^ 52)) = 2 ^ (52 + k) := by
  rw [wval_of_toNat_eq (e := k) (m := 2 ^ 52) (by omega) (by rw [BitVec.toNat_ofNat]; omega), pow_add]

theorem smallWeight_of_wval_le {a : Weight} {k : Nat} (hk : k < 2045) (ha : wval a ≤ 2 ^ (52 + k)) : smallWeight a := by
  rw [← wval_two_pow hk.le, wval_le_iff, BitVec.toNat_ofNat] at ha
  rw [smallWeight]
  omega

/-- Rounding does not carry a sum past a power of two. -/
theorem wval_wadd_le_two_pow {a b : Weight} {k : Nat} (hk : k < 2045) (ha : wval a ≤ 2 ^ (52 + k))
    (hb : wval b ≤ 2 ^ (52 + k)) :
    wval (wadd a b) ≤ 2 ^ (52 + k + 1) := by
  have hpow : wadd (BitVec.ofNat 64 (k * 2 ^ 52 + 2 ^ 52)) (BitVec.ofNat 64 (k * 2 ^ 52 + 2 ^ 52)) =
      BitVec.ofNat 64 ((k + 1) * 2 ^ 52 + 2 ^ 52) := by
    rw [wadd_eq_rne, wval_two_pow hk.le, ← two_mul, ← pow_succ', add_assoc 52, ← wval_two_pow hk, rne_wval]
  have hsmall := smallWeight_of_wval_le hk (wval_two_pow hk.le).le
  rw [← wval_two_pow hk.le, wval_le_iff] at ha hb
  rw [add_assoc 52, ← wval_two_pow hk, ← hpow, wval_le_iff]
  exact toNat_wadd_mono hsmall hsmall ha hb

theorem wval_wadd_mono {a1 a2 b1 b2 : Weight} (ha2 : smallWeight a2) (hb2 : smallWeight b2) (ha : wval a1 ≤ wval a2)
    (hb : wval b1 ≤ wval b2) : wval (wadd a1 b1) ≤ wval (wadd a2 b2) :=
  wval_le_iff.2 (toNat_wadd_mono ha2 hb2 (wval_le_iff.1 ha) (wval_le_iff.1 hb))

theorem wval_le_wval_wadd {a b : Weight} (ha : smallWeight a) (hb : smallWeight b) :
    wval a ≤ wval (wadd a b) ∧ wval b ≤ wval (wadd a b) :=
  ⟨wval_le_iff.2 (toNat_le_toNat_wadd ha hb), wval_le_iff.2 (wadd_comm b a ▸ toNat_le_toNat_wadd hb ha)⟩

/-! ### The forest -/

/-- The weight of node `i`, as a number. -/
def TreeQueues.weight (q : TreeQueues Weight) (i : Nat) : Nat := wval (q.at i).w

section
variable {entries : List Entry} {q : TreeQueues Weight} (hq : q.Forest binary64 entries)
include hq

theorem TreeQueues.Forest.weight_internal {i : Nat} (hi : entries.length ≤ i) (hi' : i < q.tgtt) :
    q.weight i = wval (wadd (q.at (q.at i).left.toNat).w (q.at (q.at i).right.toNat).w) := by
  obtain ⟨-, -, -, -, -, hw⟩ := hq.internal i hi hi'
  exact congrArg wval hw

/-- The children of an internal node have been taken from the queues. -/
theorem TreeQueues.Forest.taken_children (htgtt : q.tgtt ≤ Config.nodeMax) {i : Nat} (hi : entries.length ≤ i)
    (hi' : i < q.tgtt) : q.taken entries.length (q.at i).left.toNat ∧ q.taken entries.length (q.at i).right.toNat := by
  obtain ⟨-, -, hl, hr, -, -⟩ := hq.internal i hi hi'
  have htaken : ∀ j < Config.nodeMax, 0 < q.childCount q.tgtt j → q.taken entries.length j := fun j hj hpos => by
    by_contra hfree
    rw [hq.count j hj, if_neg hfree] at hpos
    exact hpos.false
  have hmem : i ∈ List.range q.tgtt := List.mem_range.2 hi'
  constructor
  · exact htaken _ (by omega) (Nat.add_pos_left (List.countP_pos_iff.2 ⟨i, hmem, by simp⟩) _)
  · exact htaken _ (by omega) (Nat.add_pos_right _ (List.countP_pos_iff.2 ⟨i, hmem, by simp⟩))

variable (hprob : ∀ e ∈ entries, wval e.prob ≤ unitsPerOne)
include hprob

/-- From leaves of at most 1.0, each node is at most twice as heavy as one could be before it. -/
theorem TreeQueues.Forest.weight_le (htgtt : q.tgtt ≤ Config.nodeMax) {i : Nat} (hi : i < q.tgtt) :
    q.weight i ≤ 2 ^ (52 + (1022 + i)) := by
  induction i using Nat.strong_induction_on with
  | _ i ih =>
  simp only [Config.nodeMax] at htgtt
  by_cases hleaf : i < entries.length
  · rw [TreeQueues.weight, hq.leaf i hleaf]
    refine (hprob _ (List.getElem_mem hleaf)).trans ?_
    rw [unitsPerOne_eq, pow_add]
    gcongr
    · exact one_le_two
    · exact Nat.le_add_right _ _
  · obtain ⟨-, -, hl, hr, -, -⟩ := hq.internal i (not_lt.1 hleaf) hi
    have hchild : ∀ j < i, wval (q.at j).w ≤ 2 ^ (52 + (1021 + i)) := fun j hj =>
      (ih j hj (hj.trans hi)).trans (Nat.pow_le_pow_right two_pos (by omega))
    rw [hq.weight_internal (not_lt.1 hleaf) hi]
    exact (wval_wadd_le_two_pow (by omega) (hchild _ hl) (hchild _ hr)).trans (Nat.pow_le_pow_right two_pos (by omega))

theorem TreeQueues.Forest.small (htgtt : q.tgtt ≤ Config.nodeMax) {i : Nat} (hi : i < q.tgtt) :
    smallWeight (q.at i).w := by
  have hle := hq.weight_le hprob htgtt hi
  simp only [Config.nodeMax] at htgtt
  exact smallWeight_of_wval_le (by omega) hle

/-- R123 L3 in the forest. -/
theorem TreeQueues.Forest.weight_children_le (htgtt : q.tgtt ≤ Config.nodeMax) {i : Nat} (hi : entries.length ≤ i)
    (hi' : i < q.tgtt) : q.weight (q.at i).left.toNat ≤ q.weight i ∧ q.weight (q.at i).right.toNat ≤ q.weight i := by
  obtain ⟨-, -, hl, hr, -, -⟩ := hq.internal i hi hi'
  rw [hq.weight_internal hi hi']
  exact wval_le_wval_wadd (hq.small hprob htgtt (hl.trans hi')) (hq.small hprob htgtt (hr.trans hi'))

end

/-! ### The two queues stay sorted -/

/-- R156(a): both queues are sorted by weight, and what has been taken weighs no more than what has not. -/
structure TreeQueues.Rising (n : Nat) (q : TreeQueues Weight) : Prop where
  source : ∀ i j, i ≤ j → j < n → q.weight i ≤ q.weight j
  target : ∀ i j, n ≤ i → i ≤ j → j < q.tgtt → q.weight i ≤ q.weight j
  taken_le : ∀ i j, i < q.tgtt → j < q.tgtt → q.taken n i → ¬ q.taken n j → q.weight i ≤ q.weight j

theorem targetFirst_iff {q : TreeQueues Weight} : q.targetFirst binary64 = true ↔ q.weight q.tgth < q.weight q.srch :=
  decide_eq_true_iff

theorem targetFirst_eq_false_iff {q : TreeQueues Weight} :
    q.targetFirst binary64 = false ↔ q.weight q.srch ≤ q.weight q.tgth := by
  rw [Bool.eq_false_iff, ne_eq, targetFirst_iff, not_lt]

/-- Pop-min takes a lightest node. -/
theorem TreeQueues.Rising.popMin_le {q q' : TreeQueues Weight} {r : Nat} (hq : q.Rising n) (htgth : n ≤ q.tgth)
    (h : popMin binary64 n q = some (r, q')) {j : Nat} (hj : j < q.tgtt) (hfree : ¬ q.taken n j) :
    q.weight r ≤ q.weight j := by
  have hsource : j < n → q.weight q.srch ≤ q.weight j := hq.source _ _ (by omega)
  have htarget : n ≤ j → q.weight q.tgth ≤ q.weight j := fun hnj => hq.target _ _ htgth (by omega) hj
  obtain ⟨⟨-, hfirst⟩, rfl, -⟩ | ⟨⟨-, hfirst⟩, rfl, -⟩ := popMin_cases h <;> obtain hjn | hnj := lt_or_ge j n
  · exact hsource hjn
  · exact (targetFirst_eq_false_iff.1 (hfirst.resolve_left (by omega))).trans (htarget hnj)
  · exact (targetFirst_iff.1 (hfirst.resolve_left (by omega))).le.trans (hsource hjn)
  · exact htarget hnj

/-- So a pop keeps the order. -/
theorem rising_of_popMin {q q' : TreeQueues Weight} {r : Nat} (hq : q.Rising n) (htgth : n ≤ q.tgth)
    (h : popMin binary64 n q = some (r, q')) (hpops : Pops n q r q') : q'.Rising n := by
  have hweight : q'.weight = q.weight := by
    funext i
    rw [TreeQueues.weight, TreeQueues.at, hpops.node_eq]
    rfl
  constructor
  · simpa only [hweight] using hq.source
  · simpa only [hweight, hpops.tgtt_eq] using hq.target
  · intro i j hi hj htaken hfree
    rw [hpops.tgtt_eq] at hi hj
    rw [hpops.taken_iff] at htaken hfree
    rw [not_or] at hfree
    rw [hweight]
    obtain htaken | rfl := htaken
    · exact hq.taken_le i j hi hj htaken hfree.1
    · exact hq.popMin_le htgth h hj hfree.1

/-- After the two pops of an iteration, before its push, what has been taken weighs no more than what has not. -/
theorem TreeQueues.Rising.taken_le_of_mergeOnce {q q' : TreeQueues Weight} (hq : q.Rising n) (hc : q.Counted n)
    (h : mergeOnce binary64 n q = .ok q') {i j : Nat} (hi : i < q.tgtt) (hj : j < q.tgtt) (htaken : q'.taken n i)
    (hfree : ¬ q'.taken n j) : q.weight i ≤ q.weight j := by
  obtain ⟨hs, ht, hg, -, -⟩ := hc
  obtain ⟨a, b, q1, q2, h1, h2, rfl⟩ := mergeOnce_ok h
  have hpop1 := popMin_pops hs ht hg h1
  have hpop2 := popMin_pops hpop1.srch_le hpop1.le_tgth hpop1.tgth_le h2
  have hq2 := rising_of_popMin (rising_of_popMin hq ht h1 hpop1) hpop1.le_tgth h2 hpop2
  have htgtt : q2.tgtt = q.tgtt := hpop2.tgtt_eq.trans hpop1.tgtt_eq
  have hle := hq2.taken_le i j (htgtt ▸ hi) (htgtt ▸ hj) htaken hfree
  simpa only [TreeQueues.weight, TreeQueues.at, hpop2.node_eq, hpop1.node_eq] using hle

/-! ### One iteration, and the loop -/

section
variable {entries : List Entry} {q q' : TreeQueues Weight} {a b : Nat} (hm : Merges binary64 entries.length q a b q')
  (hforest : q.Forest binary64 entries)
include hm hforest

theorem Merges.weight_below {i : Nat} (hi : i < q.tgtt) : q'.weight i = q.weight i := by
  rw [TreeQueues.weight, hm.at_below hforest.wf hi]
  rfl

theorem Merges.weight_push : q'.weight q.tgtt = wval (wadd (q.at a).w (q.at b).w) := by
  rw [TreeQueues.weight, hm.at_push hforest.wf]
  rfl

variable (hlen : entries.length ≤ 256) (hprob : ∀ e ∈ entries, wval e.prob ≤ unitsPerOne) (hq : q.Rising entries.length)
include hlen hprob hq

/-- The new node weighs no less than what has been taken, its children among them. -/
theorem Merges.taken_le_push {i : Nat} (hi : i < q.tgtt) (htaken : q'.taken entries.length i) :
    q'.weight i ≤ q'.weight q.tgtt := by
  have hnodes := (hm.tgtt_lt_nodeMax hlen).le
  obtain ⟨hleft, hright⟩ :=
    wval_le_wval_wadd (hforest.small hprob hnodes hm.lt_left) (hforest.small hprob hnodes hm.lt_right)
  rw [hm.weight_below hforest hi, hm.weight_push hforest]
  obtain htaken | rfl | rfl := (hm.taken_iff i).1 htaken
  · exact (hq.taken_le i a hi hm.lt_left htaken hm.fresh_left).trans hleft
  · exact hleft
  · exact hright

/-- The new node weighs no less than the internal nodes before it: their children had been taken, its own had not (R123 L2). -/
theorem Merges.internal_le_push {i : Nat} (hi : entries.length ≤ i) (hi' : i < q.tgtt) : q'.weight i ≤ q'.weight q.tgtt := by
  have hnodes := (hm.tgtt_lt_nodeMax hlen).le
  obtain ⟨-, -, hl, hr, -, -⟩ := hforest.internal i hi hi'
  obtain ⟨htl, htr⟩ := hforest.taken_children hnodes hi hi'
  rw [hm.weight_below hforest hi', hm.weight_push hforest, hforest.weight_internal hi hi']
  exact wval_wadd_mono (hforest.small hprob hnodes hm.lt_left) (hforest.small hprob hnodes hm.lt_right)
    (hq.taken_le _ a (hl.trans hi') hm.lt_left htl hm.fresh_left)
    (hq.taken_le _ b (hr.trans hi') hm.lt_right htr hm.fresh_right)

theorem Merges.rising (hc : q.Counted entries.length) (h : mergeOnce binary64 entries.length q = .ok q') :
    q'.Rising entries.length := by
  have htgtt := hm.tgtt_eq
  have hle := hforest.le_tgtt
  refine ⟨fun i j hij hj => ?_, fun i j hi hij hj => ?_, fun i j hi hj htaken hfree => ?_⟩
  · rw [hm.weight_below hforest (by omega), hm.weight_below hforest (by omega)]
    exact hq.source i j hij hj
  · rw [htgtt] at hj
    obtain hj | rfl := Nat.lt_succ_iff_lt_or_eq.1 hj
    · rw [hm.weight_below hforest (by omega), hm.weight_below hforest hj]
      exact hq.target i j hi hij hj
    obtain hlt | rfl := hij.lt_or_eq
    · exact hm.internal_le_push hforest hlen hprob hq hi hlt
    · exact le_rfl
  · have hi' : i < q.tgtt := by
      have := hm.lt_left
      have := hm.lt_right
      have := hc.srch_le
      have := hc.tgth_le
      have := (hm.taken_iff i).1 htaken
      rw [TreeQueues.taken] at this
      omega
    rw [htgtt] at hj
    obtain hj | rfl := Nat.lt_succ_iff_lt_or_eq.1 hj
    · rw [hm.weight_below hforest hi', hm.weight_below hforest hj]
      exact hq.taken_le_of_mergeOnce hc h hi' hj htaken hfree
    · exact hm.taken_le_push hforest hlen hprob hq hi' htaken

end

/-- R127 puts the leaves in the order of their weights. -/
theorem rising_loadLeaves {node : Memory Node} (hwf : Memory.wf unlistedNode Config.nodeMax node) {entries : List Entry}
    (hlen : entries.length ≤ 256) (hsorted : entries.Pairwise (comesBefore binary64)) :
    (loadLeaves node entries).Rising entries.length where
  source i j hij hj := by
    obtain rfl | hlt := hij.eq_or_lt
    · exact le_rfl
    rw [TreeQueues.weight, TreeQueues.weight, at_loadLeaves hwf hlen hj, at_loadLeaves hwf hlen (hlt.trans hj)]
    obtain h | ⟨h, -⟩ := List.pairwise_iff_getElem.1 hsorted i j (hlt.trans hj) hj hlt
    · exact (decide_eq_true_iff.1 h).le
    · exact (beq_iff_eq.1 h).le
  target i j hi hij hj := absurd hj (Nat.not_lt.2 (hi.trans hij))
  taken_le i j hi hj htaken := by
    simp only [TreeQueues.taken, loadLeaves] at htaken hi
    omega

theorem rising_mergeAll {node : Memory Node} (hwf : Memory.wf unlistedNode Config.nodeMax node) {entries : List Entry}
    (hn : 2 ≤ entries.length) (hlen : entries.length ≤ 256) (hsorted : entries.Pairwise (comesBefore binary64))
    (hprob : ∀ e ∈ entries, wval e.prob ≤ unitsPerOne) {q : TreeQueues Weight}
    (h : mergeAll binary64 entries.length (loadLeaves node entries) = .ok q) :
    q.Forest binary64 entries ∧ q.Rising entries.length :=
  mergeLoop_keeps hn (P := fun u => u.Forest binary64 entries ∧ u.Rising entries.length)
    (fun _ _ _ _ hc h1 hm ⟨hforest, hq⟩ => ⟨hm.forest hlen hforest, hm.rising hforest hlen hprob hq hc h1⟩)
    (counted_loadLeaves node entries) (mergeLoop_of_mergeAll h)
    ⟨forest_loadLeaves binary64 hwf hlen, rising_loadLeaves hwf hlen hsorted⟩

/-- Settles O46: the queues stay sorted and what has been taken is lightest (`Merges.rising`); with L3 for the children. -/
theorem internalWeightsNeverFall : Obligations.InternalWeightsNeverFall := by
  intro s t ⟨_, _, _, _, hwf, _⟩ ⟨_, hsorted, _⟩ hprob h hok
  obtain ⟨hlen, q, d, hq, rfl⟩ := eq_answer_of_execTbRunWith_ok (wa := binary64) h hok
  obtain ⟨hn, hfin, -⟩ := of_mergeAll_eq_ok hlen hq
  obtain ⟨-, -, -, hnnode, -⟩ := hfin.registers hlen
  have htgtt := hfin.tgtt_eq
  have hnodes : q.tgtt ≤ Config.nodeMax := by simp only [Config.nodeMax]; omega
  simp only [State.Of.answer_nnode, State.Of.nodeAt_answer]
  rw [← length_sflList] at hq hn hlen ⊢
  obtain ⟨hforest, hrising⟩ := rising_mergeAll hwf hn hlen hsorted hprob hq
  exact ⟨fun i hi hi' => hrising.target i (i + 1) hi (Nat.le_succ i) (by omega),
    fun i hi hi' => hforest.weight_children_le hprob hnodes hi (by omega)⟩

end Sys2Proof.Machine
end

section
/-! PROOFS. What the code generator leaves and answers (43_code_generator.md): CG.RUN completes, since no path of a tree has more than
NSFL - 1 moves (R181, R183); no code begins with another (R182); RD.CBITS answers their bits (R186). -/

namespace Sys2Proof.Machine

variable {W : Type} [Inhabited W] {wa : WArith W} {s : State.Of W}

/-! ### Internal nodes and the length of a path (R183) -/

theorem nsfl_le_of_not_leaf (htree : s.treeOk wa) {i : Nat} (hleaf : (s.nodeAt i).leaf = false) : s.nsfl.toNat ≤ i := by
  by_contra hlt
  simp [nodeAt_leaf htree (not_le.1 hlt)] at hleaf

/-- Both children of an internal node come before it. -/
theorem child_lt_of_not_leaf (htree : s.treeOk wa) {i : Nat} (hi : i < s.nnode.toNat) (hleaf : (s.nodeAt i).leaf = false)
    (b : Bool) : (s.child b i).toNat < i := by
  have hge := nsfl_le_of_not_leaf htree hleaf
  obtain ⟨-, -, -, hinternal, -⟩ := htree
  obtain ⟨-, -, hl, hr, -⟩ := hinternal i hi hge
  cases b
  · exact hl
  · exact hr

/-- Every move leaves an internal node for a smaller index, and up to index `i` there are `i + 1 - NSFL` internal nodes. -/
theorem length_le_of_follow (htree : s.treeOk wa) {i j : Nat} {bits : BitString} (hi : i < s.nnode.toNat)
    (h : s.follow i bits = some j) : bits.length ≤ i + 1 - s.nsfl.toNat := by
  induction bits generalizing i with
  | nil => exact Nat.zero_le _
  | cons b bits ih =>
    obtain ⟨hleaf, -, h⟩ := follow_cons_eq_some.1 h
    have hge := nsfl_le_of_not_leaf htree hleaf
    have hlt := child_lt_of_not_leaf htree hi hleaf b
    have hlen := ih (hlt.trans hi) h
    rw [List.length_cons]
    omega

theorem length_le_of_follow_root (htree : s.treeOk wa) {j : Nat} {bits : BitString}
    (h : s.follow s.root.toNat bits = some j) : bits.length ≤ s.nsfl.toNat - 1 := by
  have hlen := length_le_of_follow htree (root_lt htree) h
  obtain ⟨hnnode, hroot, -⟩ := htree
  omega

/-! ### CG.RUN completes (R181) -/

theorem visit_of_leaf {frames i : Nat} (hi : i < Config.nodeMax) (hleaf : (s.nodeAt i).leaf = true) (path : BitString)
    (code : Memory Code) :
    visit s.node (frames + 1) i path code = .ok (Memory.write unlistedCode code (s.nodeAt i).sym.toNat path) := by
  rw [visit, if_pos hi]
  exact if_pos hleaf

theorem visit_of_not_leaf {frames i : Nat} (hi : i < Config.nodeMax) (hleaf : (s.nodeAt i).leaf = false) {path : BitString}
    {code code' : Memory Code} (hleft : visit s.node frames (s.child false i).toNat (path ++ [false]) code = .ok code') :
    visit s.node (frames + 1) i path code = visit s.node frames (s.child true i).toNat (path ++ [true]) code' := by
  have hleft : visit s.node frames (Memory.read unlistedNode s.node i).left.toNat (path ++ [false]) code = .ok code' := hleft
  have hleaf : (Memory.read unlistedNode s.node i).leaf = false := hleaf
  rw [visit, if_pos hi, if_neg (Bool.eq_false_iff.1 hleaf), hleft]
  rfl

/-- One frame for the node itself and one for each internal node up to it are enough. -/
theorem exists_visit (htree : s.treeOk wa) (hnodes : s.nnode.toNat ≤ Config.nodeMax) {frames i : Nat} (hi : i < s.nnode.toNat)
    (hframes : i + 1 - s.nsfl.toNat ≤ frames) (path : BitString) (code : Memory Code) :
    ∃ code', visit s.node (frames + 1) i path code = .ok code' := by
  induction frames generalizing i path code with
  | zero =>
    have hleaf := nodeAt_leaf htree (show i < s.nsfl.toNat by omega)
    exact ⟨_, visit_of_leaf (hi.trans_le hnodes) (by rw [hleaf]) path code⟩
  | succ frames ih =>
    cases hleaf : (s.nodeAt i).leaf with
    | true => exact ⟨_, visit_of_leaf (hi.trans_le hnodes) hleaf path code⟩
    | false =>
      have hbelow : ∀ b path code, ∃ code', visit s.node (frames + 1) (s.child b i).toNat path code = .ok code' := fun b =>
        have hlt := child_lt_of_not_leaf htree hi hleaf b
        ih (hlt.trans hi) (by omega)
      obtain ⟨mid, hleft⟩ := hbelow false (path ++ [false]) code
      rw [visit_of_not_leaf (hi.trans_le hnodes) hleaf hleft]
      exact hbelow true _ mid

/-- The 256 frames of R16 are enough for every tree over at most 256 symbols. -/
theorem exists_visit_root (hmax : s.nsfl.toNat ≤ 256) (htree : s.treeOk wa) :
    ∃ code, visit s.node Config.visitFrames s.root.toNat [] [] = .ok code := by
  have hroot := root_lt htree
  have ⟨hnnode, _, _⟩ := htree
  exact exists_visit htree (by simp only [Config.nodeMax]; omega) hroot (by omega) [] []

/-- The arithmetic with every weight below every other, in which any list is in order. -/
def WArith.allBelow (wa : WArith W) : WArith W := { wa with wlt := fun _ _ => true }

/-- R41(c) is a matter of the list, the tree and the code table. -/
theorem codesOk_of_eq {t : State.Of W} (hs : s.codesOk) (hnsfl : t.nsfl = s.nsfl) (hsfl : t.sfl = s.sfl)
    (hroot : t.root = s.root) (hnode : t.node = s.node) (hcode : t.code = s.code) : t.codesOk := by
  simpa only [State.Of.codesOk, State.Of.sflList, State.Of.sflAt, State.Of.codeAt, follow_congr hnode, hnsfl, hsfl, hroot, hcode]
    using hs

/-- The code table does not depend on the order of the list or on TOTAL: `codesOk_codesWritten` with those two parts of `listOk` made
true. -/
theorem codesOk_codesWritten_of_listShape (hshape : s.listShape) (htree : s.treeOk wa) {code : Memory Code}
    (hvisit : visit s.node Config.visitFrames s.root.toNat [] [] = .ok code) :
    ({ s with code := code, phase := .coded } : State.Of W).codesOk := by
  have hlist : ({ s with total := 1#25 } : State.Of W).listOk wa.allBelow :=
    ⟨hshape, List.pairwise_of_forall fun _ _ => .inl rfl, le_rfl⟩
  exact codesOk_of_eq (codesOk_codesWritten hlist htree hvisit) rfl rfl rfl rfl rfl

theorem execCgRun_of_visit (hp : s.phase ∈ [Phase.treed, .coded]) {code : Memory Code}
    (hvisit : visit s.node Config.visitFrames s.root.toNat [] [] = .ok code) :
    execCgRun s = .next (({ s with code := code, phase := .coded } : State.Of W).answer 0x00#8 (s.nsfl.setWidth 64)) := by
  have hlegal : legal .cgRun s.phase = true := Phase.hasTree_iff.2 hp
  rw [execCgRun, whenLegal_of_legal _ hlegal, hvisit, ← BitVec.ofNat_toNat]
  rfl

/-- Settles O47: the recursion fits in its frames (`exists_visit_root`), and what it has written is R41(c). -/
theorem cgRunWritesThePaths : Obligations.CgRunWritesThePaths := by
  intro s hp hshape htree
  have ⟨_, hmax, _⟩ := hshape
  obtain ⟨code, hvisit⟩ := exists_visit_root hmax htree
  have hcodes := codesOk_codesWritten_of_listShape hshape htree hvisit
  exact ⟨_, execCgRun_of_visit hp hvisit, rfl, codesOk_of_eq hcodes rfl rfl rfl rfl rfl⟩

/-! ### The codes of a coded state (R182, R183) -/

/-- A symbol with a code is the symbol of an entry of the list, and its code is the path to that entry's leaf. -/
theorem follow_of_code (hcodes : s.codesOk) {sym : Byte} (hsym : 0 < (s.codeAt sym).length) :
    sym ∈ s.sflList.map (·.sym) ∧
      ∃ i < s.nsfl.toNat, (s.sflAt i).sym = sym ∧ s.follow s.root.toNat (s.codeAt sym) = some i := by
  obtain ⟨hpaths, hnone⟩ := hcodes
  have hmem : sym ∈ s.sflList.map (·.sym) := by
    by_contra hmem
    simp [hnone sym hmem] at hsym
  have hmem' := hmem
  rw [map_sym_sflList, List.mem_map] at hmem'
  obtain ⟨i, hi, rfl⟩ := hmem'
  have hi := List.mem_range.1 hi
  exact ⟨hmem, i, hi, rfl, hpaths i hi⟩

theorem eq_of_follow_leaf {i j : Nat} (hleaf : (s.nodeAt i).leaf = true) {bits : BitString} (h : s.follow i bits = some j) :
    i = j := by
  cases bits with
  | nil => exact Option.some.inj h
  | cons b bits =>
    obtain ⟨hleaf', -⟩ := follow_cons_eq_some.1 h
    simp [hleaf] at hleaf'

/-- A code that another code begins with ends at a leaf, so the other ends there too. -/
theorem eq_of_code_prefix (htree : s.treeOk wa) (hcodes : s.codesOk) {a b : Byte} (ha : 0 < (s.codeAt a).length)
    (hb : 0 < (s.codeAt b).length) (h : s.codeAt a <+: s.codeAt b) : a = b := by
  obtain ⟨-, i, hi, rfl, hfa⟩ := follow_of_code hcodes ha
  obtain ⟨-, j, -, rfl, hfb⟩ := follow_of_code hcodes hb
  obtain ⟨more, hmore⟩ := h
  rw [← hmore, follow_append, hfa, Option.bind_some] at hfb
  rw [eq_of_follow_leaf (by rw [nodeAt_leaf htree hi]) hfb]

/-- In CODED there is a list, the tree over it, and the code table of the tree. -/
theorem codes_of_coded (hs : s.pipelineOk wa) (hp : s.phase = .coded) : s.listOk wa ∧ s.treeOk wa ∧ s.codesOk := by
  obtain ⟨-, -, -, hcoded, -⟩ := hs
  obtain ⟨hlist, htree, -, hcodes⟩ := hcoded hp
  exact ⟨hlist, htree, hcodes⟩

/-- Settles O48: a code leads to a leaf, and no path goes on past a leaf. -/
theorem codesArePrefixFree : Obligations.CodesArePrefixFree := by
  rintro W _ _ wa s a b ⟨-, -, hpipe⟩ hp hne ha hb
  obtain ⟨-, htree, hcodes⟩ := codes_of_coded hpipe hp
  have hprefix : ¬ s.codeAt a <+: s.codeAt b := fun h => hne (eq_of_code_prefix htree hcodes ha hb h)
  exact ⟨hprefix, fun h => hprefix (h ▸ List.prefix_rfl)⟩

/-- Settles O49: a code is a path from ROOT, which has at most NSFL - 1 moves. -/
theorem codeLengthsAreBounded : Obligations.CodeLengthsAreBounded := by
  rintro W _ _ wa s sym ⟨-, -, hpipe⟩ hp hsym
  obtain ⟨⟨⟨-, hmax, -⟩, -⟩, htree, hcodes⟩ := codes_of_coded hpipe hp
  obtain ⟨hmem, i, -, -, hfollow⟩ := follow_of_code hcodes hsym
  have hlen := length_le_of_follow_root htree hfollow
  exact ⟨hlen, by omega, List.mem_map.1 hmem⟩

/-! ### RD.CBITS (R186) -/

/-- A chunk of a code with its first `n` positions filled in. -/
def chunkPrefix (c : Code) (k n : Nat) : Nat :=
  (List.range n).foldl (fun d m => if c.getD (64 * k + m) false then d + 2 ^ (63 - m) else d) 0

theorem codeChunk_eq (c : Code) (k : Nat) : codeChunk c k = chunkPrefix c k 64 := rfl

theorem chunkPrefix_succ (c : Code) (k n : Nat) :
    chunkPrefix c k (n + 1) =
      if c.getD (64 * k + n) false then chunkPrefix c k n + 2 ^ (63 - n) else chunkPrefix c k n := by
  rw [chunkPrefix, List.range_succ, List.foldl_append]
  rfl

/-- The positions not yet filled in are the low bits. -/
theorem two_pow_dvd_chunkPrefix (c : Code) (k n : Nat) : 2 ^ (64 - n) ∣ chunkPrefix c k n := by
  induction n with
  | zero => exact Nat.dvd_zero _
  | succ n ih =>
    have hold : 2 ^ (64 - (n + 1)) ∣ chunkPrefix c k n := (pow_dvd_pow 2 (by omega)).trans ih
    rw [chunkPrefix_succ]
    split
    · exact Nat.dvd_add hold (pow_dvd_pow 2 (by omega))
    · exact hold

/-- Filling in position `n` sets bit `63 - n` and no other. -/
theorem chunkPrefix_add_eq_or (c : Code) (k : Nat) {n : Nat} (hn : n < 64) :
    chunkPrefix c k n + 2 ^ (63 - n) = chunkPrefix c k n ||| 2 ^ (63 - n) := by
  obtain ⟨high, hhigh⟩ := two_pow_dvd_chunkPrefix c k n
  rw [hhigh]
  exact Nat.two_pow_add_eq_or_of_lt (Nat.pow_lt_pow_right (by decide) (by omega)) high

theorem testBit_chunkPrefix (c : Code) (k : Nat) {n m : Nat} (hn : n ≤ 64) (hm : m < 64) :
    (chunkPrefix c k n).testBit (63 - m) = (decide (m < n) && c.getD (64 * k + m) false) := by
  induction n with
  | zero => simp [chunkPrefix]
  | succ n ih =>
    have ih := ih (by omega)
    rw [chunkPrefix_succ]
    obtain rfl | hne := eq_or_ne m n
    · split_ifs with hc
      · rw [chunkPrefix_add_eq_or c k hm, Nat.testBit_or, Nat.testBit_two_pow_self, hc]
        simp
      · rw [ih, Bool.eq_false_iff.2 hc, Bool.and_false, Bool.and_false]
    · have hlt : decide (m < n + 1) = decide (m < n) := by
        rw [decide_eq_decide]
        omega
      have hother : (2 ^ (63 - n)).testBit (63 - m) = false := by
        rw [Nat.testBit_two_pow, decide_eq_false_iff_not]
        omega
      split_ifs
      · rw [chunkPrefix_add_eq_or c k hn, Nat.testBit_or, ih, hother, Bool.or_false, hlt]
      · rw [ih, hlt]

omit [Inhabited W] in
theorem execRdCbits_eq (sym : Byte) (k : Nat) (s : State.Of W) :
    execRdCbits sym k s = .next (s.answer 0x00#8 (BitVec.ofNat 64 (codeChunk (s.codeAt sym) k))) := by
  rw [execRdCbits, whenLegal_read s _ rfl, respond_eq]

/-- Settles O32: the chunk's 64 positions are its 64 bits, each set once. -/
theorem rdCbitsCompletes : Obligations.RdCbitsCompletes := by
  refine fun s sym k => ⟨_, execRdCbits_eq sym k s, fun m hm => ?_⟩
  have hbit : 63 - m < 64 := by omega
  rw [BitVec.getLsbD_ofNat, codeChunk_eq, testBit_chunkPrefix _ _ le_rfl hm, decide_eq_true hbit, decide_eq_true hm,
    Bool.true_and, Bool.true_and]

end Sys2Proof.Machine
end

section
/-! PROOFS. What BP.RUN packs and where it faults (44_bit_packer.md R201 to R207, 60_exceptions.md R261): the concatenation loop on a
stream whose front fits, the padding block, and the bytes of the padded string. -/

namespace Sys2Proof.Machine

variable {W : Type} {s : State.Of W}

/-! ### The concatenation loop (R201, R204, R205, R261) -/

section
variable {sym : Byte} {rest : List Byte} {j : Nat} {bits : BitString}

theorem concatCodes_cons_of_no_code (hcode : s.codeAt sym = []) :
    concatCodes s.code s.obcap.toNat (sym :: rest) j bits = .unencodable j sym :=
  if_pos (List.length_eq_zero_iff.2 hcode)

theorem concatCodes_cons_of_code (hcode : 0 < (s.codeAt sym).length) :
    concatCodes s.code s.obcap.toNat (sym :: rest) j bits =
      if 8 * s.obcap.toNat ≤ (bits ++ s.codeAt sym).length then .overflow j
      else concatCodes s.code s.obcap.toNat rest (j + 1) (bits ++ s.codeAt sym) :=
  if_neg hcode.ne'

/-- The loop gets past symbols that all have a code and whose bits fit: it has appended their codes. -/
theorem concatCodes_append {front : List Byte} (hcodes : ∀ b ∈ front, 0 < (s.codeAt b).length)
    (hfit : (bits ++ front.flatMap s.codeAt).length < 8 * s.obcap.toNat) :
    concatCodes s.code s.obcap.toNat (front ++ rest) j bits =
      concatCodes s.code s.obcap.toNat rest (j + front.length) (bits ++ front.flatMap s.codeAt) := by
  induction front generalizing j bits with
  | nil => rw [List.flatMap_nil, List.append_nil]; rfl
  | cons sym front ih =>
    obtain ⟨hsym, hfront⟩ := List.forall_mem_cons.1 hcodes
    rw [List.flatMap_cons, ← List.append_assoc] at hfit ⊢
    have hroom : ¬ 8 * s.obcap.toNat ≤ (bits ++ s.codeAt sym).length := by
      rw [List.length_append] at hfit
      omega
    rw [List.cons_append, concatCodes_cons_of_code hsym, if_neg hroom, ih hfront hfit, List.length_cons]
    congr 1
    omega

end

/-- The loop completes when every symbol of IB has a code and the bits of all fit. -/
theorem concatCodes_ibBytes (hcodes : ∀ b ∈ s.ibBytes, 0 < (s.codeAt b).length)
    (hfit : (s.ibBytes.flatMap s.codeAt).length < 8 * s.obcap.toNat) :
    concatCodes s.code s.obcap.toNat s.ibBytes 0 [] = .bits (s.ibBytes.flatMap s.codeAt) := by
  have hall := concatCodes_append (rest := []) (j := 0) (bits := []) hcodes hfit
  rwa [List.append_nil] at hall

section
variable {j : Nat}

theorem getElem?_ibBytes (hj : j < s.ilen.toNat) : s.ibBytes[j]? = some (s.ibAt j) := Memory.getElem?_first s.ib hj

theorem drop_ibBytes (hj : j < s.ilen.toNat) : s.ibBytes.drop j = s.ibAt j :: s.ibBytes.drop (j + 1) := by
  have hlen : j < s.ibBytes.length := hj.trans_eq (length_ibBytes s).symm
  rw [List.drop_eq_getElem_cons hlen, (List.getElem_eq_iff hlen).2 (getElem?_ibBytes hj)]

theorem take_succ_ibBytes (hj : j < s.ilen.toNat) : s.ibBytes.take (j + 1) = s.ibBytes.take j ++ [s.ibAt j] := by
  rw [List.take_add_one, getElem?_ibBytes hj, Option.toList_some]

/-- The loop reaches index `j` when the symbols before it have codes and fit. -/
theorem concatCodes_ibBytes_reaches (hj : j < s.ilen.toNat) (hcodes : ∀ b ∈ s.ibBytes.take j, 0 < (s.codeAt b).length)
    (hfit : ((s.ibBytes.take j).flatMap s.codeAt).length < 8 * s.obcap.toNat) :
    concatCodes s.code s.obcap.toNat s.ibBytes 0 [] =
      concatCodes s.code s.obcap.toNat (s.ibAt j :: s.ibBytes.drop (j + 1)) j ((s.ibBytes.take j).flatMap s.codeAt) := by
  have hfront := concatCodes_append (rest := s.ibBytes.drop j) (j := 0) (bits := []) hcodes hfit
  have hlen : (s.ibBytes.take j).length = j := List.length_take_of_le (hj.le.trans_eq (length_ibBytes s).symm)
  rwa [List.take_append_drop, hlen, Nat.zero_add, List.nil_append, drop_ibBytes hj] at hfront

end

/-! ### The three ends of BP.RUN (R201) -/

section
variable (hp : s.phase = .coded) (hcap : s.ilen.toNat ≤ s.ibcap.toNat) {j : Nat}
include hp hcap

theorem execBpRun_of_unencodable {sym : Byte}
    (hloop : concatCodes s.code s.obcap.toNat s.ibBytes 0 [] = .unencodable j sym) :
    execBpRun s = .next (s.noOutput.enterFault .unencodableSymbol (j * 256 + sym.toNat)) := by
  rw [execBpRun, whenLegal_of_legal (i := .bpRun) _ (Phase.hasCodes_iff.2 hp), withElements_of_le (sp := .ib) _ hcap, hloop,
    ← raise_eq]

theorem execBpRun_of_overflow (hloop : concatCodes s.code s.obcap.toNat s.ibBytes 0 [] = .overflow j) :
    execBpRun s = .next (s.noOutput.enterFault .capacity j) := by
  rw [execBpRun, whenLegal_of_legal (i := .bpRun) _ (Phase.hasCodes_iff.2 hp), withElements_of_le (sp := .ib) _ hcap, hloop,
    ← raise_eq]

theorem execBpRun_of_bits {bits : BitString} (hloop : concatCodes s.code s.obcap.toNat s.ibBytes 0 [] = .bits bits)
    (hfit : bits.length < 8 * s.obcap.toNat) :
    execBpRun s = .next ((s.noOutput.packed bits).answer 0x00#8 ((s.noOutput.packed bits).olen.setWidth 64)) := by
  have hroom : (padded bits).length / 8 ≤ s.obcap.toNat := by
    rw [length_padded_eq]
    omega
  rw [execBpRun, whenLegal_of_legal (i := .bpRun) _ (Phase.hasCodes_iff.2 hp), withElements_of_le (sp := .ib) _ hcap, hloop,
    ← BitVec.ofNat_toNat, ← respond_eq]
  exact withElements_of_le (sp := .ob) _ hroom

end

/-- Settles O52: the loop reaches index `j`, and there finds a missing code before a full OB. -/
theorem bpRunFaultsAtTheFirstBadSymbol : Obligations.BpRunFaultsAtTheFirstBadSymbol := by
  intro s j hs hp hj hcodes hfit
  obtain ⟨-, -, -, hcap, -⟩ := hs
  have hreaches := concatCodes_ibBytes_reaches hj hcodes hfit
  refine ⟨fun hnone => ?_, fun hsome hfull => ?_⟩
  · exact execBpRun_of_unencodable hp hcap (hreaches.trans (concatCodes_cons_of_no_code hnone))
  · rw [take_succ_ibBytes hj, List.flatMap_append, List.flatMap_singleton] at hfull
    rw [concatCodes_cons_of_code (List.length_pos_iff.2 hsome), if_pos hfull] at hreaches
    exact execBpRun_of_overflow hp hcap hreaches

/-! ### The padding block and the bytes (R202, R203) -/

theorem padded_eq (bits : BitString) :
    padded bits = List.replicate (padding bits.length - 1) false ++ [true] ++ bits := by
  rw [padded, List.append_assoc, List.singleton_append]

/-- Settles O54: the padding is what `length_padded_eq` says it adds. -/
theorem paddingReachesTheNextMultipleOf8 : Obligations.PaddingReachesTheNextMultipleOf8 := by
  intro bits
  obtain ⟨hmin, hmax⟩ := padding_pos bits.length
  have hsum := (length_padded bits).symm.trans (length_padded_eq bits)
  exact ⟨hmin, hmax, rfl, hsum, padded_eq bits⟩

/-- R14: a byte reads back as the 8 bits it was made of. -/
theorem bitsOf_byteOf (b7 b6 b5 b4 b3 b2 b1 b0 : Bool) :
    bitsOf (byteOf [b7, b6, b5, b4, b3, b2, b1, b0]) = [b7, b6, b5, b4, b3, b2, b1, b0] := by decide +revert

/-- The bytes of a bit string of whole bytes read back as the bit string (R203). -/
theorem streamBits_groupBytes : ∀ {bits : BitString}, 8 ∣ bits.length → streamBits (groupBytes bits) = bits
  | [], _ => rfl
  | [_], h | [_, _], h | [_, _, _], h | [_, _, _, _], h | [_, _, _, _, _], h | [_, _, _, _, _, _], h
  | [_, _, _, _, _, _, _], h => by simp at h
  | _ :: _ :: _ :: _ :: _ :: _ :: _ :: _ :: rest, h => by
    have hrest : 8 ∣ rest.length := (Nat.dvd_add_left (Nat.dvd_refl 8)).1 h
    rw [groupBytes, streamBits, List.flatMap_cons, bitsOf_byteOf, ← streamBits, streamBits_groupBytes hrest]
    rfl

theorem streamBits_groupBytes_padded (bits : BitString) : streamBits (groupBytes (padded bits)) = padded bits :=
  streamBits_groupBytes (Dvd.intro _ (length_padded_eq bits).symm)

theorem length_groupBytes_padded (bits : BitString) : (groupBytes (padded bits)).length = bits.length / 8 + 1 := by
  rw [length_groupBytes, length_padded_eq, Nat.mul_div_cancel_left _ (by decide)]

/-! ### The packed state (R201, R206) -/

theorem toNat_pad_packed (s : State.Of W) (bits : BitString) : (s.packed bits).pad.toNat = padding bits.length := by
  have hpad := (padding_pos bits.length).2
  rw [State.Of.packed_pad, BitVec.toNat_ofNat, Nat.mod_eq_of_lt (by omega)]

section
variable {bits : BitString} (hfit : bits.length < 8 * s.obcap.toNat)
include hfit

theorem toNat_nbits_packed : (s.packed bits).nbits.toNat = bits.length := by
  have hmax := s.obcap.isLt
  rw [State.Of.packed_nbits, BitVec.toNat_ofNat, Nat.mod_eq_of_lt (by omega)]

theorem toNat_olen_packed : (s.packed bits).olen.toNat = bits.length / 8 + 1 := by
  have hmax := s.obcap.isLt
  rw [State.Of.packed_olen, ← length_groupBytes, length_groupBytes_padded, BitVec.toNat_ofNat, Nat.mod_eq_of_lt (by omega)]

variable (hob : Memory.wf unlistedByte s.obcap.toNat s.ob)
include hob

theorem obBytes_packed : (s.packed bits).obBytes = groupBytes (padded bits) := by
  have hlen := length_groupBytes_padded bits
  rw [State.Of.obBytes, toNat_olen_packed hfit, ← hlen]
  exact Memory.first_writeFrom hob (by omega)

theorem obAt_packed (a : Nat) :
    (s.packed bits).obAt a = if a < bits.length / 8 + 1 then (groupBytes (padded bits)).getD a unlistedByte else s.obAt a := by
  have hlen := length_groupBytes_padded bits
  have hread := Memory.read_writeFrom hob (a := 0) (vs := groupBytes (padded bits)) (by omega) a
  simpa [State.Of.obAt, hlen] using hread

end

/-- Settles O51: the loop completes, and the bytes of the padded string read back as its bits. -/
theorem bpRunPacksTheCodes : Obligations.BpRunPacksTheCodes := by
  rintro s ⟨-, hob, -⟩ hp hcap hcodes hfit
  have hnbits := toNat_nbits_packed (s := s.noOutput) hfit
  have holen := toNat_olen_packed (s := s.noOutput) hfit
  have hpad := toNat_pad_packed s.noOutput (s.ibBytes.flatMap s.codeAt)
  refine ⟨_, execBpRun_of_bits hp hcap (concatCodes_ibBytes hcodes hfit) hfit, rfl, hnbits, ?_, ?_, ?_, fun a ha => ?_⟩
  · exact hpad.trans (hnbits ▸ rfl)
  · exact holen.trans (hnbits ▸ rfl)
  · rw [State.Of.obBytes_answer, obBytes_packed (s := s.noOutput) hfit hob, State.Of.answer_pad, hpad, ← padded_eq]
    exact streamBits_groupBytes_padded _
  · exact (obAt_packed (s := s.noOutput) hfit hob a).trans (if_neg (not_lt.2 (holen.symm.trans_le ha)))

/-- Settles O53: without a symbol the loop ends at once, with no bits to pack. -/
theorem bpRunOnEmptyInput : Obligations.BpRunOnEmptyInput := by
  rintro s ⟨-, hob, -⟩ hp hempty hroom
  have hbytes : s.ibBytes = [] := List.length_eq_zero_iff.1 ((length_ibBytes s).trans (congrArg BitVec.toNat hempty))
  have hloop : concatCodes s.code s.obcap.toNat s.ibBytes 0 [] = .bits [] := by rw [hbytes]; rfl
  have hfit : ([] : BitString).length < 8 * s.obcap.toNat := Nat.mul_pos (by decide) hroom
  have hat := obAt_packed (s := s.noOutput) hfit hob
  refine ⟨_, execBpRun_of_bits hp (hempty ▸ Nat.zero_le _) hloop hfit, rfl, hat 0, fun a ha => ?_⟩
  exact (hat a).trans (if_neg fun hlt => ha (Nat.lt_one_iff.1 hlt))

end Sys2Proof.Machine
end

section
/-! PROOFS. DEC.RUN (45_decoder.md): the walk of a payload cut into paths to leaves and an unfinished rest (R224), and how many bits are
discarded in front of it (R223). -/

namespace Sys2Proof.Machine

variable {W : Type}

/-! ### Discarding the padding block (R223) -/

/-- The scan does not look past the first byte. -/
theorem discarded_streamBits_cons (b : Byte) (rest : List Byte) : discarded (streamBits (b :: rest)) = discarded (bitsOf b) := by
  have htake : (streamBits (b :: rest)).take 8 = (bitsOf b).take 8 := by
    rw [streamBits, List.flatMap_cons]
    exact List.take_append_of_le_length (length_bitsOf b).ge
  rw [discarded, discarded, htake]

/-- R223's table: the position of the first 1 of a byte, from its value. -/
theorem discarded_bitsOf : ∀ b : Byte, discarded (bitsOf b) =
    if 0x80 ≤ b.toNat then 1 else if 0x40 ≤ b.toNat then 2 else if 0x20 ≤ b.toNat then 3
    else if 0x10 ≤ b.toNat then 4 else if 0x08 ≤ b.toNat then 5 else if 0x04 ≤ b.toNat then 6
    else if 0x02 ≤ b.toNat then 7 else 8 := by decide

/-- When the whole first byte is discarded, the payload is the bits of the other bytes. -/
theorem drop_discarded_of_eq_eight {b : Byte} (hb : discarded (bitsOf b) = 8) (rest : List Byte) :
    (streamBits (b :: rest)).drop (discarded (streamBits (b :: rest))) = streamBits rest := by
  rw [discarded_streamBits_cons, hb, streamBits, List.flatMap_cons]
  exact List.drop_left' (length_bitsOf b)

/-- Settles O56: the scan sees the first byte alone, and of 0x00 and of 0x01 it discards all. -/
theorem discardedBitsDependOnTheFirstByte : Obligations.DiscardedBitsDependOnTheFirstByte := by
  intro b rest
  refine ⟨(discarded_streamBits_cons b rest).trans (discarded_bitsOf b), ?_, ?_⟩
  · rw [List.length_drop, length_streamBits, List.length_cons]
  · rintro rfl
    exact (drop_discarded_of_eq_eight (by decide) rest).trans (drop_discarded_of_eq_eight (by decide) rest).symm

/-- The scan ends at the first 1, if it is among the first 8 bits. -/
theorem discarded_replicate_false {k : Nat} (hk : k < 8) (bits : BitString) :
    discarded (List.replicate k false ++ true :: bits) = k + 1 := by
  have hfind : ((List.replicate k false ++ true :: bits).take 8).findIdx? id = some k := by
    obtain ⟨m, hm⟩ := Nat.exists_eq_add_of_lt hk
    rw [List.take_append, List.take_replicate, List.length_replicate, min_eq_right hk.le,
      show 8 - k = m + 1 by omega, List.take_succ_cons]
    simp [List.findIdx?_append, List.findIdx?_cons]
  rw [discarded, hfind]

/-- Unpadding a padded string gives the string back (R202, R223). -/
theorem drop_discarded_padded (bits : BitString) : (padded bits).drop (discarded (padded bits)) = bits := by
  have hpad := padding_pos bits.length
  rw [padded, discarded_replicate_false (by omega), ← List.drop_drop, List.drop_left' (List.length_replicate ..)]
  rfl

/-! ### The walk (R224) -/

section
variable [Inhabited W] {s : State.Of W} {root cur : BitVec 9} {cap p : Nat} {b : Bool} {path bits : BitString} {out : List Byte}
  {sym : Byte}

/-- One move of the walk, in terms of the nodes of a state. -/
theorem walk_cons (hcur : cur ≠ 0x1FF#9) :
    walk s.node root cap (b :: bits) p cur out =
      if (s.nodeAt cur.toNat).leaf = true ∨ s.child b cur.toNat = 0x1FF#9 then .corrupt out p
      else if (s.nodeAt (s.child b cur.toNat).toNat).leaf = true then
        if out.length = cap then .full out p
        else walk s.node root cap bits (p + 1) root (out ++ [(s.nodeAt (s.child b cur.toNat).toNat).sym])
      else walk s.node root cap bits (p + 1) (s.child b cur.toNat) out := by
  have hcur : cur ≠ Config.nil := hcur
  rw [walk, if_neg hcur, ite_or]
  rfl

/-- A path from an internal node to a leaf: the walk writes the leaf's symbol and is back at the root, or OB is full. -/
theorem walk_path (hcur : cur ≠ 0x1FF#9) (hint : (s.nodeAt cur.toNat).leaf = false) (h : s.leadsTo cur.toNat path sym) :
    walk s.node root cap (path ++ bits) p cur out =
      if out.length = cap then .full out (p + path.length - 1)
      else walk s.node root cap bits (p + path.length) root (out ++ [sym]) := by
  induction path generalizing cur p with
  | nil =>
    obtain ⟨b, path, hpath, -⟩ := (leadsTo_of_internal hint).1 h
    cases hpath
  | cons b path ih =>
    obtain ⟨_, _, hcons, hnil, hdown⟩ := (leadsTo_of_internal hint).1 h
    obtain ⟨rfl, rfl⟩ := List.cons.inj hcons
    rw [List.cons_append, walk_cons hcur, if_neg (by simp [hint, hnil])]
    cases hleaf : (s.nodeAt (s.child b cur.toNat).toNat).leaf with
    | true =>
      obtain ⟨rfl, rfl⟩ := (leadsTo_of_leaf hleaf).1 hdown
      rfl
    | false =>
      rw [if_neg Bool.false_ne_true, ih hnil hleaf hdown, List.length_cons, Nat.add_assoc, Nat.add_comm 1]

/-- A path to an internal node at the end of the payload: the walk ends there. -/
theorem walk_rest {i : Nat} (hcur : cur ≠ 0x1FF#9) (h : s.follow cur.toNat path = some i) (hint : (s.nodeAt i).leaf = false) :
    walk s.node root cap path p cur out = .done out (BitVec.ofNat 9 i) := by
  induction path generalizing cur p with
  | nil =>
    obtain rfl := Option.some.inj h
    rw [BitVec.ofNat_toNat, BitVec.setWidth_eq]
    rfl
  | cons b path ih =>
    obtain ⟨hleaf, hnil, hdown⟩ := follow_cons_eq_some.1 h
    have hchild : (s.nodeAt (s.child b cur.toNat).toNat).leaf = false := by
      cases path with
      | nil => rwa [Option.some.inj hdown]
      | cons b' path => exact (follow_cons_eq_some.1 hdown).1
    rw [walk_cons hcur, if_neg (by simp [hleaf, hnil]), if_neg (by simp [hchild])]
    exact ih hnil hdown

end

/-! ### A payload of paths and a rest (R224, R228) -/

section
variable [Inhabited W] {s : State.Of W} {paths : List BitString} {out : List Byte} {rest : BitString}

/-- There is a tree to walk: ROOT names an internal node. -/
structure State.Of.RootInternal (s : State.Of W) : Prop where
  ne_nil : s.root ≠ 0x1FF#9
  not_leaf : (s.nodeAt s.root.toNat).leaf = false

/-- Every symbol takes at least one bit of the payload. -/
theorem length_le_of_paths (hroot : s.RootInternal) (hpaths : List.Forall₂ s.isPathOf paths out) :
    out.length ≤ paths.flatten.length := by
  induction hpaths with
  | nil => exact Nat.zero_le _
  | @cons path sym paths out hpath _ ih =>
    obtain ⟨b, path, rfl, -⟩ := (leadsTo_of_internal hroot.not_leaf).1 hpath
    simp only [List.flatten_cons, List.length_append, List.length_cons]
    omega

/-- The walk along whole paths whose symbols fit in OB. -/
theorem walk_paths (hroot : s.RootInternal) (hpaths : List.Forall₂ s.isPathOf paths out) {cap : Nat} {front : List Byte}
    (hfit : front.length + out.length ≤ cap) (bits : BitString) (p : Nat) :
    walk s.node s.root cap (paths.flatten ++ bits) p s.root front =
      walk s.node s.root cap bits (p + paths.flatten.length) s.root (front ++ out) := by
  induction hpaths generalizing front p with
  | nil => simp
  | @cons path sym paths out hpath _ ih =>
    rw [List.length_cons] at hfit
    have hroom : front.length ≠ cap := by omega
    have hfit' : (front ++ [sym]).length + out.length ≤ cap := by
      rw [List.length_append, List.length_singleton]
      omega
    rw [List.flatten_cons, List.append_assoc, walk_path hroot.ne_nil hroot.not_leaf hpath, if_neg hroom, ih hfit',
      List.append_assoc, List.singleton_append, List.length_append, Nat.add_assoc]

/-- The walk of a payload that is cut, when the symbols fit (R224, R226). -/
theorem walk_of_fits (hroot : s.RootInternal) (hpaths : List.Forall₂ s.isPathOf paths out) {cap cur : Nat}
    (hrest : s.follow s.root.toNat rest = some cur) (hcur : (s.nodeAt cur).leaf = false) (hfit : out.length ≤ cap) :
    walk s.node s.root cap (paths.flatten ++ rest) 0 s.root [] = .done out (BitVec.ofNat 9 cur) := by
  rw [walk_paths hroot hpaths ((Nat.zero_add _).trans_le hfit)]
  exact walk_rest hroot.ne_nil hrest hcur

/-- The walk of a payload with more paths than OB has room for (R228). -/
theorem walk_of_overflow (hroot : s.RootInternal) (hpaths : List.Forall₂ s.isPathOf paths out) {cap : Nat} (hfull : cap < out.length)
    (rest : BitString) :
    walk s.node s.root cap (paths.flatten ++ rest) 0 s.root [] =
      .full (out.take cap) ((paths.take (cap + 1)).flatten.length - 1) := by
  have hcap : cap < paths.length := hfull.trans_eq hpaths.length_eq.symm
  have hlen : (out.take cap).length = cap := List.length_take_of_le hfull.le
  have hfront := List.forall₂_take cap hpaths
  have hnext : s.isPathOf paths[cap] out[cap] := hpaths.get hcap hfull
  have htaken : (paths.take (cap + 1)).flatten = (paths.take cap).flatten ++ paths[cap] := by
    rw [List.take_succ_eq_append_getElem hcap, List.flatten_append, List.flatten_singleton]
  have hcut : paths.flatten = (paths.take cap).flatten ++ (paths[cap] ++ (paths.drop (cap + 1)).flatten) := by
    rw [← List.flatten_cons, ← List.drop_eq_getElem_cons hcap, ← List.flatten_append, List.take_append_drop]
  rw [hcut, List.append_assoc, List.append_assoc, walk_paths hroot hfront (by simp [hlen]),
    walk_path hroot.ne_nil hroot.not_leaf hnext, List.nil_append, if_pos hlen, htaken, List.length_append, Nat.zero_add]

end

end Sys2Proof.Machine
end

section
/-! PROOFS. What DEC.RUN answers (45_decoder.md R222 to R228): each end of the walk, on a tree the two ends that a cut payload has, and
the state that is left. -/

namespace Sys2Proof.Machine

variable {W : Type} {s : State.Of W}

/-! ### The state DEC.RUN leaves (R222, R226) -/

/-- The state after a walk of the payload to its end, before the response. -/
def State.Of.afterWalk (s : State.Of W) (out : List Byte) (cur : BitVec 9) : State.Of W :=
  s.decoded out (payloadOf s).length (discarded (streamBits s.ibBytes)) cur

section
variable {out : List Byte} {a : Nat} (hfit : out.length ≤ s.obcap.toNat)
include hfit

theorem toNat_olen_afterWalk (cur : BitVec 9) : (s.afterWalk out cur).olen.toNat = out.length := by
  have hmax := s.obcap.isLt
  rw [State.Of.afterWalk, State.Of.decoded_olen, BitVec.toNat_ofNat, Nat.mod_eq_of_lt (by omega)]

variable (hob : Memory.wf unlistedByte s.obcap.toNat s.ob)
include hob

theorem obBytes_afterWalk (cur : BitVec 9) : (s.afterWalk out cur).obBytes = out := by
  rw [State.Of.obBytes, toNat_olen_afterWalk hfit]
  exact Memory.first_writeFrom hob hfit

theorem some_obAt_withDecoded_of_lt (ha : a < out.length) : some ((s.withDecoded out).obAt a) = out[a]? := by
  have hread := Memory.read_writeFrom hob (a := 0) (vs := out) (by omega) a
  simpa [State.Of.obAt, ha] using hread

theorem obAt_withDecoded_of_le (ha : out.length ≤ a) : (s.withDecoded out).obAt a = s.obAt a :=
  (Memory.read_writeFrom hob (by omega) a).trans (if_neg (by omega))

end

theorem toNat_pad_afterWalk (s : State.Of W) (out : List Byte) (cur : BitVec 9) :
    (s.afterWalk out cur).pad.toNat = discarded (streamBits s.ibBytes) := by
  have hdisc := (discarded_bounds (streamBits s.ibBytes)).2
  rw [State.Of.afterWalk, State.Of.decoded_pad, BitVec.toNat_ofNat, Nat.mod_eq_of_lt (by omega)]

/-- R223: the payload is what is not discarded of the 8 * ILEN bits. -/
theorem toNat_nbits_add_pad_afterWalk (hpos : 0 < s.ilen.toNat) (out : List Byte) (cur : BitVec 9) :
    (s.afterWalk out cur).nbits.toNat + (s.afterWalk out cur).pad.toNat = 8 * s.ilen.toNat := by
  have hlen : (payloadOf s).length = 8 * s.ilen.toNat - discarded (streamBits s.ibBytes) := by
    rw [payloadOf, List.length_drop, length_streamBits, length_ibBytes]
  have hdisc := (discarded_bounds (streamBits s.ibBytes)).2
  have hmax := s.ilen.isLt
  rw [toNat_pad_afterWalk, State.Of.afterWalk, State.Of.decoded_nbits, BitVec.toNat_ofNat, Nat.mod_eq_of_lt (by omega)]
  omega

variable [Inhabited W] {wa : WArith W}

/-! ### The ends of DEC.RUN (R222) -/

theorem execDecRun_of_empty (hp : s.phase ∈ [Phase.treed, .coded]) (hempty : s.ilen.toNat = 0) :
    execDecRun s = .next ((s.withDecoded []).enterFault .malformedBitstring 0) := by
  rw [execDecRun, whenLegal_of_legal (i := .decRun) _ (Phase.hasTree_iff.2 hp), if_pos hempty, raise_eq]

/-- Settles O55: without a byte in IB the phase check is the only one before the fault. -/
theorem decRunOnEmptyInputFaults : Obligations.DecRunOnEmptyInputFaults :=
  fun _ hp hempty => execDecRun_of_empty hp (congrArg BitVec.toNat hempty)

/-- What DEC.RUN answers on a loaded IB, from how its walk ends; `execDecRun_of_walk` ties it to the command. -/
def State.Of.walkAnswer (s : State.Of W) : WalkEnd → Result W
  | .done out cur => .next ((s.afterWalk out cur).answer 0x00#8 ((s.afterWalk out cur).olen.setWidth 64))
  | .corrupt out p => .next ((s.withDecoded out).enterFault .corruptStream p)
  | .full out p => .next ((s.withDecoded out).enterFault .capacity p)
  | .noRoot => .fault (.noSuchElement .node s.root.toNat)

theorem execDecRun_of_walk (hp : s.phase ∈ [Phase.treed, .coded]) (hpos : 0 < s.ilen.toNat)
    (hcap : s.ilen.toNat ≤ s.ibcap.toNat) {e : WalkEnd}
    (hwalk : walk s.node s.root s.obcap.toNat (payloadOf s) 0 s.root [] = e) : execDecRun s = s.walkAnswer e := by
  rw [payloadOf] at hwalk
  rw [execDecRun, whenLegal_of_legal (i := .decRun) _ (Phase.hasTree_iff.2 hp), if_neg hpos.ne',
    withElements_of_le (sp := .ib) _ hcap]
  dsimp only
  rw [hwalk]
  cases e with
  | done out cur =>
    rw [State.Of.walkAnswer, ← BitVec.ofNat_toNat]
    rfl
  | corrupt | full | noRoot => rfl

/-- Settles O59: the first move already fails (`walk_cons`), with nothing written. -/
theorem decRunFallingOffTheTreeFaults : Obligations.DecRunFallingOffTheTreeFaults := by
  intro s b bits hrange hp hpos hroot hpayload hfail
  obtain ⟨-, -, -, hcap, -⟩ := hrange
  have hwalk : walk s.node s.root s.obcap.toNat (payloadOf s) 0 s.root [] = .corrupt [] 0 := by
    rw [payloadOf, hpayload, walk_cons hroot]
    exact if_pos hfail
  exact execDecRun_of_walk hp hpos hcap hwalk

/-! ### On a tree (R41(b)) -/

theorem rootInternal_of_tree (hshape : s.listShape) (htree : s.treeOk wa) : s.RootInternal := by
  have hroot := root_lt htree
  obtain ⟨hmin, hmax, -⟩ := hshape
  obtain ⟨hnn, hlast, -, hinternal, -⟩ := htree
  obtain ⟨hleaf, -⟩ := hinternal _ hroot (by omega)
  have hnil : s.root.toNat ≠ 511 := by omega
  exact ⟨fun h => hnil (congrArg BitVec.toNat h), hleaf⟩

/-- R226: the walk is back at ROOT exactly when no bit is left over. -/
theorem midFlag_iff (hlist : s.listOk wa) (htree : s.treeOk wa) {rest : BitString} {cur : Nat}
    (hrest : s.follow s.root.toNat rest = some cur) : midFlag (BitVec.ofNat 9 cur) s.root = true ↔ rest ≠ [] := by
  have hcur := (follow_lt htree (root_lt htree) hrest).trans_le (nnode_le hlist htree)
  have hback : cur = s.root.toNat ↔ rest = [] := by
    refine ⟨fun h => ?_, fun h => ?_⟩
    · exact (existsUnique_path htree (nnode_le hlist htree) (root_lt htree)).unique (h ▸ hrest) rfl
    · rw [h] at hrest
      exact (Option.some.inj hrest).symm
  rw [midFlag, bne_iff_ne, ne_eq, ne_eq, ← hback, ← BitVec.toNat_inj, BitVec.toNat_ofNat, Nat.mod_eq_of_lt (by omega)]

/-- R228: ERRINFO is the position of the last bit of the first path that does not fit; it is not cut. -/
theorem toNat_errinfo_of_overflow (hroot : s.RootInternal) (hpos : 0 < s.ilen.toNat) {paths : List BitString} {out : List Byte}
    {rest : BitString} (hpaths : List.Forall₂ s.isPathOf paths out) (hpayload : payloadOf s = paths.flatten ++ rest) {n : Nat}
    (hn : n < out.length) :
    (BitVec.ofNat 32 ((paths.take (n + 1)).flatten.length - 1)).toNat + 1 = (paths.take (n + 1)).flatten.length := by
  have hlower := length_le_of_paths hroot (List.forall₂_take (n + 1) hpaths)
  rw [List.length_take_of_le hn] at hlower
  have hupper : (paths.take (n + 1)).flatten.length ≤ (payloadOf s).length := by
    rw [hpayload, List.length_append]
    exact ((List.take_sublist _ paths).flatten.length_le).trans (Nat.le_add_right _ _)
  have hlt := length_payloadOf_lt hpos
  have hmax := s.ilen.isLt
  rw [BitVec.toNat_ofNat, Nat.mod_eq_of_lt (by omega)]
  omega

/-- Settles O57: `walk_of_fits` and `walk_of_overflow` say how the walk ends. -/
theorem decRunWalksThePayload : Obligations.DecRunWalksThePayload := by
  rintro s paths out rest cur ⟨⟨-, hob, -⟩, ⟨-, -, -, hcap, -⟩, hpipe⟩ hp hpos hpaths hrest hcur hpayload
  have hpayload : payloadOf s = paths.flatten ++ rest := hpayload
  obtain ⟨hlist, htree, -⟩ := tree_of_hasTree hpipe hp
  have hroot := rootInternal_of_tree hlist.1 htree
  refine ⟨fun hfit => ?_, fun hfull => ?_⟩
  · have hwalk := walk_of_fits hroot hpaths hrest hcur hfit
    rw [← hpayload] at hwalk
    have holen := toNat_olen_afterWalk hfit (BitVec.ofNat 9 cur)
    have hbytes := obBytes_afterWalk hfit hob (BitVec.ofNat 9 cur)
    have hpad := toNat_pad_afterWalk s out (BitVec.ofNat 9 cur)
    have hbits := toNat_nbits_add_pad_afterWalk hpos out (BitVec.ofNat 9 cur)
    exact ⟨_, execDecRun_of_walk hp hpos hcap hwalk, rfl, holen, hbytes, hpad, hbits, midFlag_iff hlist htree hrest,
      fun _ ha => obAt_withDecoded_of_le hfit hob (holen.symm.trans_le ha)⟩
  · have hwalk := walk_of_overflow hroot hpaths hfull rest
    rw [← hpayload] at hwalk
    have hlen : (out.take s.obcap.toNat).length = s.obcap.toNat := List.length_take_of_le hfull.le
    have hinfo := toNat_errinfo_of_overflow hroot hpos hpaths hpayload hfull
    refine ⟨_, execDecRun_of_walk hp hpos hcap hwalk, rfl, hinfo, fun a ha => ?_, fun a ha => ?_⟩
    · exact (some_obAt_withDecoded_of_lt hlen.le hob (ha.trans_eq hlen.symm)).trans (List.getElem?_take_of_lt ha)
    · exact obAt_withDecoded_of_le hlen.le hob (hlen.trans_le ha)

end Sys2Proof.Machine
end

section
/-! PROOFS. Every bit string is cut into paths and a rest in exactly one way (45_decoder.md R225, 10_state.md R41(b)): a leaf ends a
path, and an internal node has both children. -/

namespace Sys2Proof.Machine

variable {W : Type} [Inhabited W] {wa : WArith W} {s : State.Of W}

/-- The bits lead from ROOT to an internal node. -/
def State.Of.stopsInside (s : State.Of W) (rest : BitString) : Prop :=
  ∃ cur, s.follow s.root.toNat rest = some cur ∧ (s.nodeAt cur).leaf = false

/-- A payload cut into paths to leaves, with their symbols, and an unfinished rest. -/
structure State.Of.Cut (s : State.Of W) (payload : BitString) (paths : List BitString) (out : List Byte) (rest : BitString) :
    Prop where
  paths_out : List.Forall₂ s.isPathOf paths out
  rest_inside : s.stopsInside rest
  payload_eq : payload = paths.flatten ++ rest

/-! ### One cut at most: no path goes on past a leaf -/

theorem eq_of_path_prefix {xs ys : BitString} {a b : Byte} (hx : s.isPathOf xs a) (hy : s.isPathOf ys b) (h : xs <+: ys) :
    xs = ys ∧ a = b := by
  obtain ⟨i, hi, hleaf, rfl⟩ := hx
  obtain ⟨j, hj, -, rfl⟩ := hy
  obtain ⟨more, rfl⟩ := h
  rw [follow_append, hi, Option.bind_some] at hj
  obtain rfl := eq_of_follow_leaf hleaf hj
  cases more with
  | nil => exact ⟨(List.append_nil xs).symm, rfl⟩
  | cons b more => simp [follow_cons, hleaf] at hj

theorem not_path_prefix_of_stopsInside {path rest : BitString} {sym : Byte} (hpath : s.isPathOf path sym)
    (hrest : s.stopsInside rest) : ¬ path <+: rest := by
  rintro ⟨more, rfl⟩
  obtain ⟨i, hi, hleaf, -⟩ := hpath
  obtain ⟨j, hj, hint⟩ := hrest
  rw [follow_append, hi, Option.bind_some] at hj
  obtain rfl := eq_of_follow_leaf hleaf hj
  simp [hleaf] at hint

theorem prefix_flatten_cons_append (path : BitString) (paths : List BitString) (rest : BitString) :
    path <+: (path :: paths).flatten ++ rest := ⟨paths.flatten ++ rest, (List.append_assoc ..).symm⟩

theorem State.Of.Cut.unique {payload rest rest' : BitString} {paths paths' : List BitString} {out out' : List Byte}
    (h : s.Cut payload paths out rest) (h' : s.Cut payload paths' out' rest') : paths = paths' ∧ out = out' ∧ rest = rest' := by
  obtain ⟨hpaths, hrest, rfl⟩ := h
  obtain ⟨hpaths', hrest', heq⟩ := h'
  induction hpaths generalizing paths' out' with
  | nil =>
    cases hpaths' with
    | nil => exact ⟨rfl, rfl, heq⟩
    | @cons path' _ paths' _ hpath' _ =>
      have hpre := prefix_flatten_cons_append path' paths' rest'
      rw [← heq] at hpre
      exact absurd hpre (not_path_prefix_of_stopsInside hpath' hrest)
  | @cons path sym paths out hpath _ ih =>
    cases hpaths' with
    | nil =>
      have hpre := prefix_flatten_cons_append path paths rest
      rw [heq] at hpre
      exact absurd hpre (not_path_prefix_of_stopsInside hpath hrest')
    | @cons path' sym' paths' out' hpath' hpaths' =>
      have hpre := prefix_flatten_cons_append path paths rest
      have hpre' := prefix_flatten_cons_append path' paths' rest'
      obtain ⟨rfl, rfl⟩ : path = path' ∧ sym = sym' := by
        obtain h | h := List.prefix_or_prefix_of_prefix hpre (heq ▸ hpre')
        · exact eq_of_path_prefix hpath hpath' h
        · obtain ⟨hp, hs⟩ := eq_of_path_prefix hpath' hpath h
          exact ⟨hp.symm, hs.symm⟩
      rw [List.flatten_cons, List.flatten_cons, List.append_assoc, List.append_assoc] at heq
      obtain ⟨rfl, rfl, rfl⟩ := ih hpaths' (List.append_cancel_left heq)
      exact ⟨rfl, rfl, rfl⟩

/-! ### One cut at least: an internal node has both children -/

theorem child_ne_nil_of_not_leaf (hlist : s.listOk wa) (htree : s.treeOk wa) {i : Nat} (hi : i < s.nnode.toNat)
    (hleaf : (s.nodeAt i).leaf = false) (b : Bool) : s.child b i ≠ 0x1FF#9 := by
  intro hnil
  have hlt := (child_lt_of_not_leaf htree hi hleaf b).trans (hi.trans_le (nnode_le hlist htree))
  simp [hnil] at hlt

/-- By induction on the payload from its end: one more bit goes to a child, which is a leaf and ends a path, or is internal. -/
theorem exists_cut (hlist : s.listOk wa) (htree : s.treeOk wa) (payload : BitString) :
    ∃ paths out rest, s.Cut payload paths out rest := by
  have hroot : s.stopsInside [] := ⟨_, rfl, (rootInternal_of_tree hlist.1 htree).not_leaf⟩
  induction payload using List.reverseRecOn with
  | nil => exact ⟨[], [], [], .nil, hroot, rfl⟩
  | append_singleton payload b ih =>
    obtain ⟨paths, out, rest, hpaths, ⟨cur, hcur, hint⟩, rfl⟩ := ih
    have hnil := child_ne_nil_of_not_leaf hlist htree (follow_lt htree (root_lt htree) hcur) hint b
    have hmove : s.follow s.root.toNat (rest ++ [b]) = some (s.child b cur).toNat :=
      follow_concat_eq_some.2 ⟨cur, hcur, hint, hnil, rfl⟩
    cases hleaf : (s.nodeAt (s.child b cur).toNat).leaf with
    | true =>
      refine ⟨paths ++ [rest ++ [b]], out ++ [(s.nodeAt (s.child b cur).toNat).sym], [], ?_, hroot, by simp⟩
      exact List.rel_append hpaths (.cons ⟨_, hmove, hleaf, rfl⟩ .nil)
    | false => exact ⟨paths, out, rest ++ [b], hpaths, ⟨_, hmove, hleaf⟩, List.append_assoc ..⟩

/-! ### DEC.RUN always answers (R225) -/

theorem exists_execDecRun (hlist : s.listOk wa) (htree : s.treeOk wa) (hp : s.phase ∈ [Phase.treed, .coded])
    (hcap : s.ilen.toNat ≤ s.ibcap.toNat) :
    ∃ t, execDecRun s = .next t ∧ ∀ d, t.rsp ≠ some ⟨0x04#8, d⟩ := by
  obtain hempty | hpos := Nat.eq_zero_or_pos s.ilen.toNat
  · exact ⟨_, execDecRun_of_empty hp hempty, fun d => by simp [FaultKind.number]⟩
  · have hroot := rootInternal_of_tree hlist.1 htree
    obtain ⟨paths, out, rest, hpaths, ⟨cur, hcur, hint⟩, hpayload⟩ := exists_cut hlist htree (payloadOf s)
    obtain hfit | hfull := le_or_gt out.length s.obcap.toNat
    · have hwalk := walk_of_fits hroot hpaths hcur hint hfit
      rw [← hpayload] at hwalk
      exact ⟨_, execDecRun_of_walk hp hpos hcap hwalk, fun d => by simp⟩
    · have hwalk := walk_of_overflow hroot hpaths hfull rest
      rw [← hpayload] at hwalk
      exact ⟨_, execDecRun_of_walk hp hpos hcap hwalk, fun d => by simp [FaultKind.number]⟩

/-- Settles O58: there is a cut (`exists_cut`), no other (`State.Of.Cut.unique`), and the walk of a cut payload
does not fall off the tree. -/
theorem everyPayloadCanBeWalked : Obligations.EveryPayloadCanBeWalked := by
  rintro s ⟨-, ⟨-, -, -, hcap, -⟩, hpipe⟩ hp
  obtain ⟨hlist, htree, -⟩ := tree_of_hasTree hpipe hp
  refine ⟨fun payload => ?_, exists_execDecRun hlist htree hp hcap⟩
  obtain ⟨paths, out, rest, hcut⟩ := exists_cut hlist htree payload
  refine ⟨(paths, out, rest), ⟨hcut.paths_out, hcut.rest_inside, hcut.payload_eq⟩, ?_⟩
  rintro ⟨paths', out', rest'⟩ ⟨hpaths', hrest', hpayload'⟩
  have hcut' : s.Cut payload paths' out' rest' := ⟨hpaths', hrest', hpayload'⟩
  obtain ⟨rfl, rfl, rfl⟩ := hcut'.unique hcut
  rfl

end Sys2Proof.Machine
end

section
/-! PROOFS. The round trip (45_decoder.md R229): loading puts a stream in IB, FA.RUN to CG.RUN give every symbol of it a path in the
tree as its code, BP.RUN packs the codes, and DEC.RUN walks them back. -/

namespace Sys2Proof.Machine

variable {W : Type} [Inhabited W] [DecidableEq W] {wa : WArith W} {s t u : State.Of W}

/-! ### Runs of commands -/

theorem runOk_cons (i : Instr) (h : execWith wa i s = .next t) (hok : t.answeredOk = true) (is : List Instr) :
    runOk wa (i :: is) s = runOk wa is t := by
  simp [runOk, h, hok]

theorem runOk_append (wa : WArith W) (is js : List Instr) (s : State.Of W) :
    runOk wa (is ++ js) s = (runOk wa is s).bind (runOk wa js) := by
  induction is generalizing s with
  | nil => rfl
  | cons i is ih =>
    rw [List.cons_append, runOk, runOk]
    split
    · split
      · exact ih _
      · rfl
    · rfl
    · rfl

/-- What every command keeps, a run keeps. -/
theorem runOk_keeps {P : State.Of W → Prop} (hP : ∀ i s t, Effect wa s i t → P s → P t) {is : List Instr} (hs : P s)
    (h : runOk wa is s = some t) : P t := by
  induction is generalizing s with
  | nil => exact Option.some.inj h ▸ hs
  | cons i is ih =>
    rw [runOk] at h
    split at h
    · split at h
      · exact ih (hP _ _ _ (effect_of_execWith ‹_›) hs) h
      · cases h
    · cases h
    · cases h

theorem Effect.capacities {i : Instr} (he : Effect wa s i t) : t.ibcap = s.ibcap ∧ t.obcap = s.obcap := by
  cases he <;> exact ⟨rfl, rfl⟩

/-- What `s` has and every run from it keeps: canonical memories, registers in range, and the capacities. -/
structure Sound (s t : State.Of W) : Prop where
  canonical : t.canonical
  inRange : t.inRange
  ibcap_eq : t.ibcap = s.ibcap
  obcap_eq : t.obcap = s.obcap

theorem Sound.of_runOk {is : List Instr} (hs : Sound s t) (h : runOk wa is t = some u) : Sound s u :=
  runOk_keeps (P := Sound s) (fun _ _ _ he hs =>
    have ⟨hib, hob⟩ := he.capacities
    ⟨he.canonical hs.canonical, he.inRange hs.inRange, hib.trans hs.ibcap_eq, hob.trans hs.obcap_eq⟩) hs h

omit [DecidableEq W] in
theorem Sound.ilen_le (hs : Sound s t) : t.ilen.toNat ≤ t.ibcap.toNat := by
  obtain ⟨-, -, -, hilen, -⟩ := hs.inRange
  exact hilen

/-! ### IB.LOAD (R87) -/

/-- `t` is `s` after a load: IB holds the bytes, and nothing else but ILEN and the response differs. -/
structure Loaded (s : State.Of W) (bytes : List Byte) (t : State.Of W) : Prop where
  frame : t = { s with ib := t.ib, ilen := t.ilen, rsp := t.rsp }
  ibBytes_eq : t.ibBytes = bytes

section
variable {bytes : List Byte} (h : Loaded s bytes t)
include h

omit [Inhabited W] [DecidableEq W]

theorem Loaded.phase_eq : t.phase = s.phase := by rw [h.frame]
theorem Loaded.node_eq : t.node = s.node := by rw [h.frame]
theorem Loaded.root_eq : t.root = s.root := by rw [h.frame]

end

omit [Inhabited W] [DecidableEq W] in
theorem ibBytes_pushed {n : Nat} (hwf : Memory.wf unlistedByte n s.ib) (b : Byte) (hroom : s.ilen.toNat < s.ibcap.toNat) :
    (s.pushed b).ibBytes = s.ibBytes ++ [b] := by
  have hold : (List.range s.ilen.toNat).map (s.pushed b).ibAt = (List.range s.ilen.toNat).map s.ibAt :=
    List.map_congr_left fun a ha => (ibAt_pushed hwf b a).trans (if_neg (List.mem_range.1 ha).ne)
  have hnew : (s.pushed b).ibAt s.ilen.toNat = b := (ibAt_pushed hwf b _).trans (if_pos rfl)
  rw [State.Of.ibBytes, toNat_ilen_pushed b hroom, Memory.first, List.range_succ, List.map_append]
  exact congrArg₂ (· ++ [·]) hold hnew

/-- Pushing bytes for which there is room appends them to what is in IB. -/
theorem exists_runOk_pushes (wa : WArith W) (bytes : List Byte) (hwf : Memory.wf unlistedByte s.ibcap.toNat s.ib)
    (hp : s.phase ≠ .fault) (hroom : s.ilen.toNat + bytes.length ≤ s.ibcap.toNat) :
    ∃ t, runOk wa (bytes.map .ibPush) s = some t ∧ Loaded s (s.ibBytes ++ bytes) t := by
  induction bytes generalizing s with
  | nil => exact ⟨s, rfl, rfl, (List.append_nil _).symm⟩
  | cons b bytes ih =>
    rw [List.length_cons] at hroom
    have hroom' : s.ilen.toNat < s.ibcap.toNat := by omega
    have hilen := toNat_ilen_pushed b hroom'
    obtain ⟨t, hrun, hframe, hbytes⟩ := ih (s := (s.pushed b).answer 0x00#8 ((s.pushed b).ilen.setWidth 64))
      (Memory.write_wf hwf hroom' b) hp (by rw [State.Of.answer_ilen, hilen, State.Of.answer_ibcap, State.Of.pushed_ibcap]; omega)
    refine ⟨t, ?_, hframe, ?_⟩
    · rw [List.map_cons, runOk_cons (.ibPush b) (execIbPush_of_lt b hp hroom') rfl, hrun]
    · rw [hbytes, State.Of.ibBytes_answer, ibBytes_pushed hwf b hroom', List.append_assoc, List.singleton_append]

theorem exists_runOk_load (wa : WArith W) {bytes : List Byte} (hwf : Memory.wf unlistedByte s.ibcap.toNat s.ib)
    (hp : s.phase ≠ .fault) (hroom : bytes.length ≤ s.ibcap.toNat) :
    ∃ t, runOk wa (loadCommands bytes) s = some t ∧ Loaded s bytes t := by
  obtain ⟨t, hrun, hframe, hbytes⟩ := exists_runOk_pushes (s := ({ s with ilen := 0#25 } : State.Of W).answer 0x00#8 0#64) wa bytes
    hwf hp ((Nat.zero_add _).trans_le hroom)
  exact ⟨t, (runOk_cons .ibClr (execIbClr_of_ne_fault hp) rfl _).trans hrun, hframe, hbytes⟩

/-! ### FA.RUN, TB.RUN and CG.RUN give every symbol a path -/

/-- What the decoder needs of the state in which a stream was encoded: every symbol of it has the path to its leaf as its code. -/
structure Encodes (wa : WArith W) (x : List Byte) (t : State.Of W) : Prop where
  phase_eq : t.phase = .coded
  shape : t.listShape
  tree : t.treeOk wa
  codes : t.codesOk
  listed : ∀ b ∈ x, b ∈ t.sflList.map (·.sym)
  ibBytes_eq : t.ibBytes = x

omit [Inhabited W] [DecidableEq W] in
theorem subset_withSynthetic (wa : WArith W) (es : List (Entry.Of W)) : es ⊆ withSynthetic wa es := by
  match es with
  | [] => exact List.Subset.refl _
  | [e] => exact List.subset_append_left [e] _
  | e :: e' :: es => exact List.Subset.refl _

omit [Inhabited W] [DecidableEq W] in
/-- Every symbol of the stream is in the list of FA.RUN. -/
theorem mem_syms_analyzedList (wa : WArith W) {b : Byte} (hb : b ∈ s.ibBytes) : b ∈ (s.analyzedList wa).map (·.sym) := by
  have hmem : ⟨b, wa.wdiv (s.ibBytes.count b) s.ilen.toNat⟩ ∈ talliedEntries wa (tally [] s.ibBytes) s.ilen.toNat := by
    rw [mem_talliedEntries, toNat_read_tally_ibBytes]
    exact ⟨List.count_pos_iff.2 hb, rfl⟩
  exact List.mem_map.2 ⟨_, (perm_sortEntries wa _).mem_iff.2 (subset_withSynthetic wa _ hmem), rfl⟩

/-- With a list that has every symbol of IB, TB.RUN and CG.RUN complete and give every symbol of IB a code. -/
theorem exists_runOk_tbRun_cgRun (wa : WArith W) (hnode : Memory.wf unlistedNode Config.nodeMax s.node)
    (hp : s.phase ∈ [Phase.listed, .treed, .coded]) (hshape : s.listShape)
    (hlisted : ∀ b ∈ s.ibBytes, b ∈ s.sflList.map (·.sym)) :
    ∃ t, runOk wa [.tbRun, .cgRun] s = some t ∧ Encodes wa s.ibBytes t := by
  have ⟨hmin, hmax, _⟩ := hshape
  obtain ⟨q, hq, hfin, hforest⟩ := mergeAll_sflList wa s hmin hmax
  have htree := treeOk_treeBuilt hfin (hforest hnode) hmin hmax
  obtain ⟨code, hvisit⟩ := exists_visit_root (s := s.treeBuilt q) hmax htree
  have hcodes := codesOk_codesWritten_of_listShape (s := s.treeBuilt q) hshape htree hvisit
  have htb := execTbRunWith_of_ok hp hmax hq
  have hcg := execCgRun_of_visit (s := (s.treeBuilt q).answer 0x00#8 ((s.treeBuilt q).root.setWidth 64))
    (List.mem_cons_self ..) hvisit
  refine ⟨({ s.treeBuilt q with code := code, phase := .coded } : State.Of W).answer 0x00#8 (s.nsfl.setWidth 64), ?_,
    rfl, hshape, htree, codesOk_of_eq hcodes rfl rfl rfl rfl rfl, hlisted, rfl⟩
  rw [runOk_cons .tbRun htb rfl]
  exact runOk_cons .cgRun hcg rfl []

/-- From a loaded IB the three commands complete, whatever the weight arithmetic. -/
theorem exists_runOk_encode (wa : WArith W) (hs : s.canonical) (hp : s.phase ≠ .fault) (hpos : 0 < s.ilen.toNat)
    (hcap : s.ilen.toNat ≤ s.ibcap.toNat) :
    ∃ t, runOk wa [.faRun, .tbRun, .cgRun] s = some t ∧ Encodes wa s.ibBytes t := by
  obtain ⟨-, -, -, hsfl, hnode, -⟩ := hs
  have hlist := sflList_analyzed wa hsfl hpos
  have hlen := length_analyzedList wa s hpos
  rw [← toNat_nsfl_analyzed wa hpos] at hlen
  obtain ⟨hmin, hmax⟩ := hlen
  have hshape : (s.discardList.analyzed wa).listShape := ⟨hmin, hmax, hlist ▸ nodup_syms_analyzedList wa s⟩
  have hlisted : ∀ b ∈ s.ibBytes, b ∈ (s.discardList.analyzed wa).sflList.map (·.sym) :=
    fun b hb => hlist ▸ mem_syms_analyzedList wa hb
  rw [runOk_cons .faRun (execFaRunWith_of_loaded wa hp hpos hcap) rfl]
  exact exists_runOk_tbRun_cgRun wa hnode (List.mem_cons_self ..) hshape hlisted

/-! ### BP.RUN and DEC.RUN -/

section
variable {x : List Byte} (henc : Encodes wa x t)
include henc

omit [DecidableEq W] in
theorem Encodes.isPathOf {b : Byte} (hb : b ∈ x) : t.isPathOf (t.codeAt b) b := by
  have hmem := henc.listed b hb
  rw [map_sym_sflList] at hmem
  obtain ⟨i, hi, rfl⟩ := List.mem_map.1 hmem
  have hi := List.mem_range.1 hi
  obtain ⟨hcodes, -⟩ := henc.codes
  exact ⟨i, hcodes i hi, by rw [nodeAt_leaf henc.tree hi], by rw [nodeAt_leaf henc.tree hi]⟩

omit [DecidableEq W] in
theorem Encodes.rootInternal : t.RootInternal := rootInternal_of_tree henc.shape henc.tree

omit [DecidableEq W] in
theorem Encodes.length_code_pos {b : Byte} (hb : b ∈ x) : 0 < (t.codeAt b).length := by
  obtain ⟨_, _, hcode, -⟩ := (leadsTo_of_internal henc.rootInternal.not_leaf).1 (henc.isPathOf hb)
  simp [hcode]

/-- BP.RUN packs the codes of the stream. -/
theorem Encodes.runOk_bpRun (hcap : t.ilen.toNat ≤ t.ibcap.toNat) (hfit : (x.flatMap t.codeAt).length < 8 * t.obcap.toNat) :
    ∃ d, runOk wa [.bpRun] t = some ((t.noOutput.packed (x.flatMap t.codeAt)).answer 0x00#8 d) := by
  obtain rfl := henc.ibBytes_eq
  have hloop := concatCodes_ibBytes (fun b hb => henc.length_code_pos hb) hfit
  exact ⟨_, runOk_cons .bpRun (execBpRun_of_bits henc.phase_eq hcap hloop hfit) rfl []⟩

omit [DecidableEq W] in
/-- The walk of the codes, with the same tree, gives the stream back and ends at ROOT. -/
theorem Encodes.walk_codes {cap : Nat} (hfit : x.length ≤ cap) :
    walk t.node t.root cap (x.flatMap t.codeAt) 0 t.root [] = .done x t.root := by
  have hpaths : List.Forall₂ t.isPathOf (x.map t.codeAt) x :=
    List.forall₂_map_left_iff.2 (List.forall₂_same.2 fun b hb => henc.isPathOf hb)
  have hwalk := walk_of_fits henc.rootInternal hpaths (rest := []) rfl henc.rootInternal.not_leaf hfit
  rwa [List.append_nil, ← List.flatMap_def, BitVec.ofNat_toNat, BitVec.setWidth_eq] at hwalk

end

omit [Inhabited W] [DecidableEq W] in
theorem payloadOf_of_padded {bits : BitString} (h : s.ibBytes = groupBytes (padded bits)) : payloadOf s = bits := by
  rw [payloadOf, h, streamBits_groupBytes_padded, drop_discarded_padded]

omit [DecidableEq W] in
/-- With the same tree in NODE and the packed codes in IB, DEC.RUN gives the stream back. -/
theorem Encodes.exists_execDecRun {x : List Byte} (henc : Encodes wa x t) (hnode : u.node = t.node) (hroot : u.root = t.root)
    (hp : u.phase = t.phase) (hcap : u.ilen.toNat ≤ u.ibcap.toNat) (hob : Memory.wf unlistedByte u.obcap.toNat u.ob)
    (hbytes : u.ibBytes = groupBytes (padded (x.flatMap t.codeAt))) (hfit : x.length ≤ u.obcap.toNat) :
    ∃ v, execDecRun u = .next v ∧ v.answeredOk = true ∧ v.obBytes = x ∧ v.olen.toNat = x.length ∧ v.mid = false := by
  have hp : u.phase ∈ [Phase.treed, .coded] := by simp [hp, henc.phase_eq]
  have hpos : 0 < u.ilen.toNat := by
    rw [← length_ibBytes, hbytes, length_groupBytes_padded]
    exact Nat.succ_pos _
  have hwalk : walk u.node u.root u.obcap.toNat (payloadOf u) 0 u.root [] = .done x u.root := by
    rw [hnode, hroot, payloadOf_of_padded hbytes]
    exact henc.walk_codes hfit
  refine ⟨_, execDecRun_of_walk hp hpos hcap hwalk, rfl, ?_, ?_, ?_⟩
  · exact obBytes_afterWalk hfit hob u.root
  · exact toNat_olen_afterWalk hfit u.root
  · exact bne_self_eq_false u.root

/-- Settles O60: what is loaded back is the padded codes, whose payload is walked from ROOT to the leaf of each symbol in turn. -/
theorem decodingAnEncodedStreamGivesItBack : Obligations.DecodingAnEncodedStreamGivesItBack := by
  intro W _ _ wa s x hcan hrange hp hpos hxcap
  have ⟨hib, _⟩ := hcan
  obtain ⟨s', hload, hloaded⟩ := exists_runOk_load wa hib hp hxcap
  have hs' : Sound s s' := Sound.of_runOk ⟨hcan, hrange, rfl, rfl⟩ hload
  obtain rfl := hloaded.ibBytes_eq
  rw [length_ibBytes] at hpos
  obtain ⟨t, hencode, henc⟩ := exists_runOk_encode wa hs'.canonical (hloaded.phase_eq ▸ hp) hpos hs'.ilen_le
  have ht := hs'.of_runOk hencode
  refine ⟨t, by rw [runOk_append, hload]; exact hencode, fun hbits => ?_⟩
  rw [← ht.obcap_eq] at hbits
  obtain ⟨d, hpack⟩ := henc.runOk_bpRun ht.ilen_le hbits
  have hu := ht.of_runOk hpack
  refine ⟨_, hpack, fun hroom hfit => ?_⟩
  obtain ⟨-, hob, -⟩ := ht.canonical
  have hpacked := obBytes_packed (s := t.noOutput) hbits hob
  obtain ⟨hib', -⟩ := hu.canonical
  obtain ⟨u, hreload, hreloaded⟩ := exists_runOk_load wa hib' (by simp [henc.phase_eq]) (hu.ibcap_eq ▸ hroom)
  have hu' := hu.of_runOk hreload
  obtain ⟨-, hob', -⟩ := hu'.canonical
  obtain ⟨v, hdec, hok, hv⟩ := henc.exists_execDecRun hreloaded.node_eq hreloaded.root_eq hreloaded.phase_eq hu'.ilen_le hob'
    (hreloaded.ibBytes_eq.trans hpacked) (hu'.obcap_eq ▸ hfit)
  exact ⟨v, by rw [runOk_append, hreload]; exact runOk_cons .decRun hdec hok [], hv⟩

end Sys2Proof.Machine
end

section
/-! PROOFS. The exceptions (60_exceptions.md): a rejected command has no effect (R260), what a fault records and clears and which
command raises which (R251, R262), and in FAULT only CLR has an effect (R263). -/

namespace Sys2Proof.Machine

variable {W : Type}

/-! ### A rejected command has no effect (R260) -/

/-- The one effect that answers a rejection leaves the state as it is, and its data is 0 (R79). -/
theorem Effect.eq_answer_of_answeredRejection [Inhabited W] [DecidableEq W] {wa : WArith W} {i : Instr} {s t : State.Of W}
    (he : Effect wa s i t) (hr : t.answeredRejection = true) : ∃ code, t = s.answer code 0#64 := by
  cases he with
  | rejected i r => exact ⟨_, rfl⟩
  | answered | cleared | inputCleared | pushed | analyzed | treeBuilt | codesWritten | packed | decoded =>
    simp only [answeredRejection_ok, Bool.false_eq_true] at hr
  | emptyInput | treeFailed | packFault | decodeFault =>
    simp only [answeredRejection_enterFault, Bool.false_eq_true] at hr

theorem exec_of_answeredRejection {i : Instr} {s t : State} (h : exec i s = .next t) (hr : t.answeredRejection = true) :
    t = { s with rsp := t.rsp } ∧ ∃ code, t.rsp = some ⟨code, 0#64⟩ := by
  obtain ⟨code, rfl⟩ := (effect_of_exec h).eq_answer_of_answeredRejection hr
  exact ⟨rfl, code, rfl⟩

/-- Settles O12: the word on the port is a command, or it is illegal and rejected with the state as it is. -/
theorem rejectedCommandChangesNothing : Obligations.RejectedCommandChangesNothing := by
  refine ⟨fun s t w rest hport h hr => ?_, fun i s t h hr => exec_of_answeredRejection h hr⟩
  cases hdec : decode w with
  | ok i =>
    have hexec : exec i { s with port := rest } = .next t := (stepBy_of_command exec hport hdec).symm.trans h
    exact exec_of_answeredRejection hexec hr
  | error e =>
    obtain rfl := next_inj.1 ((stepBy_of_illegal exec hport hdec).symm.trans h)
    exact ⟨rfl, _, rfl⟩

/-! ### Taking a fault (R251, R262) -/

/-- The table of R251: which command raises which fault, with information value 0 where the table fixes it. -/
inductive Raises : Instr → FaultKind → Nat → Prop
  | emptyInput : Raises .faRun .emptyInput 0
  | invalidTreeState : Raises .tbRun .invalidTreeState 0
  | unencodableSymbol (info : Nat) : Raises .bpRun .unencodableSymbol info
  | packedTooLong (j : Nat) : Raises .bpRun .capacity j
  | corruptStream (p : Nat) : Raises .decRun .corruptStream p
  | malformedBitstring : Raises .decRun .malformedBitstring 0
  | decodedTooLong (p : Nat) : Raises .decRun .capacity p

/-- The codes and the information values of R251's table, as they stand in a response. -/
theorem Raises.response {i : Instr} {f : FaultKind} {info : Nat} (hf : Raises i f info) :
    i = .faRun ∧ f.number = 0x01#8 ∧ (BitVec.ofNat 32 info).setWidth 64 = 0#64 ∨
      i = .tbRun ∧ f.number = 0x02#8 ∧ (BitVec.ofNat 32 info).setWidth 64 = 0#64 ∨
      i = .bpRun ∧ (f.number = 0x03#8 ∨ f.number = 0x06#8) ∨
      i = .decRun ∧
        (f.number = 0x04#8 ∨ f.number = 0x05#8 ∧ (BitVec.ofNat 32 info).setWidth 64 = 0#64 ∨ f.number = 0x06#8) := by
  cases hf <;> simp [FaultKind.number]

/-- `t` is a state after the fault entry of R262, for a fault that R251 gives to the command. -/
def EntersFault (i : Instr) (t : State.Of W) : Prop :=
  ∃ (u : State.Of W) (f : FaultKind) (info : Nat), Raises i f info ∧ t = u.enterFault f info

theorem entersFault_of_execBpRun {s t : State.Of W} (h : execBpRun s = .next t) (hf : t.answeredFault = true) :
    EntersFault .bpRun t := by
  obtain ⟨-, rfl⟩ | ⟨-, -, ⟨j, sym, -, rfl⟩ | ⟨j, -, rfl⟩ | ⟨bits, -, -, rfl⟩⟩ := execBpRun_next h
  · cases (answeredFault_reject s .sequenceError 0#64).symm.trans hf
  · exact ⟨_, _, _, .unencodableSymbol _, rfl⟩
  · exact ⟨_, _, _, .packedTooLong _, rfl⟩
  · simp at hf

theorem entersFault_of_execDecRun [Inhabited W] {s t : State.Of W} (h : execDecRun s = .next t) (hf : t.answeredFault = true) :
    EntersFault .decRun t := by
  obtain ⟨-, rfl⟩ | ⟨-, -, rfl⟩ | ⟨-, -, -, ⟨out, cur, -, rfl⟩ | ⟨out, p, -, rfl⟩ | ⟨out, p, -, rfl⟩⟩ := execDecRun_next h
  · cases (answeredFault_reject s .sequenceError 0#64).symm.trans hf
  · exact ⟨_, _, _, .malformedBitstring, rfl⟩
  · simp at hf
  · exact ⟨_, _, _, .corruptStream p, rfl⟩
  · exact ⟨_, _, _, .decodedTooLong p, rfl⟩

/-- A command whose response is a fault was not in FAULT, and has entered a fault of the table. -/
theorem entersFault_of_execWith [Inhabited W] [DecidableEq W] {wa : WArith W} {i : Instr} {s t : State.Of W}
    (h : execWith wa i s = .next t) (hf : t.answeredFault = true) : s.phase ≠ .fault ∧ EntersFault i t := by
  cases effect_of_execWith h with
  | rejected | answered | cleared | inputCleared | pushed | analyzed | treeBuilt | codesWritten | packed | decoded =>
    simp at hf
  | emptyInput hp => exact ⟨hp, _, _, _, .emptyInput, rfl⟩
  | treeFailed q hp => exact ⟨ne_fault_of_hasList hp, _, _, _, .invalidTreeState, rfl⟩
  | packFault f info hp => exact ⟨by simp [hp], entersFault_of_execBpRun h hf⟩
  | decodeFault out f info hp => exact ⟨ne_fault_of_hasTree hp, entersFault_of_execDecRun h hf⟩

/-- Settles O14: every fault is a fault of R251's table, and the fault entry writes what R262 says. -/
theorem faultEntryRecordsAndClears : Obligations.FaultEntryRecordsAndClears := by
  intro i s t r h hr hf
  obtain ⟨hp, u, f, info, hraises, rfl⟩ := entersFault_of_execWith ((execWith_binary64 i s).trans h) hf
  obtain rfl := Option.some.inj hr
  exact ⟨hp, rfl, rfl, rfl, rfl, rfl, rfl, rfl, hraises.response⟩

/-! ### In FAULT (R263) -/

/-- The column FAULT of R82: besides CLR only NOP and the read commands are legal. -/
theorem legal_fault {i : Instr} (hi : i ≠ .clr) : legal i .fault = false ∨ i = .nop ∨ isReadCommand i = true := by
  cases i <;> simp [legal_eq_false_iff, sequenceErrorPhases, isReadCommand] at hi ⊢

/-- In FAULT a command other than CLR is rejected or only answers. -/
theorem eq_answer_of_fault [Inhabited W] [DecidableEq W] {wa : WArith W} {i : Instr} {s t : State.Of W}
    (hp : s.phase = .fault) (hi : i ≠ .clr) (h : execWith wa i s = .next t) : ∃ code d, t = s.answer code d := by
  obtain hl | rfl | hread := legal_fault hi
  · exact ⟨_, _, (next_inj.1 ((execWith_of_not_legal (hp ▸ hl)).symm.trans h)).symm⟩
  · exact ⟨_, _, execNop_next h⟩
  · obtain ⟨c, d, ht, -⟩ := execWith_read_next hread h
    exact ⟨c, d, ht⟩

/-- Settles O16: an answer is no change of a register or a memory, and CLR leaves the reset state. -/
theorem onlyClrChangesAFaultedCore : Obligations.OnlyClrChangesAFaultedCore := by
  refine fun s hp => ⟨fun i t hi h => ?_, _, execClr_eq s, rfl, rfl, rfl, rfl⟩
  obtain ⟨code, d, rfl⟩ := eq_answer_of_fault hp hi ((execWith_binary64 i s).trans h)
  rfl

end Sys2Proof.Machine
end

section
/-! PROOFS. Reset and progress (70_reset_and_hazards.md R280, R291; 60_exceptions.md R250): the reset input gives the reset state, and
in a state with the invariant every command, so every step, answers a next state: each of the model's own stops stands behind a test
that the invariant passes. -/

namespace Sys2Proof.Machine

variable {W : Type}

/-! ### The reset input (R280) -/

theorem stepBy_of_reset (run : Instr → State.Of W → Result W) {s : State.Of W} {rest : List HostInput}
    (hport : s.port = .reset :: rest) :
    stepBy run s = .next { ({ s with port := rest } : State.Of W).cleared with rsp := none } := by
  simp only [stepBy, fetch_of_cons hport, resetInput]

/-- Settles O7: the reset input leaves the fresh state of the machine's own capacities. -/
theorem resetInputResets : Obligations.ResetInputResets :=
  fun s _ hport => ⟨_, stepBy_of_reset exec hport, atReset_fresh (W := Weight) s.ibcap s.obcap, rfl, rfl, rfl, rfl⟩

/-! ### The read commands always answer (R56) -/

section
variable {s : State.Of W}

/-- An indexed read stops only at a valid element that the memory does not have. -/
theorem exists_readElement {sp : Space} {valid : Nat} (hvalid : valid ≤ sp.size s) (idx value : Nat) :
    ∃ t, readElement sp valid idx value s = .next t := by
  obtain hle | hlt := le_or_gt valid idx
  · exact ⟨_, readElement_of_le sp value s hle⟩
  · exact ⟨_, readElement_of_lt value hlt hvalid⟩

/-- RD.REG answers a register or RangeError. -/
theorem exists_execRdReg (r : Nat) (s : State.Of W) : ∃ t, execRdReg r s = .next t := by
  rw [execRdReg, whenLegal_read s _ rfl]
  cases readReg s r with
  | none => exact ⟨_, rfl⟩
  | some v => exact ⟨_, rfl⟩

/-- R22 keeps the number of valid elements of every memory within its size. -/
theorem exists_execWith_read [Inhabited W] [DecidableEq W] (wa : WArith W) (hs : s.inRange) {i : Instr}
    (hi : isReadCommand i = true) : ∃ t, execWith wa i s = .next t := by
  obtain ⟨-, -, -, hilen, holen, -, hnsfl, hnnode, -⟩ := hs
  have hnsfl : s.nsfl.toNat ≤ 256 := by omega
  have indexed : ∀ {sp valid}, valid ≤ sp.size s → ∀ idx value,
      ∃ t, whenLegal i s (readElement sp valid idx value s) = .next t := fun hvalid idx value =>
    (whenLegal_read s _ hi).symm ▸ exists_readElement hvalid idx value
  cases i with
  | ibRd idx => exact indexed (sp := .ib) hilen idx _
  | obRd idx => exact indexed (sp := .ob) holen idx _
  | rdSfls idx | rdSflp idx => exact indexed (sp := .sfl) hnsfl idx _
  | rdNk idx | rdNw idx | rdNl idx | rdNr idx => exact indexed (sp := .node) hnnode idx _
  | rdReg r => exact exists_execRdReg r s
  | rdCnt sym => exact ⟨_, execRdCnt_eq sym s⟩
  | rdClen sym => exact ⟨_, execRdClen_eq sym s⟩
  | rdCbits sym k => exact ⟨_, execRdCbits_eq sym k s⟩
  | nop | clr | ibClr | ibPush | faRun | tbRun | cgRun | bpRun | decRun => cases hi

end

/-! ### The commands that write always answer (R291) -/

section
variable {s : State.Of W}

/-- IB.PUSH finds room or a full buffer. -/
theorem exists_execIbPush (b : Byte) (hp : s.phase ≠ .fault) : ∃ t, execIbPush b s = .next t := by
  obtain hfull | hroom := le_or_gt s.ibcap.toNat s.ilen.toNat
  · exact ⟨_, execIbPush_of_le b hp hfull⟩
  · exact ⟨_, execIbPush_of_lt b hp hroom⟩

theorem exists_execFaRunWith [Inhabited W] [DecidableEq W] (wa : WArith W) (hp : s.phase ≠ .fault)
    (hcap : s.ilen.toNat ≤ s.ibcap.toNat) : ∃ t, execFaRunWith wa s = .next t := by
  obtain hempty | hpos := Nat.eq_zero_or_pos s.ilen.toNat
  · exact ⟨_, execFaRunWith_of_empty wa hp hempty⟩
  · exact ⟨_, execFaRunWith_of_loaded wa hp hpos hcap⟩

/-- Behind the capacity test of R205 the bits so far always leave room for the padding block. -/
theorem length_lt_of_concatCodes {bytes : List Byte} {j : Nat} {bits out : BitString}
    (hroom : bits.length < 8 * s.obcap.toNat) (h : concatCodes s.code s.obcap.toNat bytes j bits = .bits out) :
    out.length < 8 * s.obcap.toNat := by
  induction bytes generalizing j bits with
  | nil =>
    obtain rfl : bits = out := PackEnd.bits.inj h
    exact hroom
  | cons sym bytes ih =>
    obtain hnone | hcode := Nat.eq_zero_or_pos (s.codeAt sym).length
    · rw [concatCodes_cons_of_no_code (List.length_eq_zero_iff.1 hnone)] at h
      cases h
    · rw [concatCodes_cons_of_code hcode] at h
      split_ifs at h with hfull
      exact ih (not_le.1 hfull) h

/-- Each end of the concatenation loop is an answer: packed bits fit in OB (`length_lt_of_concatCodes`). -/
theorem exists_execBpRun (hp : s.phase = .coded) (hcap : s.ilen.toNat ≤ s.ibcap.toNat) (hob : 1 ≤ s.obcap.toNat) :
    ∃ t, execBpRun s = .next t := by
  cases hloop : concatCodes s.code s.obcap.toNat s.ibBytes 0 [] with
  | unencodable j sym => exact ⟨_, execBpRun_of_unencodable hp hcap hloop⟩
  | overflow j => exact ⟨_, execBpRun_of_overflow hp hcap hloop⟩
  | bits bits => exact ⟨_, execBpRun_of_bits hp hcap hloop (length_lt_of_concatCodes (Nat.mul_pos (by decide) hob) hloop)⟩

end

/-! ### Every step answers (R250, R291) -/

section
variable [Inhabited W] [DecidableEq W] {wa : WArith W} {s : State.Of W}

/-- Check 3 rejects, or the command is legal and the phase has the list, the tree or the codes that it works on. -/
theorem exists_execWith (hs : s.inv wa) (i : Instr) : ∃ t, execWith wa i s = .next t := by
  obtain ⟨⟨-, -, -, -, hnode, -⟩, hrange, hpipe⟩ := hs
  have ⟨_, ⟨hob, _⟩, _, hcap, _⟩ := hrange
  cases hl : legal i s.phase with
  | false => exact ⟨_, execWith_of_not_legal hl⟩
  | true =>
    by_cases hread : isReadCommand i = true
    · exact exists_execWith_read wa hrange hread
    cases i <;> simp only [isReadCommand, not_true_eq_false] at hread
    case nop => exact ⟨_, execNop_eq s⟩
    case clr => exact ⟨_, execClr_eq s⟩
    case ibClr => exact ⟨_, execIbClr_of_ne_fault (Phase.notFault_iff.1 hl)⟩
    case ibPush b => exact exists_execIbPush b (Phase.notFault_iff.1 hl)
    case faRun => exact exists_execFaRunWith wa (Phase.notFault_iff.1 hl) hcap
    case tbRun =>
      have hp := Phase.hasList_iff.1 hl
      obtain ⟨⟨hmin, hmax, -⟩, -⟩ := listOk_of_hasList (s := s) hpipe hp
      obtain ⟨q, hq, -⟩ := execTbRunWith_completes wa hnode hp hmin hmax
      exact ⟨_, hq⟩
    case cgRun =>
      have hp := Phase.hasTree_iff.1 hl
      obtain ⟨⟨⟨-, hmax, -⟩, -⟩, htree, -⟩ := tree_of_hasTree (s := s) hpipe hp
      obtain ⟨code, hvisit⟩ := exists_visit_root hmax htree
      exact ⟨_, execCgRun_of_visit hp hvisit⟩
    case bpRun => exact exists_execBpRun (Phase.hasCodes_iff.1 hl) hcap hob
    case decRun =>
      have hp := Phase.hasTree_iff.1 hl
      obtain ⟨hlist, htree, -⟩ := tree_of_hasTree (s := s) hpipe hp
      obtain ⟨t, ht, -⟩ := exists_execDecRun hlist htree hp hcap
      exact ⟨t, ht⟩

/-- The invariant does not look at the command port. -/
theorem exists_stepWith (hs : s.inv wa) : ∃ t, stepWith wa s = .next t := by
  obtain ⟨-, hwait⟩ | ⟨_, -, hreset⟩ | ⟨_, rest, i, -, -, hcommand⟩ | ⟨_, _, _, -, -, hillegal⟩ := stepWith_cases wa s
  · exact ⟨_, hwait⟩
  · exact ⟨_, hreset⟩
  · obtain ⟨hcan, hrange, hpipe⟩ := hs
    have hs' : ({ s with port := rest } : State.Of W).inv wa := ⟨hcan, hrange, pipelineOk_of_pipelinePart_eq hpipe rfl⟩
    rw [hcommand]
    exact exists_execWith hs' i
  · exact ⟨_, hillegal⟩

end

/-- Settles O25: what a step can be (`stepWith_cases`), and every command answers (`exists_execWith`). -/
theorem stepNeverStops : Obligations.StepNeverStops :=
  ⟨fun s hs => stepWith_binary64 s ▸ exists_stepWith hs, fun _ _ _ _ _ hs => exists_stepWith hs⟩

end Sys2Proof.Machine
end

section
/-! PROOFS. Waiting (00_scope.md R10): with nothing on the command port a step leaves the state as it is. -/

namespace Sys2Proof.Machine

/-- Whatever the meanings of the commands, a core without input waits. -/
theorem stepBy_of_nil {W : Type} (run : Instr → State.Of W → Result W) {s : State.Of W} (hport : s.port = []) :
    stepBy run s = .next s := by
  simp only [stepBy, fetch_of_nil hport, wait]

/-- Settles O6: without input there is no command whose meaning could run. -/
theorem stepWaitsWithoutInput : Obligations.StepWaitsWithoutInput := fun _ hport => stepBy_of_nil exec hport

end Sys2Proof.Machine
end
